-- ==== Sys2Proof/Word.lean ====
section
/-! DEFINITION. The words of the machine: the 64-bit slot of the aperture (spec/20_memory.md R61), the 32-bit
command word (spec/30_encoding.md R90) and the 4-bit register number (R92). -/

namespace Sys2Proof

/-- The value of one 64-bit slot of the aperture (R61). A digit narrower than 64 bits is held zero-extended, as its
slot reads (R64). -/
abbrev Word := BitVec 64

/-- A command word, the value of `CMD[31:0]` (R90). -/
abbrev CmdWord := BitVec 32

/-- A register number: a 4-bit field of the command word, read as an unsigned number 0 to 15 (R92, R12). -/
abbrev RegNum := BitVec 4

end Sys2Proof
end

