-- ==== Sys2Proof/Syntax.lean ====
section
/-! DEFINITION. The syntax of the engine's commands: one constructor per row of the opcode map
(spec/30_encoding.md R95), operands in the order RD, RA, RB, RC of the row's used fields. -/

namespace Sys2Proof

/-- The fifteen commands (R95). An integer command names `R[n]`, a field command `F[n]` (R92). -/
inductive Instr where
  /-- Truncation to `b` bits (spec/41_truncation_division.md R130). -/
  | mod2b (rd ra : RegNum)
  /-- Remainder by one digit (R131). -/
  | moddig (rd ra rb : RegNum)
  /-- Classical reduction (R132). -/
  | modbasic (rd ra rb : RegNum)
  /-- Barrett context (spec/42_barrett.md R150). -/
  | bsetup (rd rb : RegNum)
  /-- Barrett reduction (R151). -/
  | bred (rd ra rb rc : RegNum)
  /-- Montgomery context (spec/43_montgomery.md R170). -/
  | msetup (rd rb : RegNum)
  /-- Conversion into the Montgomery domain (R173). -/
  | mto (rd ra rb : RegNum)
  /-- Conversion out of the Montgomery domain (R174). -/
  | mfrom (rd ra rb : RegNum)
  /-- Montgomery reduction (R172). -/
  | mred (rd ra rb rc : RegNum)
  /-- Radix shape check (spec/44_radix.md R191). -/
  | rchk (rd rb : RegNum)
  /-- Radix context (R193). -/
  | rsetup (rd rb : RegNum)
  /-- Radix reduction (R195). -/
  | rred (rd ra rb rc : RegNum)
  /-- Field multiplication by one digit (spec/45_binary_field.md R211). -/
  | fmul1 (rd ra rb : RegNum)
  /-- Full field product (R214). -/
  | fmulf (rd ra rb : RegNum)
  /-- Reduced field product (R216). -/
  | fmulr (rd ra rb : RegNum)
deriving DecidableEq, Repr

/-- The six fields of a command word (R91). -/
structure Fields where
  /-- Bits `[5:0]`. -/
  opc : BitVec 6
  /-- Bits `[9:6]`. -/
  rd : RegNum
  /-- Bits `[13:10]`. -/
  ra : RegNum
  /-- Bits `[17:14]`. -/
  rb : RegNum
  /-- Bits `[21:18]`. -/
  rc : RegNum
  /-- Bits `[31:22]`, reserved. -/
  rsv : BitVec 10
deriving DecidableEq, Repr

/-- Why a word is no command (R96). The engine reports all three as `ILLEGAL`; the names are the model's. -/
inductive Illegal where
  /-- The opcode is not listed in the opcode map. -/
  | reservedOpcode
  /-- A field the command does not use is not 0 (R93). -/
  | unusedField
  /-- The field RSV is not 0 (R93). -/
  | reservedField
deriving DecidableEq, Repr

namespace Instr

/-- The destination register number, `RD` in every command (R97). -/
def rd : Instr → RegNum
  | mod2b d _ => d
  | moddig d _ _ => d
  | modbasic d _ _ => d
  | bsetup d _ => d
  | bred d _ _ _ => d
  | msetup d _ => d
  | mto d _ _ => d
  | mfrom d _ _ => d
  | mred d _ _ _ => d
  | rchk d _ => d
  | rsetup d _ => d
  | rred d _ _ _ => d
  | fmul1 d _ _ => d
  | fmulf d _ _ => d
  | fmulr d _ _ => d

/-- Whether the command works on the field registers: opcodes `0x10` to `0x12` (R92). -/
def isField : Instr → Bool
  | mod2b _ _ => false
  | moddig _ _ _ => false
  | modbasic _ _ _ => false
  | bsetup _ _ => false
  | bred _ _ _ _ => false
  | msetup _ _ => false
  | mto _ _ _ => false
  | mfrom _ _ _ => false
  | mred _ _ _ _ => false
  | rchk _ _ => false
  | rsetup _ _ => false
  | rred _ _ _ _ => false
  | fmul1 _ _ _ => true
  | fmulf _ _ _ => true
  | fmulr _ _ _ => true

/-- The used source fields in the order RA, RB, RC (spec/40_command_execution.md R113). -/
def sources : Instr → List RegNum
  | mod2b _ a => [a]
  | moddig _ a b => [a, b]
  | modbasic _ a b => [a, b]
  | bsetup _ b => [b]
  | bred _ a b c => [a, b, c]
  | msetup _ b => [b]
  | mto _ a b => [a, b]
  | mfrom _ a b => [a, b]
  | mred _ a b c => [a, b, c]
  | rchk _ b => [b]
  | rsetup _ b => [b]
  | rred _ a b c => [a, b, c]
  | fmul1 _ a b => [a, b]
  | fmulf _ a b => [a, b]
  | fmulr _ a b => [a, b]

/-- The mnemonic of the opcode map (R95). -/
def mnemonic : Instr → String
  | mod2b _ _ => "MOD2B"
  | moddig _ _ _ => "MODDIG"
  | modbasic _ _ _ => "MODBASIC"
  | bsetup _ _ => "BSETUP"
  | bred _ _ _ _ => "BRED"
  | msetup _ _ => "MSETUP"
  | mto _ _ _ => "MTO"
  | mfrom _ _ _ => "MFROM"
  | mred _ _ _ _ => "MRED"
  | rchk _ _ => "RCHK"
  | rsetup _ _ => "RSETUP"
  | rred _ _ _ _ => "RRED"
  | fmul1 _ _ _ => "FMUL1"
  | fmulf _ _ _ => "FMULF"
  | fmulr _ _ _ => "FMULR"

end Instr

end Sys2Proof
end

