-- ==== Sys2Proof/Decode.lean ====
section
/-! DEFINITION. The decoder, total on every 32-bit word, and the encoder (spec/30_encoding.md R91 to R96, R100),
with the opcode map's rows (R95) as a table of masks and matches. -/

namespace Sys2Proof

/-- The fields of a command word (R91). -/
def fieldsOf (w : CmdWord) : Fields :=
  { opc := w.extractLsb' 0 6
    rd := w.extractLsb' 6 4
    ra := w.extractLsb' 10 4
    rb := w.extractLsb' 14 4
    rc := w.extractLsb' 18 4
    rsv := w.extractLsb' 22 10 }

/-- The word of the given fields, most significant first: `RSV(10) RC(4) RB(4) RA(4) RD(4) OPC(6)` (R91). -/
def wordOf (f : Fields) : CmdWord := f.rsv ++ f.rc ++ f.rb ++ f.ra ++ f.rd ++ f.opc

/-- Accept a command whose unused fields and reserved field are 0; name what is not (R93, R96). -/
def accept (unusedZero : Bool) (f : Fields) (i : Instr) : Except Illegal Instr :=
  if unusedZero then (if f.rsv = 0 then .ok i else .error .reservedField) else .error .unusedField

/-- A command that uses RD and RA: RB and RC are unused (R95). -/
def takeDA (f : Fields) (mk : RegNum → RegNum → Instr) : Except Illegal Instr :=
  accept (f.rb == 0 && f.rc == 0) f (mk f.rd f.ra)

/-- A command that uses RD and RB: RA and RC are unused (R95). -/
def takeDB (f : Fields) (mk : RegNum → RegNum → Instr) : Except Illegal Instr :=
  accept (f.ra == 0 && f.rc == 0) f (mk f.rd f.rb)

/-- A command that uses RD, RA and RB: RC is unused (R95). -/
def takeDAB (f : Fields) (mk : RegNum → RegNum → RegNum → Instr) : Except Illegal Instr :=
  accept (f.rc == 0) f (mk f.rd f.ra f.rb)

/-- A command that uses RD, RA, RB and RC (R95). -/
def takeDABC (f : Fields) (mk : RegNum → RegNum → RegNum → RegNum → Instr) : Except Illegal Instr :=
  accept true f (mk f.rd f.ra f.rb f.rc)

/-- Decoding by the fields: the command of the opcode (R95), or the name of what makes the word illegal (R96). -/
def decodeFields (f : Fields) : Except Illegal Instr :=
  match f.opc.toNat with
  | 0x01 => takeDA f .mod2b
  | 0x02 => takeDAB f .moddig
  | 0x03 => takeDAB f .modbasic
  | 0x04 => takeDB f .bsetup
  | 0x05 => takeDABC f .bred
  | 0x06 => takeDB f .msetup
  | 0x07 => takeDAB f .mto
  | 0x08 => takeDAB f .mfrom
  | 0x09 => takeDABC f .mred
  | 0x0A => takeDB f .rchk
  | 0x0B => takeDB f .rsetup
  | 0x0C => takeDABC f .rred
  | 0x10 => takeDAB f .fmul1
  | 0x11 => takeDAB f .fmulf
  | 0x12 => takeDAB f .fmulr
  | _ => .error .reservedOpcode

/-- The decoder: a word is one command, or illegal, and never both (R94). -/
def decode (w : CmdWord) : Except Illegal Instr := decodeFields (fieldsOf w)

namespace Instr

/-- The fields of the command's word, an unused field 0 (R93, R95, R99). -/
def fields : Instr → Fields
  | mod2b d a => ⟨0x01, d, a, 0, 0, 0⟩
  | moddig d a b => ⟨0x02, d, a, b, 0, 0⟩
  | modbasic d a b => ⟨0x03, d, a, b, 0, 0⟩
  | bsetup d b => ⟨0x04, d, 0, b, 0, 0⟩
  | bred d a b c => ⟨0x05, d, a, b, c, 0⟩
  | msetup d b => ⟨0x06, d, 0, b, 0, 0⟩
  | mto d a b => ⟨0x07, d, a, b, 0, 0⟩
  | mfrom d a b => ⟨0x08, d, a, b, 0, 0⟩
  | mred d a b c => ⟨0x09, d, a, b, c, 0⟩
  | rchk d b => ⟨0x0A, d, 0, b, 0, 0⟩
  | rsetup d b => ⟨0x0B, d, 0, b, 0, 0⟩
  | rred d a b c => ⟨0x0C, d, a, b, c, 0⟩
  | fmul1 d a b => ⟨0x10, d, a, b, 0, 0⟩
  | fmulf d a b => ⟨0x11, d, a, b, 0, 0⟩
  | fmulr d a b => ⟨0x12, d, a, b, 0, 0⟩

end Instr

/-- The encoder: `OPC | RD << 6 | RA << 10 | RB << 14 | RC << 18`, unused fields 0 (R100). -/
def encode (i : Instr) : CmdWord := wordOf i.fields

/-- One row of the opcode map: its mnemonic, mask and match (R95). -/
structure OpcodeRow where
  mnemonic : String
  mask : CmdWord
  pattern : CmdWord
deriving DecidableEq, Repr

/-- The row denotes the word: `(w AND mask) = match` (R94). -/
def OpcodeRow.fits (r : OpcodeRow) (w : CmdWord) : Bool := (w &&& r.mask) == r.pattern

/-- The opcode map, row by row (R95). The decoder does not read it: that the two agree is a claim. -/
def opcodeMap : List OpcodeRow :=
  [ ⟨"MOD2B", 0xFFFFC03F, 0x00000001⟩, ⟨"MODDIG", 0xFFFC003F, 0x00000002⟩, ⟨"MODBASIC", 0xFFFC003F, 0x00000003⟩,
    ⟨"BSETUP", 0xFFFC3C3F, 0x00000004⟩, ⟨"BRED", 0xFFC0003F, 0x00000005⟩, ⟨"MSETUP", 0xFFFC3C3F, 0x00000006⟩,
    ⟨"MTO", 0xFFFC003F, 0x00000007⟩, ⟨"MFROM", 0xFFFC003F, 0x00000008⟩ ] ++
  [ ⟨"MRED", 0xFFC0003F, 0x00000009⟩, ⟨"RCHK", 0xFFFC3C3F, 0x0000000A⟩, ⟨"RSETUP", 0xFFFC3C3F, 0x0000000B⟩,
    ⟨"RRED", 0xFFC0003F, 0x0000000C⟩, ⟨"FMUL1", 0xFFFC003F, 0x00000010⟩, ⟨"FMULF", 0xFFFC003F, 0x00000011⟩,
    ⟨"FMULR", 0xFFFC003F, 0x00000012⟩ ]

/-- What the decoder reads from a table word of `nbits` bits: a command is one 32-bit word (R90), so the bits above
`nbits` are 0 and a value that does not fit 32 bits is no command. -/
def decodeTableWord (nbits w : Nat) : Option Instr :=
  if w % 2 ^ nbits < 2 ^ 32 then (decode (BitVec.ofNat 32 (w % 2 ^ nbits))).toOption else none

end Sys2Proof
end

