-- ==== Sys2Proof/Config.lean ====
section
/-! DEFINITION. What one engine is built with (spec/00_scope.md R4 to R8 and R11), and the one free value of the
model. The spec makes every parameter an argument of the model (00_scope.md section 3): `State` carries a `Params`
that no step changes, so a claim about every state is a claim about every engine. -/

namespace Sys2Proof

/-- The digit width `W`, one of 8, 16, 32 or 64 (R4). -/
inductive DigitWidth where
  | w8 | w16 | w32 | w64
deriving DecidableEq, Repr

/-- The width in bits (R4). -/
def DigitWidth.bits : DigitWidth → Nat
  | .w8 => 8
  | .w16 => 16
  | .w32 => 32
  | .w64 => 64

/-- The implementation parameters that a rule reads (R4 to R8, R11). `MONT_VARIANT` and `BARRETT_PATH` (R9, R10) are
left out: no rule reads them. -/
structure Params where
  /-- `W` (R4). -/
  width : DigitWidth
  /-- `CAP`, the digits of an integer register (R5). -/
  cap : Nat
  /-- `FB_BITS`, the degree of the binary field (R6). -/
  fbBits : Nat
  /-- `FB_POLY`, bit `i` the coefficient of `x^i` (R8). -/
  fbPoly : Nat
  /-- `BASE`, the host's address of the aperture (R11). -/
  base : Nat
deriving DecidableEq, Repr

namespace Params

/-- `W` in bits (R4). -/
def w (p : Params) : Nat := p.width.bits

/-- `B = 2^W`, the base of the digits (R4). -/
def radix (p : Params) : Nat := 2 ^ p.w

/-- `FB_DIGS = ceil(FB_BITS / W)`, the digits of a field element (R7). -/
def fbDigs (p : Params) : Nat := (p.fbBits + p.w - 1) / p.w

end Params

/-- Configuration T8 of spec/95_test_vectors.md section 0, with `BASE` 0 (DESIGN CHOICE, notes/assumptions/1.md). -/
def Params.t8 : Params := { width := .w8, cap := 8, fbBits := 13, fbPoly := 0x201B, base := 0 }

/-- Configuration T8L: T8 with 32 digits to a register (spec/95_test_vectors.md section 0). -/
def Params.t8l : Params := { Params.t8 with cap := 32 }

/-- Configuration T64 (spec/95_test_vectors.md section 0). -/
def Params.t64 : Params := { width := .w64, cap := 8, fbBits := 127, fbPoly := 2 ^ 127 + 3, base := 0 }

/-- THE FREE VALUE. The `n`-th value the spec leaves unspecified: a register digit after reset
(spec/10_state.md R48, spec/93_implementation_defined.md I7 and I8) and the slot that a read of a register window gives while the
engine is busy (spec/20_memory.md R72, I11). It has no body, so no proof can lean on a value of it
(notes/assumptions/2.md and 3.md). -/
opaque Config.unspecified : Nat → Word

end Sys2Proof
end

