-- ==== Sys2Proof/Machine/Arith.lean ====
section
/-! DEFINITION. The exact arithmetic the rules are written in (spec/00_scope.md R13 to R16): lengths and digits of a
natural number in base `2^w`, and polynomials over GF(2) as natural numbers. Every intermediate value of a command is an
exact number (spec/40_command_execution.md R118), so these are functions of `Nat`. -/

namespace Sys2Proof.Machine

/-- `bitlen(x)`, the least `n` with `x < 2^n` (R14). -/
def bitlen (x : Nat) : Nat := if x = 0 then 0 else x.log2 + 1

/-- `diglen(x)`, the least `n` with `x < B^n`, `B = 2^w`: the bits of `x` in whole digits (R14). -/
def diglen (w x : Nat) : Nat := (bitlen x + w - 1) / w

/-- `digit_i(x) = floor(x / B^i) mod B` (R14). -/
def digit (w x i : Nat) : Nat := x / 2 ^ (w * i) % 2 ^ w

/-- `v[w-1:0]`, zero-extended to the slot: what a digit field of `w` bits keeps of a slot value
(spec/20_memory.md R64). -/
def lowDigit (w : Nat) (v : Word) : Word := (v.setWidth w).setWidth 64

/-- The number whose digits, least significant first, are given: `sum DIG[j] * B^j` (spec/10_state.md R32, R36). -/
def ofDigits (w : Nat) : List Word → Nat
  | [] => 0
  | d :: ds => d.toNat + 2 ^ w * ofDigits w ds

/-- The low `n` digits of `x`, least significant first, digit `j` being `digit_j(x)` (spec/10_state.md R34, R37). -/
def toDigits (w n x : Nat) : List Word := (List.range n).map fun j => BitVec.ofNat 64 (digit w x j)

/-- The XOR of `a << i` over every `i < n` with `b[i] = 1`. -/
def clmulBelow (a b : Nat) : Nat → Nat
  | 0 => 0
  | n + 1 => clmulBelow a b n ^^^ (if b.testBit n then a <<< n else 0)

/-- The carry-less product of two binary polynomials (R16). -/
def clmul (a b : Nat) : Nat := clmulBelow a b (bitlen b)

/-- Long division of polynomials from bit `n - 1` down to bit `d`, `d` the degree of `f`: where the bit is set, add
`f` shifted up to it. -/
def pmodBelow (f d : Nat) : Nat → Nat → Nat
  | 0, p => p
  | n + 1, p => pmodBelow f d n (if d ≤ n ∧ p.testBit n then p ^^^ (f <<< (n - d)) else p)

/-- `pmod(p, f)`, the remainder of the polynomial `p` by `f` of degree `bitlen(f) - 1` (R16). -/
def pmod (p f : Nat) : Nat := pmodBelow f (bitlen f - 1) (bitlen p) p

end Sys2Proof.Machine
end

