-- ==== Sys2Proof/Machine/State.lean ====
section
/-! DEFINITION. The state of the engine (spec/10_state.md), the host's accesses waiting at its aperture, and the two
ways a step can end without a next state. -/

namespace Sys2Proof.Machine

/-- Why the machine stops. -/
inductive Fault where
  /-- Raised by a host access (`step`, on the host's turn) whose address lies outside the aperture: nothing there
  belongs to the engine (spec/20_memory.md R61, R80). Safe: the engine's state is as it was. -/
  | outsideAperture (addr : Nat)
  /-- Raised by a host access of `n` bytes (`step`, on the host's turn) inside the aperture whose size or alignment the
  engine refuses: a bus error, which is a fault of the host's program (R69, spec/93_implementation_defined.md I13).
  Safe: the engine's state is as it was (spec/60_exceptions.md R234). -/
  | busError (addr n : Nat)
deriving DecidableEq, Repr

/-- Why the model gives a command no meaning. -/
inductive Refusal where
  /-- A command with no meaning in this model. No arm of `exec` answers it: every command of the opcode map has its
  meaning. Safe. -/
  | notModelled (mnemonic : String)
deriving DecidableEq, Repr

/-- The error codes of `STATUS.ERR` (spec/60_exceptions.md R230). The reserved codes 7 to 15 are never produced. -/
inductive Err where
  | ok | invalidModulus | divisionByZero | capacity | operand | range | illegal
deriving DecidableEq, Repr

/-- One integer register (spec/10_state.md R31). -/
structure IntReg where
  /-- `SIGN`, true for negative. -/
  sign : Bool
  /-- `USED`, the digits in use; any 16-bit value is stored as written. -/
  used : BitVec 16
  /-- `DIG[0]`, `DIG[1]`, ... to `DIG[CAP-1]`, each below `2^W`. -/
  dig : List Word
deriving DecidableEq, Repr

/-- One field register: `FDIG[0]` to `FDIG[2*FB_DIGS-1]`, each below `2^W` (R35). -/
structure FieldReg where
  fdig : List Word
deriving DecidableEq, Repr

/-- The fields of `STATUS` (R42). Its reserved bits read as 0 and ignore writes, so they hold nothing. -/
structure Status where
  /-- `BUSY`, bit 0. -/
  busy : Bool
  /-- `DONE`, bit 1. -/
  done : Bool
  /-- `HAZ`, bit 2. -/
  haz : Bool
  /-- `ERR`, bits 11 to 8. -/
  err : Err
deriving DecidableEq, Repr

/-- One operation of the host (spec/30_encoding.md R101); addresses are the host's, sizes in bytes. -/
inductive HostOp where
  /-- `r64` and its narrower kin: a read of `n` bytes (spec/20_memory.md R66). -/
  | read (addr n : Nat)
  /-- `w64`, `w32`: a write of the low `n` bytes of `v` (R67). -/
  | write (addr n : Nat) (v : Word)
  /-- `poll`: read `STATUS` until `BUSY` is 0 (R101). -/
  | poll
deriving DecidableEq, Repr

/-- What the host gets back from one access. -/
inductive Reply where
  /-- The eight bytes read (R66). -/
  | data8 (v : Word)
  /-- The four bytes read (R66). -/
  | data4 (v : BitVec 32)
  /-- The write was accepted by the bus (R67); while busy it may have changed nothing but `HAZ` (R72). -/
  | written
  /-- The access was refused with a bus error, no data (R69): the step that performs it is a fault. -/
  | busError
deriving DecidableEq, Repr

/-- Who makes the next move: the host performs its next access, the engine its completion, or the platform drives the
reset input (spec/20_memory.md R73, spec/40_command_execution.md R111, spec/70_reset_and_hazards.md R260). -/
inductive Turn where
  | host | engine | reset
deriving DecidableEq, Repr

/-- The machine: the engine's architectural state, and the model's own record of the host around it. -/
structure State where
  /-- The parameters, which `ID` shows; no step changes them (R40). -/
  params : Params
  /-- `R[0]` to `R[15]` (R30). -/
  regs : Vector IntReg 16
  /-- `F[0]` to `F[15]` (R35). -/
  fregs : Vector FieldReg 16
  /-- `CMD[31:0]`, the last accepted command word (R41). -/
  cmd : CmdWord
  /-- `STATUS` (R42). -/
  status : Status
  /-- `ARG` (R44). -/
  arg : Word
  /-- `CTRL.IE` (R43). -/
  ie : Bool
  /-- The model's own: the host's operations still to come, next first (notes/assumptions/4.md). -/
  host : List HostOp
  /-- The model's own: who moves next, and after; empty for the default order (notes/assumptions/5.md). -/
  turns : List Turn
  /-- The model's own: what the host has received, newest first (notes/assumptions/4.md). -/
  replies : List Reply
  /-- The model's own: how many unspecified values have been drawn (notes/assumptions/2.md). -/
  draws : Nat
deriving DecidableEq, Repr

/-- An integer register after reset: value 0, every digit unspecified, drawn from number `n` on (R48). -/
def IntReg.afterReset (p : Params) (n : Nat) : IntReg :=
  { sign := false
    used := 0
    dig := (List.range p.cap).map fun j => lowDigit p.w (Config.unspecified (n + j)) }

/-- A field register after reset: every digit unspecified, drawn from number `n` on (R48). -/
def FieldReg.afterReset (p : Params) (n : Nat) : FieldReg :=
  { fdig := (List.range (2 * p.fbDigs)).map fun j => lowDigit p.w (Config.unspecified (n + j)) }

/-- The sixteen integer registers after reset, `CAP` draws each. -/
def intRegsAfterReset (p : Params) (n : Nat) : Vector IntReg 16 :=
  ⟨⟨(List.range 16).map fun i => IntReg.afterReset p (n + p.cap * i)⟩, by simp⟩

/-- The sixteen field registers after reset, `2*FB_DIGS` draws each. -/
def fieldRegsAfterReset (p : Params) (n : Nat) : Vector FieldReg 16 :=
  ⟨⟨(List.range 16).map fun i => FieldReg.afterReset p (n + 2 * p.fbDigs * i)⟩, by simp⟩

/-- How many values one reset draws: every digit of both register files. -/
def resetDraws (p : Params) : Nat := 16 * p.cap + 32 * p.fbDigs

/-- An engine with parameters `p` right after reset (R48, spec/70_reset_and_hazards.md R260), its unspecified digits
drawn from number `n` on, no host operation waiting. -/
def State.afterReset (p : Params) (n : Nat) : State :=
  { params := p
    regs := intRegsAfterReset p n
    fregs := fieldRegsAfterReset p (n + 16 * p.cap)
    cmd := 0
    status := { busy := false, done := false, haz := false, err := .ok }
    arg := 0
    ie := false
    host := []
    turns := []
    replies := []
    draws := n + resetDraws p }

/-- The machine right after reset, in configuration T8 (DESIGN CHOICE, notes/assumptions/1.md): the spec leaves the
parameters open, and its host programs start here (spec/95_test_vectors.md Part 3). -/
def State.reset : State := State.afterReset Params.t8 0

end Sys2Proof.Machine
end

