-- ==== Sys2Proof/Machine/Flags.lean ====
section
/-! DEFINITION. `STATUS`, `CTRL` and the interrupt output: the only flags the engine has (spec/10_state.md R42, R43,
R45; spec/60_exceptions.md R230, R240). -/

namespace Sys2Proof.Machine

/-- The number of an error code (spec/60_exceptions.md R230). -/
def Err.code : Err → BitVec 4
  | .ok => 0
  | .invalidModulus => 1
  | .divisionByZero => 2
  | .capacity => 3
  | .operand => 4
  | .range => 5
  | .illegal => 6

/-- What a read of the `STATUS` slot gives: `BUSY` in bit 0, `DONE` in bit 1, `HAZ` in bit 2, `ERR` in bits 11 to 8,
every other bit 0 (R42). -/
def Status.word (st : Status) : Word :=
  (0 : BitVec 52) ++ st.err.code ++ (0 : BitVec 5) ++ BitVec.ofBool st.haz ++ BitVec.ofBool st.done ++ BitVec.ofBool st.busy

/-- A write of `v` to the `STATUS` slot: 1 clears `DONE` (bit 1) and `HAZ` (bit 2), 0 leaves them, the other bits are
read-only (R42). -/
def Status.writeOneToClear (st : Status) (v : Word) : Status :=
  { st with done := st.done && !v.getLsbD 1, haz := st.haz && !v.getLsbD 2 }

/-- Acceptance: `BUSY <- 1`, `DONE <- 0`, `HAZ` and `ERR` kept (spec/40_command_execution.md R110). -/
def Status.accepted (st : Status) : Status := { st with busy := true, done := false }

/-- Completion with code `e`: `ERR <- e`, `BUSY <- 0`, `DONE <- 1`, `HAZ` kept (R116, R117). -/
def Status.completed (st : Status) (e : Err) : Status := { st with busy := false, done := true, err := e }

/-- A refused busy-time access: `HAZ <- 1` (spec/20_memory.md R72). -/
def Status.hazarded (st : Status) : Status := { st with haz := true }

/-- What a read of the `CTRL` slot gives: `IE` in bit 0, every other bit 0 (R43). -/
def ctrlWord (ie : Bool) : Word := (0 : BitVec 63) ++ BitVec.ofBool ie

/-- The interrupt output, a function of the state: `STATUS.DONE and CTRL.IE` (spec/60_exceptions.md R240). -/
def State.irq (s : State) : Bool := s.status.done && s.ie

end Sys2Proof.Machine
end

