-- ==== Sys2Proof/Machine/Operands.lean ====
section
/-! DEFINITION. Reading operands: the value and the canonical form of an integer register (spec/10_state.md R32,
R33), the polynomial of a field register (R36), and the one-digit operand of `MODDIG`, `MRED` and `RRED`. -/

namespace Sys2Proof.Machine

namespace IntReg

/-- `mag(R[i])`: the sum of `DIG[j] * B^j` over `j < USED` (R32). -/
def mag (w : Nat) (r : IntReg) : Nat := ofDigits w (r.dig.take r.used.toNat)

/-- `val(R[i])`: the magnitude with the sign (R32). -/
def val (w : Nat) (r : IntReg) : Int := if r.sign then -(r.mag w : Int) else r.mag w

/-- `USED <= CAP`; `SIGN = 0` when `USED = 0`; a nonzero top digit when `USED > 0` (R33). -/
def canonical (cap : Nat) (r : IntReg) : Bool :=
  decide (r.used.toNat ≤ cap) &&
    (if r.used.toNat = 0 then !r.sign else r.dig.getD (r.used.toNat - 1) 0 != 0)

/-- The register as one unsigned digit: `DIG[0]`, or 0 when `USED = 0`; `none` when it is negative or has more digits
(spec/41_truncation_division.md R131, spec/43_montgomery.md R172, spec/44_radix.md R195). -/
def oneDigit (r : IntReg) : Option Nat :=
  if r.sign ∨ 1 < r.used.toNat then none
  else some (if r.used.toNat = 0 then 0 else (r.dig.getD 0 0).toNat)

end IntReg

/-- `fval(F[i], n)`: the polynomial of the low `n` digits (R36). -/
def FieldReg.fval (w n : Nat) (f : FieldReg) : Nat := ofDigits w (f.fdig.take n)

namespace State

/-- `R[n]` (R30, R92). -/
def reg (s : State) (n : RegNum) : IntReg := s.regs[n.toNat]'n.isLt

/-- `F[n]` (R35, R92). -/
def freg (s : State) (n : RegNum) : FieldReg := s.fregs[n.toNat]'n.isLt

/-- The value of `R[n]` (R32, R114). -/
def val (s : State) (n : RegNum) : Int := (s.reg n).val s.params.w

/-- Whether `R[n]` is canonical (R33, R113). -/
def canonical (s : State) (n : RegNum) : Bool := (s.reg n).canonical s.params.cap

/-- The field element in `F[n]`: its low `FB_DIGS` digits (R36, R114). -/
def elem (s : State) (n : RegNum) : Nat := (s.freg n).fval s.params.w s.params.fbDigs

/-- Digit 0 of `F[n]`, the scalar of `FMUL1` (spec/45_binary_field.md R210). -/
def fdigit0 (s : State) (n : RegNum) : Nat := (s.freg n).fval s.params.w 1

/-- The whole of `F[n]`: all `2*FB_DIGS` digits, a double-width product (R35, R36). -/
def product (s : State) (n : RegNum) : Nat := (s.freg n).fval s.params.w (2 * s.params.fbDigs)

/-- `sint_64(ARG)`, the bit count of `MOD2B` (R44). -/
def bitCount (s : State) : Int := s.arg.toInt

end State

end Sys2Proof.Machine
end

