-- ==== Sys2Proof/Machine/Ops.lean ====
section
/-! DEFINITION. The named operations on the state: writing a register, the canonical write (spec/10_state.md R34),
the field write (R37), acceptance (spec/40_command_execution.md R110), and the two ways a command ends, `raise` (R116)
and the commit (R117). The engine takes no trap and returns from none (spec/60_exceptions.md R235, R236): `raise` is
what an error does. -/

namespace Sys2Proof.Machine

/-- The integer register that holds `v` in canonical form, the digits above `USED` zero (R34). -/
def IntReg.ofInt (p : Params) (v : Int) : IntReg :=
  { sign := decide (v < 0)
    used := BitVec.ofNat 16 (diglen p.w v.natAbs)
    dig := toDigits p.w p.cap v.natAbs }

/-- The field register that holds the polynomial `x`, the digits above it zero (R37). -/
def FieldReg.ofPoly (p : Params) (x : Nat) : FieldReg := { fdig := toDigits p.w (2 * p.fbDigs) x }

namespace State

/-- Put `r` into `R[n]`. -/
def setReg (s : State) (n : RegNum) (r : IntReg) : State := { s with regs := s.regs.set n.toNat r n.isLt }

/-- Put `f` into `F[n]`. -/
def setFreg (s : State) (n : RegNum) (f : FieldReg) : State := { s with fregs := s.fregs.set n.toNat f n.isLt }

/-- Acceptance of the command word `w` (R110). -/
def accept (s : State) (w : CmdWord) : State := { s with cmd := w, status := s.status.accepted }

/-- Completion with code `e` (R116, R117). -/
def complete (s : State) (e : Err) : State := { s with status := s.status.completed e }

/-- `raise E`: no register is written (R116). -/
def raise (s : State) (e : Err) : State := s.complete e

/-- The commit of an integer result: `CAPACITY` when it does not fit `CAP` digits, else the canonical write and `OK`
(R117). -/
def commitInt (s : State) (rd : RegNum) (res : Int) : State :=
  if s.params.cap < diglen s.params.w res.natAbs then s.raise .capacity
  else (s.setReg rd (IntReg.ofInt s.params res)).complete .ok

/-- The commit of a field result: the field write and `OK` (R117). -/
def commitField (s : State) (rd : RegNum) (res : Nat) : State :=
  (s.setFreg rd (FieldReg.ofPoly s.params res)).complete .ok

/-- The end of an integer command with used source fields `srcs` and rule result `res`: `OPERAND` when a source is not
canonical (R113), the error its own checks name (R115), or the commit (R117). The order `RA`, `RB`, `RC` of R113 cannot
be told apart, since each gives `OPERAND`. -/
def finishInt (s : State) (srcs : List RegNum) (rd : RegNum) (res : Except Err Int) : State :=
  if srcs.all s.canonical then
    match res with
    | .error e => s.raise e
    | .ok v => s.commitInt rd v
  else s.raise .operand

end State

end Sys2Proof.Machine
end

