-- ==== Sys2Proof/Machine/Aperture.lean ====
section
/-! DEFINITION. The aperture: what each offset names (spec/20_memory.md R61 to R65), the two access primitives of the
host (R66, R67), what they do while the engine is busy (R72), the bytes of a slot (R68), and the host's next operation. -/

namespace Sys2Proof.Machine

/-- What a 64-bit slot of the aperture holds (R62, R63). -/
inductive SlotName where
  | id | cmd | status | arg | ctrl
  /-- `R[n].USED`. -/
  | used (n : RegNum)
  /-- `R[n].SIGN`. -/
  | sign (n : RegNum)
  /-- `R[n].DIG[j]`, `j < CAP`. -/
  | dig (n : RegNum) (j : Nat)
  /-- `F[n].FDIG[j]`, `j < 2*FB_DIGS`. -/
  | fdig (n : RegNum) (j : Nat)
  | reserved
deriving DecidableEq, Repr

/-- The slots whose writes are refused while busy: `CMD`, `ARG` and the register windows (R72(a)). -/
def SlotName.guarded : SlotName → Bool
  | .id => false
  | .cmd => true
  | .status => false
  | .arg => true
  | .ctrl => false
  | .used _ => true
  | .sign _ => true
  | .dig _ _ => true
  | .fdig _ _ => true
  | .reserved => false

/-- The slots of the register windows, whose reads are unspecified while busy (R72(b)). -/
def SlotName.inWindow : SlotName → Bool
  | .id => false
  | .cmd => false
  | .status => false
  | .arg => false
  | .ctrl => false
  | .used _ => true
  | .sign _ => true
  | .dig _ _ => true
  | .fdig _ _ => true
  | .reserved => false

/-- The slot of the CSR region at offset `off` (R62). -/
def csrSlot (off : Nat) : SlotName :=
  match off with
  | 0x00 => .id
  | 0x08 => .cmd
  | 0x10 => .status
  | 0x18 => .arg
  | 0x20 => .ctrl
  | _ => .reserved

/-- The slot at byte `o` of the 4096-byte window of `R[n]` (R63). -/
def intSlot (p : Params) (n : RegNum) (o : Nat) : SlotName :=
  if o = 0 then .used n
  else if o = 8 then .sign n
  else if (o - 0x10) / 8 < p.cap then .dig n ((o - 0x10) / 8)
  else .reserved

/-- The slot at byte `o` of the 4096-byte window of `F[n]` (R63). -/
def fieldSlot (p : Params) (n : RegNum) (o : Nat) : SlotName :=
  if o / 8 < 2 * p.fbDigs then .fdig n (o / 8) else .reserved

/-- The slot at the offset `off`, a multiple of 8 (R62, R63): CSRs below `0x10000`, then sixteen integer windows, then
sixteen field windows, then nothing. -/
def slotAt (p : Params) (off : Nat) : SlotName :=
  if off < 0x10000 then csrSlot off
  else if off < 0x20000 then intSlot p (BitVec.ofNat 4 ((off - 0x10000) / 0x1000)) (off % 0x1000)
  else if off < 0x30000 then fieldSlot p (BitVec.ofNat 4 ((off - 0x20000) / 0x1000)) (off % 0x1000)
  else .reserved

/-- The value of `ID`: `VERSION` 1, `FB_BITS`, `FB_DIGS`, `CAP`, `W` (spec/10_state.md R40). -/
def idWord (p : Params) : Word :=
  (1 : BitVec 8) ++ BitVec.ofNat 16 p.fbBits ++ BitVec.ofNat 16 p.fbDigs ++ BitVec.ofNat 16 p.cap ++ BitVec.ofNat 8 p.w

namespace State

/-- The 64-bit value of a slot: a narrower field is zero-extended, a reserved slot is 0 (R62 to R65). -/
def slotValue (s : State) : SlotName → Word
  | .id => idWord s.params
  | .cmd => s.cmd.setWidth 64
  | .status => s.status.word
  | .arg => s.arg
  | .ctrl => ctrlWord s.ie
  | .used n => (s.reg n).used.setWidth 64
  | .sign n => (BitVec.ofBool (s.reg n).sign).setWidth 64
  | .dig n j => (s.reg n).dig.getD j 0
  | .fdig n j => (s.freg n).fdig.getD j 0
  | .reserved => 0

/-- The slot's register takes the written slot value `v` under its access rule (R67). `low` says that the write covers
bits `[31:0]`: only then does a write to `CMD` start a command (spec/10_state.md R41). -/
def storeSlot (s : State) (low : Bool) (v : Word) : SlotName → State
  | .id => s
  | .cmd => if low then s.accept (v.setWidth 32) else s
  | .status => { s with status := s.status.writeOneToClear v }
  | .arg => { s with arg := v }
  | .ctrl => { s with ie := v.getLsbD 0 }
  | .used n => s.setReg n { s.reg n with used := v.setWidth 16 }
  | .sign n => s.setReg n { s.reg n with sign := v.getLsbD 0 }
  | .dig n j => s.setReg n { s.reg n with dig := (s.reg n).dig.set j (lowDigit s.params.w v) }
  | .fdig n j => s.setFreg n { fdig := (s.freg n).fdig.set j (lowDigit s.params.w v) }
  | .reserved => s

end State

/-- An access of `n` bytes at `off` is accepted: 8 or 4 bytes, aligned to its size (R66, R69). -/
def accepted (off n : Nat) : Bool := (n == 8 && off % 8 == 0) || (n == 4 && off % 4 == 0)

/-- The slot that an access at `off` falls in (R66). -/
def slotOffset (off : Nat) : Nat := off - off % 8

/-- Whether an accepted access of `n` bytes at `off` covers bits `[31:0]` of its slot (R67). -/
def coversLow (off n : Nat) : Bool := n == 8 || off % 8 == 0

/-- What an accepted read of `n` bytes at `off` returns of the slot value `v` (R66). -/
def readPart (off n : Nat) (v : Word) : Reply :=
  if n = 8 then .data8 v
  else if off % 8 = 0 then .data4 (v.extractLsb' 0 32)
  else .data4 (v.extractLsb' 32 32)

/-- The written slot value of an accepted write of `n` bytes of `v` at `off` over the slot value `old` (R67). -/
def mergePart (off n : Nat) (old v : Word) : Word :=
  if n = 8 then v
  else if off % 8 = 0 then old.extractLsb' 32 32 ++ v.extractLsb' 0 32
  else v.extractLsb' 0 32 ++ old.extractLsb' 0 32

namespace State

/-- Hand `r` to the host. -/
def reply (s : State) (r : Reply) : State := { s with replies := r :: s.replies }

/-- `MemRead(off, n)` (R66, R69): while busy, a register window slot gives an unspecified value, drawn (R72(b)). -/
def memRead (s : State) (off n : Nat) : State :=
  if accepted off n then
    if s.status.busy && (slotAt s.params (slotOffset off)).inWindow then
      { s with draws := s.draws + 1 }.reply (readPart off n (Config.unspecified s.draws))
    else s.reply (readPart off n (s.slotValue (slotAt s.params (slotOffset off))))
  else s.reply .busError

/-- `MemWrite(off, n, v)` (R67, R69): while busy, a write to `CMD`, `ARG` or a register window slot is refused and sets
`HAZ` (R72(a)). -/
def memWrite (s : State) (off n : Nat) (v : Word) : State :=
  if accepted off n then
    if s.status.busy && (slotAt s.params (slotOffset off)).guarded then
      { s with status := s.status.hazarded }.reply .written
    else
      (s.storeSlot (coversLow off n) (mergePart off n (s.slotValue (slotAt s.params (slotOffset off))) v)
        (slotAt s.params (slotOffset off))).reply .written
  else s.reply .busError

/-- Byte `off` of the aperture as the idle engine shows it: byte `t` of a slot is its bits `[8t+7:8t]` (R68). -/
def byteAt (s : State) (off : Nat) : BitVec 8 :=
  (s.slotValue (slotAt s.params (slotOffset off))).extractLsb' (8 * (off % 8)) 8

/-- The offset of a host address, when it lies in the aperture `BASE` to `BASE + 0x3FFFF` (R61). -/
def offset (s : State) (addr : Nat) : Option Nat :=
  if s.params.base ≤ addr ∧ addr < s.params.base + 0x40000 then some (addr - s.params.base) else none

/-- An access of the host of `n` bytes at `addr` whose effect at its offset is `f`: an address outside the aperture is none
of the engine's (R61, R80), and one that the engine refuses with a bus error is a fault of the host's program (R69,
spec/93_implementation_defined.md I13). -/
def hostAccess (s : State) (addr n : Nat) (f : Nat → State) : Host.Outcome State Fault Refusal :=
  match s.offset addr with
  | some off => if accepted off n then .next (f off) else .fault (.busError addr n)
  | none => .fault (.outsideAperture addr)

/-- One operation of the host (spec/30_encoding.md R101). -/
def hostOp (s : State) : HostOp → Host.Outcome State Fault Refusal
  | .read addr n => s.hostAccess addr n fun off => s.memRead off n
  | .write addr n v => s.hostAccess addr n fun off => s.memWrite off n v
  | .poll =>
    if s.status.busy then .next { s.memRead 0x10 8 with host := .poll :: s.host }
    else .next (s.memRead 0x10 8)

/-- The host's turn: its next operation, if it has one. -/
def hostTurn (s : State) : Host.Outcome State Fault Refusal :=
  match s.host with
  | [] => .next s
  | op :: rest => { s with host := rest }.hostOp op

end State

end Sys2Proof.Machine
end

