-- ==== Sys2Proof/Machine/Barrett.lean ====
section
/-! DEFINITION. `BSETUP` and `BRED` (spec/42_barrett.md), with the full product as the semantics (R152). -/

namespace Sys2Proof.Machine

/-- `BSETUP`: `floor(B^(2k) / m)` with `k = diglen(m)` (R150). Its `CAPACITY` check is the commit's (R117). -/
def bsetup (w : Nat) (m : Int) : Except Err Int :=
  if m ≤ 0 then .error .invalidModulus
  else .ok (2 ^ (w * (2 * diglen w m.toNat)) / m)

/-- `while r >= m: r = r - m`, at most `fuel` times. -/
def subtractLoop (m : Nat) : Nat → Nat → Nat
  | 0, r => r
  | fuel + 1, r => if r < m then r else subtractLoop m fuel (r - m)

/-- The value `r` of step 5 for `a >= m`, before the loop of step 6 (R151, steps 1 to 5). -/
def barrettEstimate (w a m u : Nat) : Nat :=
  let k := diglen w m
  let q1 := a / 2 ^ (w * (k - 1))
  let q3 := q1 * u / 2 ^ (w * (k + 1))
  let r1 := q3 * m % 2 ^ (w * (k + 1))
  let low := a % 2 ^ (w * (k + 1))
  if low < r1 then low + 2 ^ (w * (k + 1)) - r1 else low - r1

/-- Barrett reduction of `a` by `m > 0` with the context `u` (R151). The loop of step 6 subtracts `m >= 1` each time,
so `r` passes are always enough. -/
def barrett (w a m u : Nat) : Nat :=
  if a < m then a
  else subtractLoop m (barrettEstimate w a m u) (barrettEstimate w a m u)

/-- `BRED`: the checks of R151 in order, then the reduction. -/
def bred (w : Nat) (a m u : Int) : Except Err Int :=
  if m ≤ 0 then .error .invalidModulus
  else if u < 0 then .error .operand
  else if a < 0 then .error .operand
  else if 2 * diglen w m.toNat < diglen w a.toNat then .error .operand
  else .ok (barrett w a.toNat m.toNat u.toNat)

/-- `BSETUP rd, rb` (R150). -/
def execBsetup (rd rb : RegNum) (s : State) : Host.Outcome State Fault Refusal :=
  .next (s.finishInt [rb] rd (bsetup s.params.w (s.val rb)))

/-- `BRED rd, ra, rb, rc` (R151). -/
def execBred (rd ra rb rc : RegNum) (s : State) : Host.Outcome State Fault Refusal :=
  .next (s.finishInt [ra, rb, rc] rd (bred s.params.w (s.val ra) (s.val rb) (s.val rc)))

end Sys2Proof.Machine
end

