-- ==== Sys2Proof/Machine/Field.lean ====
section
/-! DEFINITION. The binary field comb multiplier: `FMUL1`, `FMULF` and `FMULR` (spec/45_binary_field.md). A field
command makes no operand check and raises no error of its own (R210). -/

namespace Sys2Proof.Machine

/-- The accumulator of `FMUL1` after the bits `i`, ..., 0 of the digit, from the accumulator before them: add `fa`
where the bit is set, and shift up by one but after bit 0 (R211). -/
def mulDigitLoop (fa dg : Nat) : Nat → Nat → Nat
  | 0, acc => if dg.testBit 0 then acc ^^^ fa else acc
  | i + 1, acc => mulDigitLoop fa dg i ((if dg.testBit (i + 1) then acc ^^^ fa else acc) <<< 1)

/-- `FMUL1`: the product of an element and one digit of `w` bits, bits from high to low (R211). -/
def fmul1 (w fa dg : Nat) : Nat := mulDigitLoop fa dg (w - 1) 0

/-- `FMULF`: the carry-less product (R214). -/
def fmulf (fa fb : Nat) : Nat := clmul fa fb

/-- `FMULR`: the carry-less product reduced by `FB_POLY` (R216). -/
def fmulr (p : Params) (fa fb : Nat) : Nat := pmod (clmul fa fb) p.fbPoly

/-- `FMUL1 fd, fa, fb` (R211). -/
def execFmul1 (rd ra rb : RegNum) (s : State) : Host.Outcome State Fault Refusal :=
  .next (s.commitField rd (fmul1 s.params.w (s.elem ra) (s.fdigit0 rb)))

/-- `FMULF fd, fa, fb` (R214). -/
def execFmulf (rd ra rb : RegNum) (s : State) : Host.Outcome State Fault Refusal :=
  .next (s.commitField rd (fmulf (s.elem ra) (s.elem rb)))

/-- `FMULR fd, fa, fb` (R216). -/
def execFmulr (rd ra rb : RegNum) (s : State) : Host.Outcome State Fault Refusal :=
  .next (s.commitField rd (fmulr s.params (s.elem ra) (s.elem rb)))

end Sys2Proof.Machine
end

