-- ==== Sys2Proof/Machine/Montgomery.lean ====
section
/-! DEFINITION. `MSETUP`, `MRED`, `MTO` and `MFROM` (spec/43_montgomery.md), with REDC (R171) as the one Montgomery
reduction that `MRED` and `MFROM` share. -/

namespace Sys2Proof.Machine

/-- The number `x < 2^n` built bit by bit with `(x * m0) mod 2^n = 2^n - 1`, for odd `m0`: bit `i` is set when it is
needed to carry the run of ones on. -/
def negInvBits (m0 : Nat) : Nat → Nat
  | 0 => 0
  | n + 1 =>
    let x := negInvBits m0 n
    if (x * m0 + 1).testBit n then x + 2 ^ n else x

/-- The unique `u0` with `0 <= u0 < B` and `(u0 * digit_0(m)) mod B = B - 1`, for odd `m` (R170). -/
def montContext (w m : Nat) : Nat := negInvBits (digit w m 0) w

/-- `MSETUP`: the context of an odd `m > 0` (R170). -/
def msetup (w : Nat) (m : Int) : Except Err Int :=
  if m ≤ 0 then .error .invalidModulus
  else if m % 2 = 0 then .error .invalidModulus
  else .ok (montContext w m.toNat)

/-- The accumulator of REDC after `i` passes (R171): pass `i` adds `r * m * B^i` with `r` from digit `i` of the
running accumulator. -/
def redcPasses (w m u0 a : Nat) : Nat → Nat
  | 0 => a
  | i + 1 =>
    let acc := redcPasses w m u0 a i
    acc + digit w acc i * u0 % 2 ^ w * m * 2 ^ (w * i)

/-- The single conditional correction, and `RANGE` (`none`) when it does not reach `[0, m)` (R171). -/
def redcCorrect (m t : Nat) : Option Nat :=
  let t' := if m ≤ t then t - m else t
  if m ≤ t' then none else some t'

/-- `REDC(a, m, u0)`, `none` for `RANGE` (R171). -/
def redc (w a m u0 : Nat) : Option Nat :=
  redcCorrect m (redcPasses w m u0 a (diglen w m) / 2 ^ (w * diglen w m))

/-- The result of REDC, or its error. -/
def redcResult (w a m u0 : Nat) : Except Err Int :=
  match redc w a m u0 with
  | none => .error .range
  | some t => .ok t

/-- `MRED`: the checks of R172 in order, then REDC with the digit in the context register. -/
def mred (w : Nat) (a m : Int) (context : IntReg) : Except Err Int :=
  if m ≤ 0 then .error .invalidModulus
  else
    match context.oneDigit with
    | none => .error .operand
    | some u0 =>
      if a < 0 then .error .operand
      else if 2 * diglen w m.toNat < diglen w a.toNat then .error .operand
      else redcResult w a.toNat m.toNat u0

/-- `MTO`: `(a * B^k) mod m` (R173). -/
def mto (w : Nat) (a m : Int) : Except Err Int :=
  if m ≤ 0 then .error .invalidModulus
  else .ok (a * 2 ^ (w * diglen w m.toNat) % m)

/-- `MFROM`: the checks of R174 in order, then REDC with the context of `m`. -/
def mfrom (w : Nat) (a m : Int) : Except Err Int :=
  if m ≤ 0 then .error .invalidModulus
  else if m % 2 = 0 then .error .invalidModulus
  else if a < 0 then .error .operand
  else if 2 * diglen w m.toNat < diglen w a.toNat then .error .operand
  else redcResult w a.toNat m.toNat (montContext w m.toNat)

/-- `MSETUP rd, rb` (R170). -/
def execMsetup (rd rb : RegNum) (s : State) : Host.Outcome State Fault Refusal :=
  .next (s.finishInt [rb] rd (msetup s.params.w (s.val rb)))

/-- `MTO rd, ra, rb` (R173). -/
def execMto (rd ra rb : RegNum) (s : State) : Host.Outcome State Fault Refusal :=
  .next (s.finishInt [ra, rb] rd (mto s.params.w (s.val ra) (s.val rb)))

/-- `MFROM rd, ra, rb` (R174). -/
def execMfrom (rd ra rb : RegNum) (s : State) : Host.Outcome State Fault Refusal :=
  .next (s.finishInt [ra, rb] rd (mfrom s.params.w (s.val ra) (s.val rb)))

/-- `MRED rd, ra, rb, rc` (R172). -/
def execMred (rd ra rb rc : RegNum) (s : State) : Host.Outcome State Fault Refusal :=
  .next (s.finishInt [ra, rb, rc] rd (mred s.params.w (s.val ra) (s.val rb) (s.reg rc)))

end Sys2Proof.Machine
end

