-- ==== Sys2Proof/Machine/Radix.lean ====
section
/-! DEFINITION. `RCHK`, `RSETUP` and `RRED` (spec/44_radix.md). -/

namespace Sys2Proof.Machine

/-- The radix shape of a natural number: positive, and one digit long, or with a nonzero digit 0, all-ones digits
between, and a top digit all ones up to its own top bit (R190). -/
def radixShapeNat (w m : Nat) : Bool :=
  let k := diglen w m
  let top := digit w m (k - 1)
  k == 1 ||
    (decide (2 ≤ k) && digit w m 0 != 0 && ((List.range (k - 2)).all fun j => digit w m (j + 1) == 2 ^ w - 1) &&
      top == 2 ^ bitlen top - 1)

/-- The radix shape: `m > 0` and the shape of its digits (R190). -/
def radixShape (w : Nat) (m : Int) : Bool := decide (0 < m) && radixShapeNat w m.toNat

/-- `RCHK`: 1 for the radix shape, else 0; no `m` is an error (R191). -/
def rchk (w : Nat) (m : Int) : Int := if radixShape w m then 1 else 0

/-- `RSETUP`: `2^bits - m` for an `m` of radix shape (R193). -/
def rsetup (w : Nat) (m : Int) : Except Err Int :=
  if m ≤ 0 then .error .invalidModulus
  else if radixShape w m then .ok (2 ^ bitlen m.toNat - m)
  else .error .invalidModulus

/-- The folding loop, at most `fuel` passes: fold the part above `bits` back with factor `c`, subtract `m` once if the
value is still `>= m`, and stop after the first pass that subtracts nothing (R195). -/
def foldLoop (bits m c : Nat) : Nat → Nat → Nat
  | 0, v => v
  | fuel + 1, v =>
    let t := v % 2 ^ bits + v / 2 ^ bits * c
    if m ≤ t then foldLoop bits m c fuel (t - m) else t

/-- Radix reduction. Every pass but the last makes the value smaller, so `a + 1` passes are enough (R196). -/
def radixReduce (a m c : Nat) : Nat := foldLoop (bitlen m) m c (a + 1) a

/-- `RRED`: the checks of R195 in order, then the loop with the digit in the context register. -/
def rred (a m : Int) (context : IntReg) : Except Err Int :=
  if m ≤ 0 then .error .invalidModulus
  else
    match context.oneDigit with
    | none => .error .operand
    | some c =>
      if 2 ^ bitlen m.toNat ≤ c then .error .operand
      else if a < 0 then .error .operand
      else .ok (radixReduce a.toNat m.toNat c)

/-- `RCHK rd, rb` (R191). -/
def execRchk (rd rb : RegNum) (s : State) : Host.Outcome State Fault Refusal :=
  .next (s.finishInt [rb] rd (.ok (rchk s.params.w (s.val rb))))

/-- `RSETUP rd, rb` (R193). -/
def execRsetup (rd rb : RegNum) (s : State) : Host.Outcome State Fault Refusal :=
  .next (s.finishInt [rb] rd (rsetup s.params.w (s.val rb)))

/-- `RRED rd, ra, rb, rc` (R195). -/
def execRred (rd ra rb rc : RegNum) (s : State) : Host.Outcome State Fault Refusal :=
  .next (s.finishInt [ra, rb, rc] rd (rred (s.val ra) (s.val rb) (s.reg rc)))

end Sys2Proof.Machine
end

