-- ==== Sys2Proof/Machine/Truncation.lean ====
section
/-! DEFINITION. `MOD2B`, `MODDIG` and `MODBASIC` (spec/41_truncation_division.md). Each rule is a function of its
operand values that answers the result or the error of its own checks; each meaning reads the operands of its command
and ends it. -/

namespace Sys2Proof.Machine

/-- The magnitude with the digits above the one that contains bit `b` dropped and that digit masked to its low
`b mod W` bits (R130; the low `t` digits of `x` are `x mod B^t`). -/
def truncate (w x b : Nat) : Nat :=
  x % 2 ^ (w * (b / w)) + digit w x (b / w) % 2 ^ (b % w) * 2 ^ (w * (b / w))

/-- `MOD2B`: truncation of `a` to `b` bits, the sign kept, zero positive (R130). -/
def mod2b (w : Nat) (a b : Int) : Int :=
  if b ≤ 0 then 0
  else if (bitlen a.natAbs : Int) ≤ b then a
  else if a < 0 then -(truncate w a.natAbs b.toNat : Int) else truncate w a.natAbs b.toNat

/-- `MODDIG`: the Euclidean remainder of `a` by the digit in the divisor register (R131). -/
def moddig (a : Int) (divisor : IntReg) : Except Err Int :=
  match divisor.oneDigit with
  | none => .error .operand
  | some d => if d = 0 then .error .divisionByZero else .ok (a % d)

/-- `MODBASIC`: the Euclidean remainder of `a` by `m > 0` (R132). -/
def modbasic (a m : Int) : Except Err Int :=
  if m = 0 then .error .divisionByZero
  else if m < 0 then .error .invalidModulus
  else .ok (a % m)

/-- `MOD2B rd, ra` (R130). -/
def execMod2b (rd ra : RegNum) (s : State) : Host.Outcome State Fault Refusal :=
  .next (s.finishInt [ra] rd (.ok (mod2b s.params.w (s.val ra) s.bitCount)))

/-- `MODDIG rd, ra, rb` (R131). -/
def execModdig (rd ra rb : RegNum) (s : State) : Host.Outcome State Fault Refusal :=
  .next (s.finishInt [ra, rb] rd (moddig (s.val ra) (s.reg rb)))

/-- `MODBASIC rd, ra, rb` (R132). -/
def execModbasic (rd ra rb : RegNum) (s : State) : Host.Outcome State Fault Refusal :=
  .next (s.finishInt [ra, rb] rd (modbasic (s.val ra) (s.val rb)))

end Sys2Proof.Machine
end

