-- ==== Sys2Proof/Machine/Dispatch.lean ====
section
/-! DEFINITION. The meaning of each command, one arm per constructor: what its completion does
(spec/40_command_execution.md R111 to R117). -/

namespace Sys2Proof.Machine

def exec (i : Instr) (s : State) : Host.Outcome State Fault Refusal :=
  match i with
  | .mod2b rd ra => Sys2Proof.Machine.execMod2b rd ra s
  | .moddig rd ra rb => Sys2Proof.Machine.execModdig rd ra rb s
  | .modbasic rd ra rb => Sys2Proof.Machine.execModbasic rd ra rb s
  | .bsetup rd rb => Sys2Proof.Machine.execBsetup rd rb s
  | .bred rd ra rb rc => Sys2Proof.Machine.execBred rd ra rb rc s
  | .msetup rd rb => Sys2Proof.Machine.execMsetup rd rb s
  | .mto rd ra rb => Sys2Proof.Machine.execMto rd ra rb s
  | .mfrom rd ra rb => Sys2Proof.Machine.execMfrom rd ra rb s
  | .mred rd ra rb rc => Sys2Proof.Machine.execMred rd ra rb rc s
  | .rchk rd rb => Sys2Proof.Machine.execRchk rd rb s
  | .rsetup rd rb => Sys2Proof.Machine.execRsetup rd rb s
  | .rred rd ra rb rc => Sys2Proof.Machine.execRred rd ra rb rc s
  | .fmul1 rd ra rb => Sys2Proof.Machine.execFmul1 rd ra rb s
  | .fmulf rd ra rb => Sys2Proof.Machine.execFmulf rd ra rb s
  | .fmulr rd ra rb => Sys2Proof.Machine.execFmulr rd ra rb s

end Sys2Proof.Machine
end

