-- ==== Sys2Proof/Machine/Engine.lean ====
section
/-! DEFINITION. The engine's own step, the completion of the accepted command (spec/40_command_execution.md R111,
R112), the reset event (spec/70_reset_and_hazards.md R260, R261), and who moves next (spec/20_memory.md R73). -/

namespace Sys2Proof.Machine

namespace State

/-- The completion of the accepted command: decode `CMD[31:0]` (R112), then the command's meaning, or `ILLEGAL`. -/
def completion (s : State) : Host.Outcome State Fault Refusal :=
  match decode s.cmd with
  | .ok i => exec i s
  | .error _ => .next (s.raise .illegal)

/-- The engine's turn: its completion, enabled exactly while `BUSY = 1` (R111); idle, it keeps all state
(spec/60_exceptions.md R254). -/
def engineTurn (s : State) : Host.Outcome State Fault Refusal :=
  if s.status.busy then s.completion else .next s

/-- The reset event (R260, R261): every piece of the engine's state takes its reset value, the digits become
unspecified, a command in flight is abandoned. What the host has done and will do is not the engine's. -/
def resetEvent (s : State) : State :=
  { State.afterReset s.params s.draws with host := s.host, turns := s.turns, replies := s.replies }

/-- Who moves next: the first of `turns`; when it is empty, the engine while busy, so that every accepted command is
completed (R111), else the host. -/
def nextTurn (s : State) : Turn :=
  match s.turns with
  | t :: _ => t
  | [] => if s.status.busy then .engine else .host

/-- The state with the first of `turns` taken. -/
def popTurn (s : State) : State := { s with turns := s.turns.tail }

/-- One turn. -/
def takeTurn (s : State) : Turn → Host.Outcome State Fault Refusal
  | .host => s.hostTurn
  | .engine => s.engineTurn
  | .reset => .next s.resetEvent

/-- The accepted word `w` as the command in flight, the engine to move next: what a `CMD` write and the engine's turn
take, without the host's part in it. -/
def withCommand (s : State) (w : CmdWord) : State := { s.accept w with turns := .engine :: s.turns }

end State

end Sys2Proof.Machine
end

