-- ==== Sys2Proof/Machine/Step.lean ====
section
/-! DEFINITION. One step of the machine: one host access, one command completion or one reset, each whole, in one
total order (spec/20_memory.md R73). -/

namespace Sys2Proof.Machine

/-- One step: the agent whose turn it is moves. -/
def step (s : State) : Host.Outcome State Fault Refusal := s.popTurn.takeTurn s.nextTurn

/-- `s` with the table word `w` of `nbits` bits as its command in flight (notes/assumptions/6.md): the engine fetches
nothing (spec/10_state.md R46), so a command runs because it was accepted and the engine's turn has come. -/
def State.withFetchWord (s : State) (nbits w : Nat) : State := s.withCommand (BitVec.ofNat 32 (w % 2 ^ nbits))

end Sys2Proof.Machine
end

