-- ==== Sys2Proof/Machine/HostProgram.lean ====
section
/-! DEFINITION. The host operations and pseudo-instructions that host programs are written with
(spec/30_encoding.md R101), as lists of the operations that `State.host` holds. -/

namespace Sys2Proof.Machine

/-- `w64 off, v`. -/
def w64 (p : Params) (off : Nat) (v : Word) : HostOp := .write (p.base + off) 8 v

/-- `w32 off, v`. -/
def w32 (p : Params) (off : Nat) (v : BitVec 32) : HostOp := .write (p.base + off) 4 (v.setWidth 64)

/-- `r64 off -> name`: the value is the newest entry of `State.replies` after it. -/
def r64 (p : Params) (off : Nat) : HostOp := .read (p.base + off) 8

/-- `ldi rN, v`: the digits from digit 0, then `SIGN`, then `USED`. -/
def ldi (p : Params) (n : RegNum) (v : Int) : List HostOp :=
  (List.range (diglen p.w v.natAbs)).map
      (fun j => w64 p (0x10000 + 0x1000 * n.toNat + 0x10 + 8 * j) (BitVec.ofNat 64 (digit p.w v.natAbs j))) ++
    [w64 p (0x10000 + 0x1000 * n.toNat + 0x8) (if v < 0 then 1 else 0),
     w64 p (0x10000 + 0x1000 * n.toNat) (BitVec.ofNat 64 (diglen p.w v.natAbs))]

/-- `ldf fN, p`: all `2*FB_DIGS` digits from digit 0. -/
def ldf (p : Params) (n : RegNum) (x : Nat) : List HostOp :=
  (List.range (2 * p.fbDigs)).map
    fun j => w64 p (0x20000 + 0x1000 * n.toNat + 8 * j) (BitVec.ofNat 64 (digit p.w x j))

/-- `setarg v`: `ARG` takes `v mod 2^64`. -/
def setarg (p : Params) (v : Int) : HostOp := w64 p 0x18 (BitVec.ofInt 64 v)

/-- `cmd <command>`. -/
def cmdOp (p : Params) (i : Instr) : HostOp := w32 p 0x8 (encode i)

/-- `run <command>`: the command, then `poll`. -/
def runOp (p : Params) (i : Instr) : List HostOp := [cmdOp p i, .poll]

end Sys2Proof.Machine
end

