-- ==== Sys2Proof/Machine/Realizations.lean ====
section
/-! DEFINITION. How an engine may compute what the rules say: the comb of the field multiplier
(spec/45_binary_field.md R212, R213), the Newton iteration of the Montgomery context (spec/43_montgomery.md R170) and
the fused Montgomery reduction (R175). No meaning calls them; that each gives the same result as its rule is a claim. -/

namespace Sys2Proof.Machine

/-- Row `v` of the comb table: the XOR of `b << t` over the bits `t < 4` of `v` (R212). -/
def combRow (b v : Nat) : Nat :=
  (if v.testBit 0 then b else 0) ^^^ (if v.testBit 1 then b <<< 1 else 0) ^^^ (if v.testBit 2 then b <<< 2 else 0) ^^^
    (if v.testBit 3 then b <<< 3 else 0)

/-- One pass over the digits 0 to `n - 1` of `a` at nibble `j`: the row of each nibble is added at its digit
(R213). -/
def combPass (w a b j : Nat) : Nat → Nat → Nat
  | 0, acc => acc
  | n + 1, acc => combPass w a b j n acc ^^^ (combRow b (digit w a n >>> (4 * j) % 16) <<< (n * w))

/-- The comb loop over the nibbles `j`, ..., 0, with a shift by four after each but the last (R213). -/
def combLoop (w n a b : Nat) : Nat → Nat → Nat
  | 0, acc => combPass w a b 0 n acc
  | j + 1, acc => combLoop w n a b j (combPass w a b (j + 1) n acc <<< 4)

/-- The comb product of two elements of `n` digits (R213). -/
def combMul (w n a b : Nat) : Nat := combLoop w n a b (w / 4 - 1) 0

/-- One Newton step modulo `2^w`: `x ← x * (2 - m0 * x)` (R170). -/
def newtonStep (w m0 x : Nat) : Nat := ((x : Int) * (2 - m0 * x) % 2 ^ w).toNat

/-- `n` Newton steps. -/
def newtonSteps (w m0 : Nat) : Nat → Nat → Nat
  | 0, x => x
  | n + 1, x => newtonSteps w m0 n (newtonStep w m0 x)

/-- The Montgomery context by Hensel lifting from a 4-bit-correct inverse `x` of `m0`: `log2(W/4)` Newton steps, then
the negation `u0 = B - x` (R170). -/
def newtonContext (w m0 x : Nat) : Nat := 2 ^ w - newtonSteps w m0 (w / 4).log2 x

/-- What the fused Montgomery reduction carries from column to column: the digits `q_0`, `q_1`, ... found so far, the
accumulator, and the digits emitted above column `k` as a number (R175). -/
structure FusedState where
  q : List Nat
  acc : Nat
  out : Nat
deriving DecidableEq, Repr

/-- The products `q_j * digit_(c-j)(m)` with `j < c`, `j < k` and `c - j < k`, summed over `j < n` (R175). -/
def fusedProducts (w m k c : Nat) (q : List Nat) : Nat → Nat
  | 0 => 0
  | n + 1 =>
    fusedProducts w m k c q n + (if n < c ∧ n < k ∧ c - n < k then q.getD n 0 * digit w m (c - n) else 0)

/-- Column `c` of the fused reduction (R175). -/
def fusedColumn (w a m u0 k c : Nat) (f : FusedState) : FusedState :=
  let acc := f.acc + digit w a c + fusedProducts w m k c f.q k
  if c < k then
    let qc := acc % 2 ^ w * u0 % 2 ^ w
    { q := f.q ++ [qc], acc := (acc + qc * digit w m 0) / 2 ^ w, out := f.out }
  else { q := f.q, acc := acc / 2 ^ w, out := f.out + acc % 2 ^ w * 2 ^ (w * (c - k)) }

/-- The columns 0 to `c - 1` (R175). -/
def fusedColumns (w a m u0 k : Nat) : Nat → FusedState
  | 0 => { q := [], acc := 0, out := 0 }
  | c + 1 => fusedColumn w a m u0 k c (fusedColumns w a m u0 k c)

/-- The fused Montgomery reduction: columns 0 to `2k - 1`, the final carry at position `k`, then the correction
(R175). -/
def fusedRedc (w a m u0 : Nat) : Option Nat :=
  let k := diglen w m
  let f := fusedColumns w a m u0 k (2 * k)
  redcCorrect m (f.out + f.acc * 2 ^ (w * k))

end Sys2Proof.Machine
end

