-- ==== Sys2Proof/WellFormed.lean ====
section
/-! DEFINITION. Well-formedness: of the fields of a command word (spec/30_encoding.md R93, R96), of an instruction,
and of the parameters an engine may be built with (spec/00_scope.md R4 to R8, R11). Register numbers are 4-bit words,
so an out-of-range operand cannot be written at all. -/

namespace Sys2Proof

/-- Which of the register fields RA, RB, RC an opcode uses (R95, column "fields"; RD is always used). `none` for a
reserved opcode (R96). -/
def usedFields (opc : BitVec 6) : Option (Bool × Bool × Bool) :=
  match opc.toNat with
  | 0x01 => some (true, false, false)
  | 0x02 | 0x03 | 0x07 | 0x08 => some (true, true, false)
  | 0x04 | 0x06 | 0x0A | 0x0B => some (false, true, false)
  | 0x05 | 0x09 | 0x0C => some (true, true, true)
  | 0x10 | 0x11 | 0x12 => some (true, true, false)
  | _ => none

namespace Fields

/-- Check 1: the opcode is listed in the opcode map (R96). -/
def opcodeListed (f : Fields) : Bool := (usedFields f.opc).isSome

/-- Check 2: every field the command does not use is 0 (R93). -/
def unusedZero (f : Fields) : Bool :=
  match usedFields f.opc with
  | some (a, b, c) => (a || f.ra == 0) && (b || f.rb == 0) && (c || f.rc == 0)
  | none => true

/-- Check 3: the reserved field is 0 (R93). -/
def reservedZero (f : Fields) : Bool := f.rsv == 0

/-- The fields spell a command: the three checks of R93 and R96. -/
def wellFormed (f : Fields) : Bool := f.opcodeListed && f.unusedZero && f.reservedZero

end Fields

/-- An instruction is well formed when its fields are (R93). -/
def Instr.wellFormed (i : Instr) : Bool := i.fields.wellFormed

/-- The parameters an engine may be built with: `1 <= CAP <= 510` (R5), `FB_BITS >= 1` (R6), `FB_DIGS <= 256` (R7),
`FB_POLY` of degree exactly `FB_BITS` (R8), `BASE` a multiple of `0x40000` (R11). `W` is legal by its type (R4), and
`FB_BITS < 65536` (spec/10_state.md R40) follows. -/
abbrev Params.Ok (p : Params) : Prop :=
  (1 ≤ p.cap ∧ p.cap ≤ 510) ∧ 1 ≤ p.fbBits ∧ p.fbDigs ≤ 256 ∧
    (2 ^ p.fbBits ≤ p.fbPoly ∧ p.fbPoly < 2 ^ (p.fbBits + 1)) ∧ p.base % 0x40000 = 0

end Sys2Proof
end

