-- ==== Sys2Proof/Safety.lean ====
section
/-! DEFINITION. What the claims are said in: the invariant of the state, what it is for a command to write its
destination or to raise an error, and the preconditions the host owes the reduce commands
(spec/70_reset_and_hazards.md R272). -/

namespace Sys2Proof.Machine

/-- An integer register has `CAP` digits, each below `2^W` (spec/10_state.md R31). -/
abbrev IntReg.Wf (p : Params) (r : IntReg) : Prop := r.dig.length = p.cap ∧ ∀ d ∈ r.dig, d.toNat < 2 ^ p.w

/-- A field register has `2*FB_DIGS` digits, each below `2^W` (R35). -/
abbrev FieldReg.Wf (p : Params) (f : FieldReg) : Prop :=
  f.fdig.length = 2 * p.fbDigs ∧ ∀ d ∈ f.fdig, d.toNat < 2 ^ p.w

/-- The state is one that the hardware can hold: legal parameters, registers of the right shape. -/
abbrev State.Wf (s : State) : Prop :=
  s.params.Ok ∧ (∀ i : Fin 16, (s.regs[i]).Wf s.params) ∧ ∀ i : Fin 16, (s.fregs[i]).Wf s.params

/-- The invariant of the machine: a state the hardware can hold, with `BUSY` and `DONE` never both 1 (R110, R116,
R117). -/
abbrev State.Inv (s : State) : Prop := s.Wf ∧ ¬(s.status.busy = true ∧ s.status.done = true)

/-- Everything but the two register files and `STATUS` is as it was, and so is `HAZ` (spec/40_command_execution.md
R122). -/
abbrev SameAround (s t : State) : Prop :=
  t.params = s.params ∧ t.cmd = s.cmd ∧ t.arg = s.arg ∧ t.ie = s.ie ∧ t.status.haz = s.status.haz ∧ t.host = s.host ∧
    t.turns = s.turns ∧ t.replies = s.replies ∧ t.draws = s.draws

/-- The flags after a completion with code `e`: `BUSY` 0, `DONE` 1, `ERR` `e`; the rest of the control state is as it
was (R116, R117, R122). -/
abbrev Completes (s t : State) (e : Err) : Prop :=
  t.status.busy = false ∧ t.status.done = true ∧ t.status.err = e ∧ SameAround s t

/-- `t` is `s` after a command that raised `e`: no register is written (R116). -/
abbrev Raised (s : State) (e : Err) (t : State) : Prop := t.regs = s.regs ∧ t.fregs = s.fregs ∧ Completes s t e

/-- `t` is `s` after a command that wrote the integer `v` to `R[rd]`: the register is canonical, holds `v`, its digits
above `USED` are 0, and nothing else is written (R117, spec/10_state.md R34). -/
abbrev WroteInt (s : State) (rd : RegNum) (v : Int) (t : State) : Prop :=
  t.val rd = v ∧ t.canonical rd = true ∧ (∀ j, (t.reg rd).used.toNat ≤ j → (t.reg rd).dig.getD j 0 = 0) ∧
    (∀ n, n ≠ rd → t.reg n = s.reg n) ∧ t.fregs = s.fregs ∧ Completes s t .ok

/-- `t` is `s` after a command that wrote the polynomial `x` to `F[rd]`: all `2*FB_DIGS` digits together are `x`, and
nothing else is written (R117, spec/10_state.md R37). -/
abbrev WroteField (s : State) (rd : RegNum) (x : Nat) (t : State) : Prop :=
  t.product rd = x ∧ (∀ n, n ≠ rd → t.freg n = s.freg n) ∧ t.regs = s.regs ∧ Completes s t .ok

/-- A step's outcome is a next state, and it satisfies `P`. -/
def Ends (o : Host.Outcome State Fault Refusal) (P : State → Prop) : Prop := ∃ t, o = .next t ∧ P t

/-- `u` is the Barrett context of `m` (spec/42_barrett.md R150, R272). -/
def IsBarrettContext (w : Nat) (m u : Int) : Prop := 0 < m ∧ u = 2 ^ (w * (2 * diglen w m.toNat)) / m

/-- `u0` is the Montgomery context of `m` (spec/43_montgomery.md R170, R272). -/
def IsMontgomeryContext (w : Nat) (m u0 : Int) : Prop :=
  0 < m ∧ m % 2 = 1 ∧ 0 ≤ u0 ∧ u0 < 2 ^ w ∧ u0 * digit w m.toNat 0 % 2 ^ w = 2 ^ w - 1

/-- `c` is the radix context of `m` (spec/44_radix.md R193, R272). -/
def IsRadixContext (m c : Int) : Prop := 0 < m ∧ c = 2 ^ bitlen m.toNat - m

/-- The radix shape, digit by digit (spec/44_radix.md R190). -/
def HasRadixShape (w : Nat) (m : Int) : Prop :=
  0 < m ∧
    (diglen w m.toNat = 1 ∨
      (2 ≤ diglen w m.toNat ∧ digit w m.toNat 0 ≠ 0 ∧
        (∀ j, 1 ≤ j → j + 2 ≤ diglen w m.toNat → digit w m.toNat j = 2 ^ w - 1) ∧
        digit w m.toNat (diglen w m.toNat - 1) = 2 ^ bitlen (digit w m.toNat (diglen w m.toNat - 1)) - 1))

/-- One pass of the folding loop before its subtraction: the part above `bits` folded back with factor `c`
(spec/44_radix.md R195). -/
def foldOnce (bits c v : Nat) : Nat := v % 2 ^ bits + v / 2 ^ bits * c

/-- Two states agree on all that the command `i` reads: the parameters, its source registers, of field registers the
low digits read, and `ARG` for `MOD2B` (spec/40_command_execution.md R114, R119). -/
def SameInputs (s t : State) : Instr → Prop
  | .mod2b _ a => s.params = t.params ∧ s.reg a = t.reg a ∧ s.arg = t.arg
  | .moddig _ a b => s.params = t.params ∧ s.reg a = t.reg a ∧ s.reg b = t.reg b
  | .modbasic _ a b => s.params = t.params ∧ s.reg a = t.reg a ∧ s.reg b = t.reg b
  | .bsetup _ b => s.params = t.params ∧ s.reg b = t.reg b
  | .bred _ a b c => s.params = t.params ∧ s.reg a = t.reg a ∧ s.reg b = t.reg b ∧ s.reg c = t.reg c
  | .msetup _ b => s.params = t.params ∧ s.reg b = t.reg b
  | .mto _ a b => s.params = t.params ∧ s.reg a = t.reg a ∧ s.reg b = t.reg b
  | .mfrom _ a b => s.params = t.params ∧ s.reg a = t.reg a ∧ s.reg b = t.reg b
  | .mred _ a b c => s.params = t.params ∧ s.reg a = t.reg a ∧ s.reg b = t.reg b ∧ s.reg c = t.reg c
  | .rchk _ b => s.params = t.params ∧ s.reg b = t.reg b
  | .rsetup _ b => s.params = t.params ∧ s.reg b = t.reg b
  | .rred _ a b c => s.params = t.params ∧ s.reg a = t.reg a ∧ s.reg b = t.reg b ∧ s.reg c = t.reg c
  | .fmul1 _ a b => s.params = t.params ∧ s.elem a = t.elem a ∧ s.fdigit0 b = t.fdigit0 b
  | .fmulf _ a b => s.params = t.params ∧ s.elem a = t.elem a ∧ s.elem b = t.elem b
  | .fmulr _ a b => s.params = t.params ∧ s.elem a = t.elem a ∧ s.elem b = t.elem b

/-- The slot offsets of the register windows, the reserved ones left out (spec/20_memory.md R63). -/
def WindowOffset (p : Params) (off : Nat) : Prop :=
  ∃ n : RegNum,
    off = 0x10000 + 0x1000 * n.toNat ∨ off = 0x10000 + 0x1000 * n.toNat + 0x8 ∨
      (∃ j, j < p.cap ∧ off = 0x10000 + 0x1000 * n.toNat + 0x10 + 8 * j) ∨
      ∃ j, j < 2 * p.fbDigs ∧ off = 0x20000 + 0x1000 * n.toNat + 8 * j

/-- The slot offsets of the five CSRs (R62). -/
def CsrOffset (off : Nat) : Prop := off = 0x0 ∨ off = 0x8 ∨ off = 0x10 ∨ off = 0x18 ∨ off = 0x20

/-- The reserved slot offsets of the aperture (R62, R63). -/
def ReservedOffset (p : Params) (off : Nat) : Prop :=
  off % 8 = 0 ∧
    ((0x28 ≤ off ∧ off < 0x10000) ∨
      (∃ n : RegNum, ∃ j, p.cap ≤ j ∧ j < 510 ∧ off = 0x10000 + 0x1000 * n.toNat + 0x10 + 8 * j) ∨
      (∃ n : RegNum, ∃ j, 2 * p.fbDigs ≤ j ∧ j < 512 ∧ off = 0x20000 + 0x1000 * n.toNat + 8 * j) ∨
      (0x30000 ≤ off ∧ off < 0x40000))

/-- It is the host's turn, and its next operation is an accepted write of `n` bytes of `v` at offset `off`
(spec/20_memory.md R67, R73). -/
def HostWrites (s : State) (off n : Nat) (v : Word) : Prop :=
  s.nextTurn = .host ∧ s.host.head? = some (.write (s.params.base + off) n v) ∧ off < 0x40000 ∧ accepted off n = true

/-- The step is the acceptance of a command: a write that covers `CMD[31:0]` while idle (R67, spec/10_state.md R41,
spec/40_command_execution.md R110). -/
def AcceptsCommand (s : State) : Prop := s.status.busy = false ∧ ∃ n v, HostWrites s 0x8 n v

/-- The step is a write that is refused because the engine is busy: to `CMD`, `ARG` or a register window slot
(R72(a)). -/
def RefusesWrite (s : State) : Prop :=
  s.status.busy = true ∧ ∃ off n v, HostWrites s off n v ∧
    (off - off % 8 = 0x8 ∨ off - off % 8 = 0x18 ∨ WindowOffset s.params (off - off % 8))

/-- The step writes 1 to bit `b` of `STATUS`: by the value written, or, at the upper half of the slot, by the slot's own
lower half, which holds 1 where the bit is set (spec/10_state.md R42, R67, notes/assumptions/8.md). -/
def WritesStatusOne (s : State) (b : Nat) : Prop :=
  (∃ n v, HostWrites s 0x10 n v ∧ v.getLsbD b = true) ∨ ∃ v, HostWrites s 0x14 4 v

end Sys2Proof.Machine
end

