-- ==== Sys2Proof/Certificates/Slice0/Obligations.lean ====
section
/-! DEFINITION. The statements for the provers. -/

open Sys2Proof
open Sys2Proof.Machine

/-! Encoding. -/

/-- The words of spec/95_test_vectors.md section 2.2 decode to the commands they stand for. -/
def Obligations.EncodedExamplesDecode : Prop :=
  decode 0x00000841 = .ok (.mod2b 1 2) ∧ decode 0x0000C842 = .ok (.moddig 1 2 3) ∧
  decode 0x0000C104 = .ok (.bsetup 4 3) ∧ decode 0x0010C945 = .ok (.bred 5 2 3 4) ∧
  decode 0x0010C949 = .ok (.mred 5 2 3 4) ∧ decode 0x0000C10A = .ok (.rchk 4 3) ∧
  decode 0x00004090 = .ok (.fmul1 2 0 1) ∧ decode 0x00037BD2 = .ok (.fmulr 15 14 13)

/-- Decoding the encoding of any command gives it back, every operand at every value (R91, R95, R100). -/
def Obligations.DecodeOfEncode : Prop := ∀ i : Instr, decode (encode i) = .ok i

/-- R94: a word is legal exactly when a row of the opcode map matches it, it denotes that row's command with the
fields read from it, no two rows match one word, and a word that matches no row completes with `ILLEGAL`. -/
def Obligations.DecoderFollowsTheOpcodeMap : Prop :=
  (∀ (w : CmdWord) (i : Instr), decode w = .ok i →
    encode i = w ∧ ∃ r ∈ opcodeMap, r.fits w = true ∧ r.mnemonic = i.mnemonic) ∧
  (∀ w : CmdWord, ∀ r ∈ opcodeMap, r.fits w = true → ∃ i, decode w = .ok i ∧ i.mnemonic = r.mnemonic) ∧
  (∀ w : CmdWord, ∀ r ∈ opcodeMap, ∀ r' ∈ opcodeMap, r.fits w = true → r'.fits w = true → r = r') ∧
  (∀ s : State, s.status.busy = true → (∀ r ∈ opcodeMap, r.fits s.cmd = false) →
    Ends s.engineTurn (Raised s .illegal))

/-- R96, R112: a reserved opcode, a nonzero unused field or a nonzero reserved field completes with `ILLEGAL` and
writes no register; the all-zero word is one of them. -/
def Obligations.IllegalWordWritesNoRegister : Prop :=
  ∀ s : State, s.status.busy = true →
    ((fieldsOf s.cmd).opc.toNat = 0 ∨ (0x0D ≤ (fieldsOf s.cmd).opc.toNat ∧ (fieldsOf s.cmd).opc.toNat ≤ 0x0F) ∨
      0x13 ≤ (fieldsOf s.cmd).opc.toNat ∨ (fieldsOf s.cmd).unusedZero = false ∨ (fieldsOf s.cmd).rsv ≠ 0 ∨
      s.cmd = 0) →
    Ends s.engineTurn (Raised s .illegal)

/-! Steps. -/

/-- What a step is, turn by turn, each with the turn taken off the list of turns. Engine: the completion, which for a
word that decodes is `exec` of the command in flight (R111, R112). Host, with `off` below `0x40000` the address less
`BASE` and the size and alignment accepted: `MemRead` or `MemWrite` at `off` with the operation taken off the host's list
(R61, R66, R67, R73; what a refused one does is R69's, stated apart); a poll reads `STATUS` and stays first while `BUSY = 1` (R101); with nothing to do, nothing (the model's choice,
notes/assumptions/13.md). Reset input: the reset event (R260). That turns and operations are lists in the state is the
model's choice (notes/assumptions/4.md, 5.md). -/
def Obligations.StepRunsTheDecodedCommand : Prop :=
  (∀ (s : State) (i : Instr), s.nextTurn = .engine → s.status.busy = true → decode s.cmd = .ok i →
    step s = exec i s.popTurn) ∧
  (∀ s : State, s.nextTurn = .engine → step s = s.popTurn.engineTurn) ∧
  (∀ s : State, s.nextTurn = .reset → step s = .next s.popTurn.resetEvent) ∧
  (∀ s : State, s.nextTurn = .host → s.host = [] → step s = .next s.popTurn) ∧
  ∀ (s q : State) (op : HostOp) (rest : List HostOp), s.nextTurn = .host → s.host = op :: rest →
    q = { s.popTurn with host := rest } →
    (∀ off n, off < 0x40000 → (n = 8 ∧ off % 8 = 0) ∨ (n = 4 ∧ off % 4 = 0) →
      op = .read (s.params.base + off) n → step s = .next (q.memRead off n)) ∧
    (∀ off n v, off < 0x40000 → (n = 8 ∧ off % 8 = 0) ∨ (n = 4 ∧ off % 4 = 0) →
      op = .write (s.params.base + off) n v → step s = .next (q.memWrite off n v)) ∧
    (op = .poll → s.status.busy = false → step s = .next (q.memRead 0x10 8)) ∧
    (op = .poll → s.status.busy = true → step s = .next { q.memRead 0x10 8 with host := .poll :: rest })

/-- R110: a write that covers `CMD[31:0]` while idle is accepted: `CMD` takes the word, `BUSY` 1, `DONE` 0, and nothing
else of the engine changes; while busy it is refused. R41: a 4-byte write of the upper half of the slot while idle
starts nothing and changes nothing, and a read shows the last accepted word below bits of 0. -/
def Obligations.CmdWriteStartsTheCommand : Prop :=
  (∀ (s : State) (n : Nat) (v : Word), n = 4 ∨ n = 8 →
    (s.status.busy = false →
      s.memWrite 0x8 n v =
        { s with
          cmd := v.extractLsb' 0 32, status := { s.status with busy := true, done := false },
          replies := .written :: s.replies }) ∧
    (s.status.busy = true →
      s.memWrite 0x8 n v = { s with status := { s.status with haz := true }, replies := .written :: s.replies })) ∧
  (∀ (s : State) (v : Word), s.status.busy = false → s.memWrite 0xC 4 v = s.reply .written) ∧
  ∀ s : State,
    s.memRead 0x8 8 = s.reply (.data8 ((0 : BitVec 32) ++ s.cmd)) ∧ s.memRead 0x8 4 = s.reply (.data4 s.cmd) ∧
    s.memRead 0xC 4 = s.reply (.data4 0)

/-- R48: what an engine holds after reset, whatever its parameters: every integer register is a canonical 0, the CSRs
and the flags are 0, no command is in flight. The digits are unspecified: nothing is said of them. -/
def Obligations.ResetValues : Prop :=
  ∀ (p : Params) (d : Nat),
    (∀ n, ((State.afterReset p d).reg n).used = 0 ∧ ((State.afterReset p d).reg n).sign = false ∧
      (State.afterReset p d).val n = 0 ∧ (State.afterReset p d).canonical n = true) ∧
    (State.afterReset p d).cmd = 0 ∧ (State.afterReset p d).arg = 0 ∧ (State.afterReset p d).ie = false ∧
    (State.afterReset p d).slotValue .status = 0 ∧ (State.afterReset p d).slotValue .id = idWord p ∧
    (State.afterReset p d).status.busy = false ∧ (State.afterReset p d).irq = false ∧
    State.reset = State.afterReset Params.t8 0

/-- R260, R261: a reset, busy or not, is one step after which every integer register holds 0, `CMD`, `STATUS`, `ARG`
and `CTRL` are 0, `ID` is as before, and no command is in flight. Nothing is said of the digits of either file, which
become unspecified (R48). -/
def Obligations.ResetEventClearsTheEngine : Prop :=
  ∀ s : State, s.nextTurn = .reset →
    Ends (step s) fun t =>
      (∀ n, (t.reg n).used = 0 ∧ (t.reg n).sign = false ∧ t.val n = 0) ∧ t.cmd = 0 ∧ t.arg = 0 ∧ t.ie = false ∧
      t.status = { busy := false, done := false, haz := false, err := .ok } ∧ t.params = s.params ∧
      t.slotValue .id = s.slotValue .id ∧ t.irq = false ∧ t.host = s.host ∧ t.replies = s.replies

/-- R111, R261: with no host access waiting, a busy engine is idle at most one step after the turns that were fixed
beforehand. Where none of those turns is a reset, which would abandon the command, the completion has happened: `DONE`
is 1 and the state is the outcome of the engine's turn on the state the command was accepted in, but for the turns
taken. The bound is the model's way to say weak fairness (notes/assumptions/5.md). -/
def Obligations.AcceptedCommandCompletes : Prop :=
  ∀ s : State, s.status.busy = true → s.host = [] →
    ∃ n, n ≤ s.turns.length + 1 ∧ ∃ t, Host.Core.run Sys2Proof.core n s = .next t ∧ t.status.busy = false ∧
      (Turn.reset ∉ s.turns →
        t.status.done = true ∧ ∃ later, ({ s with turns := later } : State).engineTurn = .next t)

/-! The commands, one statement each: its encoding, its checks in order, its result, and all that it leaves alone. -/

/-- R130: `MOD2B`. -/
def Obligations.Mod2bTruncates : Prop :=
  ∀ (s : State) (rd ra : RegNum), s.Wf → s.canonical ra = true →
    decode (0#10 ++ 0#4 ++ 0#4 ++ ra ++ rd ++ 0x01#6) = .ok (.mod2b rd ra) ∧
    Ends (exec (.mod2b rd ra) s) (WroteInt s rd
      (if s.arg.toInt ≤ 0 then 0
       else if (bitlen (s.val ra).natAbs : Int) ≤ s.arg.toInt then s.val ra
       else if s.val ra < 0 then -(((s.val ra).natAbs % 2 ^ s.arg.toInt.toNat : Nat) : Int)
       else (((s.val ra).natAbs % 2 ^ s.arg.toInt.toNat : Nat) : Int)))

/-- R131: `MODDIG`. -/
def Obligations.ModdigWritesTheRemainder : Prop :=
  ∀ (s : State) (rd ra rb : RegNum), s.Wf → s.canonical ra = true → s.canonical rb = true →
    decode (0#10 ++ 0#4 ++ rb ++ ra ++ rd ++ 0x02#6) = .ok (.moddig rd ra rb) ∧
    (((s.reg rb).sign = true ∨ 1 < (s.reg rb).used.toNat) →
      Ends (exec (.moddig rd ra rb) s) (Raised s .operand)) ∧
    ((s.reg rb).sign = false → (s.reg rb).used.toNat = 0 →
      Ends (exec (.moddig rd ra rb) s) (Raised s .divisionByZero)) ∧
    ((s.reg rb).sign = false → (s.reg rb).used.toNat = 1 →
      0 < ((s.reg rb).dig.getD 0 0).toNat ∧
      Ends (exec (.moddig rd ra rb) s) (WroteInt s rd (s.val ra % ((s.reg rb).dig.getD 0 0).toNat)))

/-- R132: `MODBASIC`. -/
def Obligations.ModbasicWritesTheRemainder : Prop :=
  ∀ (s : State) (rd ra rb : RegNum), s.Wf → s.canonical ra = true → s.canonical rb = true →
    decode (0#10 ++ 0#4 ++ rb ++ ra ++ rd ++ 0x03#6) = .ok (.modbasic rd ra rb) ∧
    (s.val rb = 0 → Ends (exec (.modbasic rd ra rb) s) (Raised s .divisionByZero)) ∧
    (s.val rb < 0 → Ends (exec (.modbasic rd ra rb) s) (Raised s .invalidModulus)) ∧
    (0 < s.val rb → Ends (exec (.modbasic rd ra rb) s) (WroteInt s rd (s.val ra % s.val rb)))

/-- R150: `BSETUP`, `k = diglen(m)`. -/
def Obligations.BsetupWritesTheContext : Prop :=
  ∀ (s : State) (rd rb : RegNum), s.Wf → s.canonical rb = true →
    decode (0#10 ++ 0#4 ++ rb ++ 0#4 ++ rd ++ 0x04#6) = .ok (.bsetup rd rb) ∧
    (s.val rb ≤ 0 → Ends (exec (.bsetup rd rb) s) (Raised s .invalidModulus)) ∧
    (∀ res : Int, 0 < s.val rb → res = 2 ^ (s.params.w * (2 * diglen s.params.w (s.val rb).toNat)) / s.val rb →
      (s.params.cap < diglen s.params.w res.toNat → Ends (exec (.bsetup rd rb) s) (Raised s .capacity)) ∧
      (diglen s.params.w res.toNat ≤ s.params.cap → Ends (exec (.bsetup rd rb) s) (WroteInt s rd res)))

/-- When `BSETUP` of a positive modulus raises `CAPACITY`: `k >= CAP`, or `k = CAP - 1` and `m = B^(k-1)` (R150, corner
cases). -/
def Obligations.BsetupCapacityCondition : Prop :=
  ∀ (s : State) (rd rb : RegNum), s.Wf → s.canonical rb = true → 0 < s.val rb →
    ∀ k : Nat, k = diglen s.params.w (s.val rb).toNat →
      Ends (exec (.bsetup rd rb) s) fun t =>
        t.status.err = .capacity ↔
          (s.params.cap ≤ k ∨ (k + 1 = s.params.cap ∧ s.val rb = 2 ^ (s.params.w * (k - 1))))

/-- R151: `BRED` with any context: the value of step 5 is `a - q3 * m` modulo `B^(k+1)`, and step 6 leaves its
remainder. -/
def Obligations.BredFollowsItsSteps : Prop :=
  ∀ (s : State) (rd ra rb rc : RegNum), s.Wf → s.canonical ra = true → s.canonical rb = true → s.canonical rc = true →
    ∀ (a m u : Int) (k : Nat), a = s.val ra → m = s.val rb → u = s.val rc → k = diglen s.params.w m.toNat →
    decode (0#10 ++ rc ++ rb ++ ra ++ rd ++ 0x05#6) = .ok (.bred rd ra rb rc) ∧
    (m ≤ 0 → Ends (exec (.bred rd ra rb rc) s) (Raised s .invalidModulus)) ∧
    (0 < m → (u < 0 ∨ a < 0 ∨ 2 * k < diglen s.params.w a.toNat) →
      Ends (exec (.bred rd ra rb rc) s) (Raised s .operand)) ∧
    (0 < m → 0 ≤ u → 0 ≤ a → diglen s.params.w a.toNat ≤ 2 * k →
      (a < m → Ends (exec (.bred rd ra rb rc) s) (WroteInt s rd a)) ∧
      (m ≤ a → Ends (exec (.bred rd ra rb rc) s) (WroteInt s rd
        ((a - a / 2 ^ (s.params.w * (k - 1)) * u / 2 ^ (s.params.w * (k + 1)) * m) % 2 ^ (s.params.w * (k + 1)) % m))))

/-- R170: `MSETUP` writes the unique `u0` with `0 <= u0 < B` and `(u0 * digit_0(m)) mod B = B - 1`. -/
def Obligations.MsetupWritesTheInverse : Prop :=
  ∀ (s : State) (rd rb : RegNum), s.Wf → s.canonical rb = true →
    decode (0#10 ++ 0#4 ++ rb ++ 0#4 ++ rd ++ 0x06#6) = .ok (.msetup rd rb) ∧
    ((s.val rb ≤ 0 ∨ s.val rb % 2 = 0) → Ends (exec (.msetup rd rb) s) (Raised s .invalidModulus)) ∧
    (0 < s.val rb → s.val rb % 2 = 1 →
      ∃ u0 : Int, IsMontgomeryContext s.params.w (s.val rb) u0 ∧
        (∀ x, IsMontgomeryContext s.params.w (s.val rb) x → x = u0) ∧
        Ends (exec (.msetup rd rb) s) (WroteInt s rd u0))

/-- R172: `MRED` with any one-digit context: its checks, then REDC, `RANGE` when REDC has no result. -/
def Obligations.MredAppliesRedc : Prop :=
  ∀ (s : State) (rd ra rb rc : RegNum), s.Wf → s.canonical ra = true → s.canonical rb = true → s.canonical rc = true →
    ∀ (a m : Int) (k u0 : Nat), a = s.val ra → m = s.val rb → k = diglen s.params.w m.toNat →
    u0 = (if (s.reg rc).used.toNat = 0 then 0 else ((s.reg rc).dig.getD 0 0).toNat) →
    decode (0#10 ++ rc ++ rb ++ ra ++ rd ++ 0x09#6) = .ok (.mred rd ra rb rc) ∧
    (m ≤ 0 → Ends (exec (.mred rd ra rb rc) s) (Raised s .invalidModulus)) ∧
    (0 < m → ((s.reg rc).sign = true ∨ 1 < (s.reg rc).used.toNat ∨ a < 0 ∨ 2 * k < diglen s.params.w a.toNat) →
      Ends (exec (.mred rd ra rb rc) s) (Raised s .operand)) ∧
    (0 < m → (s.reg rc).sign = false → (s.reg rc).used.toNat ≤ 1 → 0 ≤ a → diglen s.params.w a.toNat ≤ 2 * k →
      (∀ t : Nat, redc s.params.w a.toNat m.toNat u0 = some t →
        Ends (exec (.mred rd ra rb rc) s) (WroteInt s rd t)) ∧
      (redc s.params.w a.toNat m.toNat u0 = none → Ends (exec (.mred rd ra rb rc) s) (Raised s .range)))

/-- R173: `MTO`. -/
def Obligations.MtoWritesTheMontgomeryForm : Prop :=
  ∀ (s : State) (rd ra rb : RegNum), s.Wf → s.canonical ra = true → s.canonical rb = true →
    decode (0#10 ++ 0#4 ++ rb ++ ra ++ rd ++ 0x07#6) = .ok (.mto rd ra rb) ∧
    (s.val rb ≤ 0 → Ends (exec (.mto rd ra rb) s) (Raised s .invalidModulus)) ∧
    (0 < s.val rb → Ends (exec (.mto rd ra rb) s) (WroteInt s rd
      (s.val ra * 2 ^ (s.params.w * diglen s.params.w (s.val rb).toNat) % s.val rb)))

/-- R174: `MFROM`: its checks, then REDC with the context of `m`, `RANGE` when REDC has no result, which is never so
for `a < m * B^k`. -/
def Obligations.MfromAppliesRedc : Prop :=
  ∀ (s : State) (rd ra rb : RegNum), s.Wf → s.canonical ra = true → s.canonical rb = true →
    ∀ (a m : Int) (k : Nat), a = s.val ra → m = s.val rb → k = diglen s.params.w m.toNat →
    decode (0#10 ++ 0#4 ++ rb ++ ra ++ rd ++ 0x08#6) = .ok (.mfrom rd ra rb) ∧
    ((m ≤ 0 ∨ m % 2 = 0) → Ends (exec (.mfrom rd ra rb) s) (Raised s .invalidModulus)) ∧
    (0 < m → m % 2 = 1 → (a < 0 ∨ 2 * k < diglen s.params.w a.toNat) →
      Ends (exec (.mfrom rd ra rb) s) (Raised s .operand)) ∧
    (0 < m → m % 2 = 1 → 0 ≤ a → diglen s.params.w a.toNat ≤ 2 * k →
      ∃ u0 : Nat, IsMontgomeryContext s.params.w m u0 ∧
        (∀ t : Nat, redc s.params.w a.toNat m.toNat u0 = some t →
          Ends (exec (.mfrom rd ra rb) s) (WroteInt s rd t)) ∧
        (redc s.params.w a.toNat m.toNat u0 = none → Ends (exec (.mfrom rd ra rb) s) (Raised s .range)) ∧
        (a < m * 2 ^ (s.params.w * k) → ∃ t : Nat, redc s.params.w a.toNat m.toNat u0 = some t))

/-- R191: `RCHK` writes 1 for the radix shape and 0 for anything else, and never raises for its value. -/
def Obligations.RchkWritesTheShapeBit : Prop :=
  ∀ (s : State) (rd rb : RegNum), s.Wf → s.canonical rb = true →
    decode (0#10 ++ 0#4 ++ rb ++ 0#4 ++ rd ++ 0x0A#6) = .ok (.rchk rd rb) ∧
    (HasRadixShape s.params.w (s.val rb) → Ends (exec (.rchk rd rb) s) (WroteInt s rd 1)) ∧
    (¬HasRadixShape s.params.w (s.val rb) → Ends (exec (.rchk rd rb) s) (WroteInt s rd 0))

/-- R193: `RSETUP` writes `2^bits - m`, one digit and never 0, for the radix shape, else `INVALID_MODULUS`. -/
def Obligations.RsetupWritesTheContext : Prop :=
  ∀ (s : State) (rd rb : RegNum), s.Wf → s.canonical rb = true →
    decode (0#10 ++ 0#4 ++ rb ++ 0#4 ++ rd ++ 0x0B#6) = .ok (.rsetup rd rb) ∧
    (s.val rb ≤ 0 → Ends (exec (.rsetup rd rb) s) (Raised s .invalidModulus)) ∧
    (¬HasRadixShape s.params.w (s.val rb) → Ends (exec (.rsetup rd rb) s) (Raised s .invalidModulus)) ∧
    (HasRadixShape s.params.w (s.val rb) →
      1 ≤ 2 ^ bitlen (s.val rb).toNat - s.val rb ∧ 2 ^ bitlen (s.val rb).toNat - s.val rb < 2 ^ s.params.w ∧
      Ends (exec (.rsetup rd rb) s) (WroteInt s rd (2 ^ bitlen (s.val rb).toNat - s.val rb)))

/-- R195: `RRED` with any one-digit context below `2^bits`: the values `v 0 = a`, `v 1`, ... of the loop's passes, up
to the first pass `n` that subtracts nothing, whose folded value is the result; so the loop ends. -/
def Obligations.RredRunsTheFoldingLoop : Prop :=
  ∀ (s : State) (rd ra rb rc : RegNum), s.Wf → s.canonical ra = true → s.canonical rb = true → s.canonical rc = true →
    ∀ (a m : Int) (c : Nat), a = s.val ra → m = s.val rb →
    c = (if (s.reg rc).used.toNat = 0 then 0 else ((s.reg rc).dig.getD 0 0).toNat) →
    decode (0#10 ++ rc ++ rb ++ ra ++ rd ++ 0x0C#6) = .ok (.rred rd ra rb rc) ∧
    (m ≤ 0 → Ends (exec (.rred rd ra rb rc) s) (Raised s .invalidModulus)) ∧
    (0 < m → ((s.reg rc).sign = true ∨ 1 < (s.reg rc).used.toNat ∨ 2 ^ bitlen m.toNat ≤ c ∨ a < 0) →
      Ends (exec (.rred rd ra rb rc) s) (Raised s .operand)) ∧
    (0 < m → (s.reg rc).sign = false → (s.reg rc).used.toNat ≤ 1 → c < 2 ^ bitlen m.toNat → 0 ≤ a →
      ∃ (n : Nat) (v : Nat → Nat), v 0 = a.toNat ∧
        (∀ i, i < n → m.toNat ≤ foldOnce (bitlen m.toNat) c (v i) ∧
          v (i + 1) = foldOnce (bitlen m.toNat) c (v i) - m.toNat) ∧
        foldOnce (bitlen m.toNat) c (v n) < m.toNat ∧
        Ends (exec (.rred rd ra rb rc) s) (WroteInt s rd (foldOnce (bitlen m.toNat) c (v n))))

/-- R211: `FMUL1` writes the carry-less product of the element and digit 0 of `F[RB]`. A source digit not written since reset is a free
value of the model's choice (notes/assumptions/3.md), where R210(e) says that a model faults. -/
def Obligations.Fmul1WritesTheDigitProduct : Prop :=
  ∀ (s : State) (rd ra rb : RegNum), s.Wf →
    decode (0#10 ++ 0#4 ++ rb ++ ra ++ rd ++ 0x10#6) = .ok (.fmul1 rd ra rb) ∧
    clmul (s.elem ra) ((s.freg rb).fdig.getD 0 0).toNat < 2 ^ ((s.params.fbDigs + 1) * s.params.w) ∧
    Ends (exec (.fmul1 rd ra rb) s) (WroteField s rd (clmul (s.elem ra) ((s.freg rb).fdig.getD 0 0).toNat))

/-- R214: `FMULF` writes the carry-less product into all `2n` digits. A source digit not written since reset is a free
value of the model's choice (notes/assumptions/3.md), where R210(e) says that a model faults. -/
def Obligations.FmulfWritesTheProduct : Prop :=
  ∀ (s : State) (rd ra rb : RegNum), s.Wf →
    decode (0#10 ++ 0#4 ++ rb ++ ra ++ rd ++ 0x11#6) = .ok (.fmulf rd ra rb) ∧
    Ends (exec (.fmulf rd ra rb) s) (WroteField s rd (clmul (s.elem ra) (s.elem rb)))

/-- R216: `FMULR` writes the remainder of the product by `FB_POLY`: degree below `FB_BITS`, and the product less it is
a multiple of `FB_POLY`. A source digit not written since reset is a free
value of the model's choice (notes/assumptions/3.md), where R210(e) says that a model faults. -/
def Obligations.FmulrWritesTheReducedProduct : Prop :=
  ∀ (s : State) (rd ra rb : RegNum), s.Wf →
    decode (0#10 ++ 0#4 ++ rb ++ ra ++ rd ++ 0x12#6) = .ok (.fmulr rd ra rb) ∧
    ∃ r : Nat, r < 2 ^ s.params.fbBits ∧
      (∃ q : Nat, clmul (s.elem ra) (s.elem rb) ^^^ r = clmul q s.params.fbPoly) ∧
      Ends (exec (.fmulr rd ra rb) s) (WroteField s rd r)

/-! What holds of every command. -/

/-- R113: an integer command with a source register that is not canonical ends with `OPERAND`. R113, R210, R117: a
field command has no such check and ends with `OK`; that it does so on a source digit not written since reset is the
model's choice (notes/assumptions/3.md), where R210(e) says that a model faults. -/
def Obligations.NoncanonicalOperandIsRefused : Prop :=
  (∀ (s : State) (i : Instr), i.isField = false → (∃ r ∈ i.sources, s.canonical r = false) →
    Ends (exec i s) (Raised s .operand)) ∧
  (∀ (s : State) (i : Instr), i.isField = true → Ends (exec i s) fun t => t.status.err = .ok)

/-- R122: no command changes anything but its destination register and `ERR`, `BUSY`, `DONE`. -/
def Obligations.CommandFrame : Prop :=
  ∀ (s t : State) (i : Instr), exec i s = .next t →
    SameAround s t ∧ t.status.busy = false ∧ t.status.done = true ∧
    (∀ n, (i.isField = true ∨ n ≠ i.rd) → t.reg n = s.reg n) ∧
    (∀ n, (i.isField = false ∨ n ≠ i.rd) → t.freg n = s.freg n)

/-- Every byte of the aperture outside the `STATUS` slot and the window of the destination register reads, idle, as
before the command. -/
def Obligations.CommandLeavesOtherBytes : Prop :=
  ∀ (s t : State) (i : Instr), exec i s = .next t →
    ∀ off, off < 0x40000 → ¬(0x10 ≤ off ∧ off < 0x18) →
      ¬(i.isField = false ∧ 0x10000 + 0x1000 * i.rd.toNat ≤ off ∧ off < 0x10000 + 0x1000 * i.rd.toNat + 0x1000) →
      ¬(i.isField = true ∧ 0x20000 + 0x1000 * i.rd.toNat ≤ off ∧ off < 0x20000 + 0x1000 * i.rd.toNat + 0x1000) →
      t.byteAt off = s.byteAt off

/-- R116, R231: a command that raises writes only `ERR`, `BUSY` and `DONE`; `CMD` still holds its word. -/
def Obligations.FailedCommandWritesNoRegister : Prop :=
  ∀ (s t : State) (i : Instr), exec i s = .next t → t.status.err ≠ .ok →
    Raised s t.status.err t ∧ t.cmd = s.cmd

/-- The error column of R230 and R232: which command can end with which code; `CAPACITY` only `BSETUP` (R117). -/
def Obligations.CommandsRaiseOnlyTheirErrors : Prop :=
  ∀ (s t : State) (i : Instr), s.Wf → exec i s = .next t →
    t.status.err ≠ .illegal ∧
    (t.status.err = .operand → i.isField = false) ∧
    (t.status.err = .capacity → i.mnemonic = "BSETUP") ∧
    (t.status.err = .divisionByZero → i.mnemonic ∈ ["MODDIG", "MODBASIC"]) ∧
    (t.status.err = .range → i.mnemonic ∈ ["MRED", "MFROM"]) ∧
    (t.status.err = .invalidModulus →
      i.mnemonic ∈ ["MODBASIC", "BSETUP", "BRED", "MSETUP", "MTO", "MFROM", "MRED", "RSETUP", "RRED"])

/-- R119: the error code and the result of a command depend on nothing but its operand registers, `ARG` for `MOD2B`,
and the parameters: two states that agree on those give the same code and, on success, the same destination. -/
def Obligations.CommandDependsOnItsOperandsOnly : Prop :=
  ∀ (s t s' t' : State) (i : Instr), SameInputs s t i → exec i s = .next s' → exec i t = .next t' →
    s'.status.err = t'.status.err ∧
    (s'.status.err = .ok →
      (i.isField = false → s'.reg i.rd = t'.reg i.rd) ∧ (i.isField = true → s'.freg i.rd = t'.freg i.rd))

/-- Every reduction that succeeds leaves a canonical result in `[0, m)`, whatever its context register holds (R151,
R171, R196; the source's range guarantee). -/
def Obligations.ReductionsEndInRange : Prop :=
  ∀ (s t : State) (rd ra rb rc : RegNum) (i : Instr), s.Wf →
    i ∈ [Instr.modbasic rd ra rb, .bred rd ra rb rc, .mto rd ra rb, .mfrom rd ra rb, .mred rd ra rb rc,
      .rred rd ra rb rc] →
    exec i s = .next t → t.status.err = .ok →
    0 ≤ t.val rd ∧ t.val rd < s.val rb ∧ t.canonical rd = true

/-! The reductions reduce. -/

/-- R153: with the context of `m` and `0 <= a < B^(2k)`, `BRED` writes `a mod m`, and step 6 subtracts at most
twice. -/
def Obligations.BarrettReducesWithItsContext : Prop :=
  ∀ (s : State) (rd ra rb rc : RegNum), s.Wf → s.canonical ra = true → s.canonical rb = true → s.canonical rc = true →
    IsBarrettContext s.params.w (s.val rb) (s.val rc) → 0 ≤ s.val ra →
    s.val ra < 2 ^ (s.params.w * (2 * diglen s.params.w (s.val rb).toNat)) →
    Ends (exec (.bred rd ra rb rc) s) (WroteInt s rd (s.val ra % s.val rb)) ∧
    (barrettEstimate s.params.w (s.val ra).toNat (s.val rb).toNat (s.val rc).toNat : Int) < 3 * s.val rb

/-- R171: REDC adds a multiple `x * m` of the modulus, `x < B^k`, divides by `B^k` and corrects once; with the context
of an odd `m` the division is exact, and for `a < m * B^k` there is a result. -/
def Obligations.RedcAddsAMultipleOfTheModulus : Prop :=
  ∀ (w a m u0 k : Nat), 0 < w → 0 < m → k = diglen w m → a < 2 ^ (w * (2 * k)) → u0 < 2 ^ w →
    ∃ x : Nat, x < 2 ^ (w * k) ∧
      redc w a m u0 =
        (if (a + x * m) / 2 ^ (w * k) < m then some ((a + x * m) / 2 ^ (w * k))
         else if (a + x * m) / 2 ^ (w * k) - m < m then some ((a + x * m) / 2 ^ (w * k) - m)
         else none) ∧
      (IsMontgomeryContext w m u0 → (a + x * m) % 2 ^ (w * k) = 0) ∧
      (a < m * 2 ^ (w * k) → (redc w a m u0).isSome = true)

/-- R172, R176: for odd `m`, the context of `m` and `0 <= a < m * B^k`, `MRED` writes the `r` in `[0, m)` with
`r * B^k` congruent to `a` modulo `m`. -/
def Obligations.MredDividesByTheRadix : Prop :=
  ∀ (s : State) (rd ra rb rc : RegNum), s.Wf → s.canonical ra = true → s.canonical rb = true → s.canonical rc = true →
    IsMontgomeryContext s.params.w (s.val rb) (s.val rc) → 0 ≤ s.val ra →
    s.val ra < s.val rb * 2 ^ (s.params.w * diglen s.params.w (s.val rb).toNat) →
    ∃ r : Int, 0 ≤ r ∧ r < s.val rb ∧
      r * 2 ^ (s.params.w * diglen s.params.w (s.val rb).toNat) % s.val rb = s.val ra % s.val rb ∧
      Ends (exec (.mred rd ra rb rc) s) (WroteInt s rd r)

/-- R176: the Montgomery round trip. `MTO` then `MFROM`, for odd `m > 0` and any integer `a`, give `a mod m`. -/
def Obligations.MontgomeryRoundTrip : Prop :=
  ∀ (s : State) (rd re ra rb : RegNum), s.Wf → s.canonical ra = true → s.canonical rb = true → rd ≠ rb →
    0 < s.val rb → s.val rb % 2 = 1 →
    ∃ t, exec (.mto rd ra rb) s = .next t ∧ t.status.err = .ok ∧
      Ends (exec (.mfrom re rd rb) t) (WroteInt t re (s.val ra % s.val rb))

/-- R196: with the context `2^bits - m` of `m`, when it is one digit, `RRED` writes `a mod m` for every `a >= 0`. -/
def Obligations.RadixReducesWithItsContext : Prop :=
  ∀ (s : State) (rd ra rb rc : RegNum), s.Wf → s.canonical ra = true → s.canonical rb = true → s.canonical rc = true →
    IsRadixContext (s.val rb) (s.val rc) → s.val rc < 2 ^ s.params.w → 0 ≤ s.val ra →
    Ends (exec (.rred rd ra rb rc) s) (WroteInt s rd (s.val ra % s.val rb))

/-- R190: the shape by digits is the shape `2^bits - c` with `1 <= c <= B - 1`, or one digit. -/
def Obligations.RadixShapeIsPseudoMersenne : Prop :=
  ∀ (w : Nat) (m : Int), 0 < w → 0 < m →
    (HasRadixShape w m ↔
      diglen w m.toNat = 1 ∨ ∃ c : Int, 1 ≤ c ∧ c ≤ 2 ^ w - 1 ∧ m = 2 ^ bitlen m.toNat - c)

/-- R192(a), (b), for the bits below the top bit of `m`: flipping one bit of a digit above digit 0 that lies below the
top bit breaks the shape; changing digit 0 keeps it unless the digit becomes 0. The bits of the top digit above
`bitlen(m)` are left out: R192(a) as worded covers them, and setting bit `bitlen(m)` keeps the shape
(spec/95_test_vectors.md section 1.6). -/
def Obligations.RadixShapePerturbed : Prop :=
  ∀ (w m : Nat), 0 < w → 2 ≤ diglen w m → HasRadixShape w m →
    (∀ i, w ≤ i → i + 1 < bitlen m → ¬HasRadixShape w ((m ^^^ 2 ^ i : Nat) : Int)) ∧
    (∀ d, d < 2 ^ w → (HasRadixShape w ((m - m % 2 ^ w + d : Nat) : Int) ↔ d ≠ 0))

/-! Polynomials, and the realizations of the rules. -/

/-- R16: bit `n` of the carry-less product is the parity of the pairs of coefficients whose exponents add to `n`, and
`pmod(p, f)` is the unique polynomial of degree below that of `f` whose sum with `p` is a multiple of `f`. -/
def Obligations.PolynomialProductAndRemainder : Prop :=
  (∀ a b n : Nat, (clmul a b).testBit n =
    (((List.range (n + 1)).filter fun i => a.testBit i && b.testBit (n - i)).length % 2 == 1)) ∧
  (∀ p f : Nat, f ≠ 0 →
    bitlen (pmod p f) < bitlen f ∧ (∃ q, p ^^^ pmod p f = clmul q f) ∧
    ∀ r, bitlen r < bitlen f → (∃ q, p ^^^ r = clmul q f) → r = pmod p f)

/-- R217: on elements of degree below `FB_BITS`, `FMULR` is commutative and associative, distributes over XOR and has
identity 1, and it is `FMULF` reduced by `FB_POLY`. -/
def Obligations.FieldMultiplicationLaws : Prop :=
  ∀ (p : Params) (a b c : Nat), p.Ok → a < 2 ^ p.fbBits → b < 2 ^ p.fbBits → c < 2 ^ p.fbBits →
    fmulr p a b = fmulr p b a ∧ fmulr p (fmulr p a b) c = fmulr p a (fmulr p b c) ∧
    fmulr p a (b ^^^ c) = fmulr p a b ^^^ fmulr p a c ∧ fmulr p a 1 = a ∧ fmulr p a b = pmod (fmulf a b) p.fbPoly ∧
    fmulr p a b < 2 ^ p.fbBits

/-- R215: `FMULF` is the XOR of the `FMUL1` products by the digits of `b`, each shifted to its digit. -/
def Obligations.FullProductDigitByDigit : Prop :=
  ∀ (d : DigitWidth) (n a b : Nat), b < 2 ^ (n * d.bits) →
    fmulf a b = (List.range n).foldl (fun acc j => acc ^^^ (fmul1 d.bits a (digit d.bits b j) <<< (j * d.bits))) 0

/-- R212, R213: row `v` of the comb table is `clmul(v, b)`, and the comb loop computes the product. -/
def Obligations.CombComputesTheProduct : Prop :=
  (∀ b v : Nat, v < 16 → combRow b v = clmul v b) ∧
  (∀ (d : DigitWidth) (n a b : Nat), a < 2 ^ (n * d.bits) → combMul d.bits n a b = clmul a b)

/-- R175: the fused realization of Montgomery reduction gives the same result, or the same `RANGE`, for every input that
passes the checks. -/
def Obligations.FusedMontgomeryIsRedc : Prop :=
  ∀ (w a m u0 : Nat), 0 < w → 0 < m → a < 2 ^ (w * (2 * diglen w m)) → u0 < 2 ^ w →
    fusedRedc w a m u0 = redc w a m u0

/-- R170: Newton steps from any 4-bit-correct start, and the negation, give the context of an odd `m`. -/
def Obligations.NewtonStepsGiveTheContext : Prop :=
  ∀ (d : DigitWidth) (m x : Nat), m % 2 = 1 → x < 2 ^ d.bits → x * digit d.bits m 0 % 16 = 1 →
    newtonContext d.bits (digit d.bits m 0) x = montContext d.bits m

/-! The aperture. -/

/-- R68: an accepted read of an idle engine gives the bytes of the aperture, the byte at the lowest offset least
significant. -/
def Obligations.ReadsAreLittleEndian : Prop :=
  ∀ (s : State) (off : Nat), s.status.busy = false →
    (off % 8 = 0 → s.memRead off 8 = s.reply (.data8
      (s.byteAt (off + 7) ++ s.byteAt (off + 6) ++ s.byteAt (off + 5) ++ s.byteAt (off + 4) ++ s.byteAt (off + 3) ++
        s.byteAt (off + 2) ++ s.byteAt (off + 1) ++ s.byteAt off))) ∧
    (off % 4 = 0 → s.memRead off 4 = s.reply (.data4
      (s.byteAt (off + 3) ++ s.byteAt (off + 2) ++ s.byteAt (off + 1) ++ s.byteAt off)))

/-- R69: an access of another size or not aligned to its size gets a bus error, no data, and changes no engine state; on
the host's turn it is a fault of the host's program, which names the access. That the fault stops the whole machine is
the model's choice (notes/assumptions/10.md). -/
def Obligations.MisalignedAccessIsABusError : Prop :=
  ∀ (off n : Nat) (v : Word), ¬((n = 8 ∧ off % 8 = 0) ∨ (n = 4 ∧ off % 4 = 0)) →
    ∀ s : State,
      s.memRead off n = { s with replies := .busError :: s.replies } ∧
      s.memWrite off n v = { s with replies := .busError :: s.replies } ∧
      (s.nextTurn = .host → off < 0x40000 →
        (s.host.head? = some (.read (s.params.base + off) n) ∨
          s.host.head? = some (.write (s.params.base + off) n v)) →
        step s = .fault (.busError (s.params.base + off) n))

/-- R63, R64: an 8-byte write of `v` to a register window slot of an idle engine stores `v[15:0]`, `v[0]` or `v[W-1:0]`
in `USED`, `SIGN` or the digit, which reads back zero-extended, and every other slot reads as before. R67: a 4-byte
write of either half is the 8-byte write of that half and the slot's own other half. -/
def Obligations.WindowWriteStoresTheField : Prop :=
  ∀ (s : State) (n : RegNum) (v : Word), s.Wf → s.status.busy = false →
    (∀ t, t = s.memWrite (0x10000 + 0x1000 * n.toNat) 8 v →
      (t.reg n).used = v.extractLsb' 0 16 ∧
      t.memRead (0x10000 + 0x1000 * n.toNat) 8 = t.reply (.data8 ((v.extractLsb' 0 16).setWidth 64)) ∧
      ∀ off, off % 8 = 0 → off ≠ 0x10000 + 0x1000 * n.toNat →
        t.slotValue (slotAt t.params off) = s.slotValue (slotAt s.params off)) ∧
    (∀ t, t = s.memWrite (0x10000 + 0x1000 * n.toNat + 0x8) 8 v →
      (t.reg n).sign = v.getLsbD 0 ∧
      t.memRead (0x10000 + 0x1000 * n.toNat + 0x8) 8 = t.reply (.data8 ((v.extractLsb' 0 1).setWidth 64)) ∧
      ∀ off, off % 8 = 0 → off ≠ 0x10000 + 0x1000 * n.toNat + 0x8 →
        t.slotValue (slotAt t.params off) = s.slotValue (slotAt s.params off)) ∧
    (∀ j, j < s.params.cap → ∀ t, t = s.memWrite (0x10000 + 0x1000 * n.toNat + 0x10 + 8 * j) 8 v →
      ((t.reg n).dig.getD j 0).toNat = v.toNat % 2 ^ s.params.w ∧
      t.memRead (0x10000 + 0x1000 * n.toNat + 0x10 + 8 * j) 8 =
        t.reply (.data8 (BitVec.ofNat 64 (v.toNat % 2 ^ s.params.w))) ∧
      ∀ off, off % 8 = 0 → off ≠ 0x10000 + 0x1000 * n.toNat + 0x10 + 8 * j →
        t.slotValue (slotAt t.params off) = s.slotValue (slotAt s.params off)) ∧
    (∀ j, j < 2 * s.params.fbDigs → ∀ t, t = s.memWrite (0x20000 + 0x1000 * n.toNat + 8 * j) 8 v →
      ((t.freg n).fdig.getD j 0).toNat = v.toNat % 2 ^ s.params.w ∧
      t.memRead (0x20000 + 0x1000 * n.toNat + 8 * j) 8 =
        t.reply (.data8 (BitVec.ofNat 64 (v.toNat % 2 ^ s.params.w))) ∧
      ∀ off, off % 8 = 0 → off ≠ 0x20000 + 0x1000 * n.toNat + 8 * j →
        t.slotValue (slotAt t.params off) = s.slotValue (slotAt s.params off)) ∧
    (∀ off, WindowOffset s.params off → ∀ old, old = s.slotValue (slotAt s.params off) →
      s.memWrite off 4 v = s.memWrite off 8 (old.extractLsb' 32 32 ++ v.extractLsb' 0 32) ∧
      s.memWrite (off + 4) 4 v = s.memWrite off 8 (v.extractLsb' 0 32 ++ old.extractLsb' 0 32))

/-- R66, R67, R44: the two halves of `ARG`, written and read four bytes at a time. -/
def Obligations.ArgHalvesAreSeparate : Prop :=
  ∀ (s : State) (v : Word), s.status.busy = false →
    s.memWrite 0x18 4 v = { s with arg := s.arg.extractLsb' 32 32 ++ v.extractLsb' 0 32, replies := .written :: s.replies } ∧
    s.memWrite 0x1C 4 v = { s with arg := v.extractLsb' 0 32 ++ s.arg.extractLsb' 0 32, replies := .written :: s.replies } ∧
    s.memWrite 0x18 8 v = { s with arg := v, replies := .written :: s.replies } ∧
    s.memRead 0x18 4 = s.reply (.data4 (s.arg.extractLsb' 0 32)) ∧
    s.memRead 0x1C 4 = s.reply (.data4 (s.arg.extractLsb' 32 32)) ∧ s.memRead 0x18 8 = s.reply (.data8 s.arg)

/-- R72: while busy, a write to `CMD`, `ARG` or a register window slot changes nothing but `HAZ`, a read of a register
window slot gives an unspecified value, and reads of CSRs and reserved slots, writes to `STATUS` and `CTRL`, and writes
to `ID` and reserved slots do to the whole state what they do when idle. The model's choices in it: a write of the
upper half of `CMD` sets `HAZ` too (notes/assumptions/9.md), and the unspecified value is a drawn free value of 64 bits
(notes/assumptions/2.md, 11.md). -/
def Obligations.BusyAccesses : Prop :=
  ∀ (s : State) (off n : Nat) (v : Word), s.Wf → s.status.busy = true →
    (n = 8 ∧ off % 8 = 0) ∨ (n = 4 ∧ off % 4 = 0) →
    ((off - off % 8 = 0x8 ∨ off - off % 8 = 0x18 ∨ WindowOffset s.params (off - off % 8)) →
      s.memWrite off n v = { s with status := { s.status with haz := true }, replies := .written :: s.replies }) ∧
    (WindowOffset s.params (off - off % 8) →
      s.memRead off n =
        { s with draws := s.draws + 1, replies := readPart off n (Config.unspecified s.draws) :: s.replies }) ∧
    ((CsrOffset (off - off % 8) ∨ ReservedOffset s.params (off - off % 8)) →
      s.memRead off n = s.reply (readPart off n (s.slotValue (slotAt s.params (off - off % 8))))) ∧
    ((off - off % 8 = 0x0 ∨ ReservedOffset s.params (off - off % 8)) → s.memWrite off n v = s.reply .written) ∧
    ((off - off % 8 = 0x10 ∨ off - off % 8 = 0x20) →
      ∀ idle after : State, idle = { s with status := { s.status with busy := false } } →
        after = idle.memWrite off n v →
        s.memWrite off n v = { after with status := { after.status with busy := true } })

/-- R47, R72: the host cannot change a command's operands, its word or `ARG` under it. -/
def Obligations.OperandsAreStableWhileBusy : Prop :=
  ∀ s t : State, s.status.busy = true → s.nextTurn = .host → step s = .next t →
    t.regs = s.regs ∧ t.fregs = s.fregs ∧ t.arg = s.arg ∧ t.cmd = s.cmd ∧ t.status.busy = true ∧
    t.params = s.params

/-- R65: a reserved offset reads as 0 and ignores writes, busy or not, and so does a write to `ID`. -/
def Obligations.ReservedOffsetsReadZero : Prop :=
  ∀ (s : State) (off : Nat) (v : Word), s.Wf →
    (ReservedOffset s.params off →
      s.memRead off 8 = s.reply (.data8 0) ∧ s.memRead off 4 = s.reply (.data4 0) ∧
      s.memRead (off + 4) 4 = s.reply (.data4 0) ∧ s.memWrite off 8 v = s.reply .written ∧
      s.memWrite off 4 v = s.reply .written ∧ s.memWrite (off + 4) 4 v = s.reply .written) ∧
    s.memWrite 0x0 8 v = s.reply .written ∧ s.memWrite 0x0 4 v = s.reply .written ∧
    s.memWrite 0x4 4 v = s.reply .written

/-- R40: the fields of `ID`. -/
def Obligations.IdShowsTheParameters : Prop :=
  ∀ s : State, s.Wf →
    ∃ id : Word, s.memRead 0x0 8 = s.reply (.data8 id) ∧
      (id.extractLsb' 0 8).toNat = s.params.w ∧ (id.extractLsb' 8 16).toNat = s.params.cap ∧
      (id.extractLsb' 24 16).toNat = s.params.fbDigs ∧ (id.extractLsb' 40 16).toNat = s.params.fbBits ∧
      (id.extractLsb' 56 8).toNat = 1 ∧ ∀ t, step s = .next t → t.slotValue .id = s.slotValue .id

/-- R42, R230: the bits of a `STATUS` read, `ERR` as its number, and a write of 1 to `DONE` or `HAZ`, eight or four bytes
wide. A 4-byte write of the upper half writes the slot's own lower half with it and so clears what is set: the model's
reading of R67 (notes/assumptions/8.md). -/
def Obligations.StatusReadsAndClears : Prop :=
  ∀ (s : State) (v : Word),
    (∃ x : Word, s.memRead 0x10 8 = s.reply (.data8 x) ∧ s.memRead 0x10 4 = s.reply (.data4 (x.extractLsb' 0 32)) ∧
      s.memRead 0x14 4 = s.reply (.data4 0) ∧
      x.getLsbD 0 = s.status.busy ∧ x.getLsbD 1 = s.status.done ∧ x.getLsbD 2 = s.status.haz ∧
      (s.status.err = .ok → x.extractLsb' 8 4 = 0) ∧ (s.status.err = .invalidModulus → x.extractLsb' 8 4 = 1) ∧
      (s.status.err = .divisionByZero → x.extractLsb' 8 4 = 2) ∧ (s.status.err = .capacity → x.extractLsb' 8 4 = 3) ∧
      (s.status.err = .operand → x.extractLsb' 8 4 = 4) ∧ (s.status.err = .range → x.extractLsb' 8 4 = 5) ∧
      (s.status.err = .illegal → x.extractLsb' 8 4 = 6) ∧
      x.extractLsb' 3 5 = 0 ∧ x.extractLsb' 12 52 = 0) ∧
    (∀ n, n = 4 ∨ n = 8 → s.memWrite 0x10 n v =
      { s with
        status := { s.status with
          done := if v.getLsbD 1 then false else s.status.done
          haz := if v.getLsbD 2 then false else s.status.haz }
        replies := .written :: s.replies }) ∧
    s.memWrite 0x14 4 v =
      { s with status := { s.status with done := false, haz := false }, replies := .written :: s.replies }

/-- R240: `irq` is `DONE and IE`: it follows every completion while `IE = 1`, and falls with acceptance, with a 1
written to `DONE`, with `IE` written 0, and with reset; setting `IE` with `DONE = 1` raises it. R43: `CTRL`, busy or
idle, reads as `IE` in bit 0 and 0 above, and a write stores bit 0 in `IE` and does nothing else; reset clears it. -/
def Obligations.InterruptFollowsDoneAndEnable : Prop :=
  ∀ s : State,
    (s.irq = true ↔ s.status.done = true ∧ s.ie = true) ∧
    (∀ i t, exec i s = .next t → t.irq = s.ie) ∧
    (s.status.busy = false → ∀ v : Word, (s.memWrite 0x8 4 v).irq = false) ∧
    (∀ v : Word, v.getLsbD 1 = true → (s.memWrite 0x10 8 v).irq = false) ∧
    (∀ v : Word, (s.memWrite 0x20 8 v).irq = (s.status.done && v.getLsbD 0)) ∧
    s.resetEvent.irq = false ∧ s.resetEvent.ie = false ∧
    s.memRead 0x20 8 = s.reply (.data8 (if s.ie then 1 else 0)) ∧
    s.memRead 0x20 4 = s.reply (.data4 (if s.ie then 1 else 0)) ∧ s.memRead 0x24 4 = s.reply (.data4 0) ∧
    (∀ (n : Nat) (v : Word), n = 4 ∨ n = 8 →
      s.memWrite 0x20 n v = { s with ie := v.getLsbD 0, replies := .written :: s.replies }) ∧
    ∀ v : Word, s.memWrite 0x24 4 v = s.reply .written

/-- R45, R42, whole machine: `BUSY` rises only with an accepted write to `CMD[31:0]` and falls only with a completion
or a reset; `DONE` rises only with a completion and falls only with an acceptance, a 1 written to it or a reset; `HAZ`
rises only with a write refused while busy and falls only with a 1 written to it or a reset; `ERR` changes only with a
completion or a reset. (A 1 is also written at the upper half of `STATUS`: notes/assumptions/8.md; a write of the upper
half of `CMD` is also refused while busy: notes/assumptions/9.md.) -/
def Obligations.StatusHasNoOtherWriters : Prop :=
  ∀ s t : State, step s = .next t →
    (s.status.busy = false → t.status.busy = true → AcceptsCommand s ∧ t.status.done = false) ∧
    (s.status.busy = true → t.status.busy = false → s.nextTurn = .engine ∨ s.nextTurn = .reset) ∧
    (s.status.done = false → t.status.done = true → s.nextTurn = .engine ∧ s.status.busy = true) ∧
    (s.status.done = true → t.status.done = false →
      AcceptsCommand s ∨ WritesStatusOne s 1 ∨ s.nextTurn = .reset) ∧
    (s.status.haz = false → t.status.haz = true → RefusesWrite s) ∧
    (s.status.haz = true → t.status.haz = false → WritesStatusOne s 2 ∨ s.nextTurn = .reset) ∧
    (t.status.err ≠ s.status.err → (s.nextTurn = .engine ∧ s.status.busy = true) ∨ s.nextTurn = .reset)

/-- R101: `ldi rN, v` on an idle engine loads `v`: after its writes, taken one a step, `R[N]` is canonical with value
`v`, and every other register is as before. The host's list and the empty list of turns, under which the host alone moves
while the engine is idle, are the model's (notes/assumptions/4.md, 5.md). -/
def Obligations.LdiLoadsTheInteger : Prop :=
  ∀ (s : State) (n : RegNum) (v : Int), s.Wf → s.status.busy = false → s.turns = [] →
    diglen s.params.w v.natAbs ≤ s.params.cap → s.host = ldi s.params n v →
    ∃ t, Host.Core.run Sys2Proof.core (diglen s.params.w v.natAbs + 2) s = .next t ∧ t.host = [] ∧
      t.val n = v ∧ t.canonical n = true ∧ (∀ r, r ≠ n → t.reg r = s.reg r) ∧ t.fregs = s.fregs ∧
      t.status = s.status ∧ t.cmd = s.cmd ∧ t.arg = s.arg

/-- A run stops at a host access that is refused for its size or alignment (R69) or lies outside the aperture (the
model's choice, notes/assumptions/7.md), and at nothing else: no step is refused, and no other step faults. That no
command faults rests on the model's choice too: a field command that reads a digit not written since reset runs, where
R210(e) and I8 say that a model faults (notes/assumptions/3.md). -/
def Obligations.OnlyOutsideOrRefusedAccessesStop : Prop :=
  (∀ (s : State) (r : Refusal), step s ≠ .refused r) ∧
  (∀ (s : State) (r : Fault), step s = .fault r →
    s.nextTurn = .host ∧ ∃ op addr n, s.host.head? = some op ∧
      (op = .read addr n ∨ ∃ v, op = .write addr n v) ∧
      ((r = .outsideAperture addr ∧ ¬(s.params.base ≤ addr ∧ addr < s.params.base + 0x40000)) ∨
        ∃ off, r = .busError addr n ∧ addr = s.params.base + off ∧ off < 0x40000 ∧
          ¬((n = 8 ∧ off % 8 = 0) ∨ (n = 4 ∧ off % 4 = 0)))) ∧
  ∀ (s : State) (op : HostOp) (addr n : Nat), s.nextTurn = .host → s.host.head? = some op →
    (op = .read addr n ∨ ∃ v, op = .write addr n v) →
    ¬(s.params.base ≤ addr ∧ addr < s.params.base + 0x40000) → step s = .fault (.outsideAperture addr)

/-! The invariant. -/

/-- Every step keeps the invariant: legal parameters, registers of `CAP` and `2*FB_DIGS` digits each below `2^W`, and
`BUSY` and `DONE` never both 1. -/
def Obligations.StepKeepsTheInvariant : Prop := ∀ s t : State, s.Inv → step s = .next t → t.Inv

/-- The state after reset meets the invariant, whatever legal parameters the engine has. -/
def Obligations.ResetMeetsTheInvariant : Prop :=
  State.reset.Inv ∧ ∀ (p : Params) (d : Nat), p.Ok → (State.afterReset p d).Inv
end

