-- ==== Sys2Proof/Laws/Arith.lean ====
section
/-! SUPPORT. The lengths and digits of a natural number (spec/00_scope.md R14), digit lists, and the defensive loop of
`BRED`. -/

namespace Sys2Proof.Machine

/-- `bitlen(x)` is the least `n` with `x < 2^n` (R14). -/
theorem bitlen_le_iff (x n : Nat) : bitlen x ≤ n ↔ x < 2 ^ n := by
  unfold bitlen
  split
  · next h => subst h; simp
  · next h => rw [Nat.succ_le_iff, Nat.log2_lt h]

theorem lt_two_pow_bitlen (x : Nat) : x < 2 ^ bitlen x := (bitlen_le_iff x _).1 le_rfl

theorem two_pow_bitlen_pred_le {x : Nat} (h : 0 < x) : 2 ^ (bitlen x - 1) ≤ x := by
  by_contra hlt
  have h1 := (bitlen_le_iff x (bitlen x - 1)).2 (by omega)
  have h2 : bitlen x ≠ 0 := by unfold bitlen; split <;> omega
  omega

/-- `diglen(x)` is the least `n` with `x < B^n` (R14). -/
theorem diglen_le_iff {w : Nat} (hw : 0 < w) (x n : Nat) : diglen w x ≤ n ↔ x < 2 ^ (w * n) := by
  rw [← bitlen_le_iff]
  unfold diglen
  rw [Nat.div_le_iff_le_mul_add_pred hw]
  omega

theorem lt_pow_diglen {w : Nat} (hw : 0 < w) (x : Nat) : x < 2 ^ (w * diglen w x) :=
  (diglen_le_iff hw x _).1 le_rfl

theorem pow_diglen_pred_le {w x : Nat} (hw : 0 < w) (h : 0 < diglen w x) : 2 ^ (w * (diglen w x - 1)) ≤ x := by
  by_contra hlt
  have h1 := (diglen_le_iff hw x (diglen w x - 1)).2 (by omega)
  omega

@[simp] theorem diglen_zero {w : Nat} (hw : 0 < w) : diglen w 0 = 0 :=
  Nat.le_zero.1 ((diglen_le_iff hw 0 0).2 (by simp))

theorem diglen_pos {w x : Nat} (hw : 0 < w) (h : 0 < x) : 0 < diglen w x := by
  by_contra h0
  have := (diglen_le_iff hw x 0).1 (by omega)
  simp at this; omega

theorem diglen_mono {w x y : Nat} (hw : 0 < w) (h : x ≤ y) : diglen w x ≤ diglen w y :=
  (diglen_le_iff hw x _).2 (lt_of_le_of_lt h (lt_pow_diglen hw y))

theorem digit_lt (w x i : Nat) : digit w x i < 2 ^ w := Nat.mod_lt _ (by positivity)

/-- The low `n + 1` digits are the low `n` digits and digit `n` on top. -/
theorem mod_pow_succ_digit (w x n : Nat) :
    x % 2 ^ (w * (n + 1)) = x % 2 ^ (w * n) + digit w x n * 2 ^ (w * n) := by
  unfold digit
  rw [Nat.mul_succ, Nat.pow_add, Nat.mod_mul, Nat.mul_comm (2 ^ (w * n))]

@[simp] theorem lowDigit_toNat {w : Nat} (v : Word) (hw : w ≤ 64) : (lowDigit w v).toNat = v.toNat % 2 ^ w := by
  have h : v.toNat % 2 ^ w < 2 ^ 64 :=
    lt_of_lt_of_le (Nat.mod_lt _ (by positivity)) (Nat.pow_le_pow_right (by omega) hw)
  simp only [lowDigit, BitVec.toNat_setWidth]
  exact Nat.mod_eq_of_lt h

theorem lowDigit_lt {w : Nat} (v : Word) (hw : w ≤ 64) : (lowDigit w v).toNat < 2 ^ w := by
  rw [lowDigit_toNat v hw]; exact Nat.mod_lt _ (by positivity)

theorem ofDigits_lt (w : Nat) (ds : List Word) (h : ∀ d ∈ ds, d.toNat < 2 ^ w) :
    ofDigits w ds < 2 ^ (w * ds.length) := by
  induction ds with
  | nil => simp [ofDigits]
  | cons d ds ih =>
    have h1 := ih fun e he => h e (List.mem_cons_of_mem _ he)
    have h2 := h d (by simp)
    simp only [ofDigits, List.length_cons, Nat.mul_succ, Nat.pow_add]
    calc d.toNat + 2 ^ w * ofDigits w ds < 2 ^ w + 2 ^ w * ofDigits w ds := by omega
      _ = 2 ^ w * (ofDigits w ds + 1) := by ring
      _ ≤ 2 ^ w * 2 ^ (w * ds.length) := Nat.mul_le_mul_left _ h1
      _ = 2 ^ (w * ds.length) * 2 ^ w := by ring

theorem ofDigits_append (w : Nat) (xs ys : List Word) :
    ofDigits w (xs ++ ys) = ofDigits w xs + 2 ^ (w * xs.length) * ofDigits w ys := by
  induction xs with
  | nil => simp [ofDigits]
  | cons d xs ih => simp only [List.cons_append, ofDigits, ih, List.length_cons, Nat.mul_succ, Nat.pow_add]; ring

@[simp] theorem toDigits_length (w n x : Nat) : (toDigits w n x).length = n := by simp [toDigits]

theorem digit_word_toNat {w : Nat} (hw : w ≤ 64) (x i : Nat) : (BitVec.ofNat 64 (digit w x i)).toNat = digit w x i := by
  rw [BitVec.toNat_ofNat]
  exact Nat.mod_eq_of_lt (lt_of_lt_of_le (digit_lt w x i) (Nat.pow_le_pow_right (by omega) hw))

theorem toDigits_lt {w : Nat} (hw : w ≤ 64) (n x : Nat) : ∀ d ∈ toDigits w n x, d.toNat < 2 ^ w := by
  intro d hd
  obtain ⟨i, -, rfl⟩ := List.mem_map.1 hd
  rw [digit_word_toNat hw]; exact digit_lt w x i

/-- The digits of a number, put together again, are its value modulo `B^n` (spec/10_state.md R32, R34). -/
theorem ofDigits_toDigits {w : Nat} (hw : w ≤ 64) (n x : Nat) : ofDigits w (toDigits w n x) = x % 2 ^ (w * n) := by
  induction n with
  | zero => simp [toDigits, ofDigits, Nat.mod_one]
  | succ n ih =>
    have h : toDigits w (n + 1) x = toDigits w n x ++ [BitVec.ofNat 64 (digit w x n)] := by
      simp [toDigits, List.range_succ]
    rw [h, ofDigits_append, ih, toDigits_length, mod_pow_succ_digit]
    simp only [ofDigits, digit_word_toNat hw]
    ring

theorem toDigits_take (w n k x : Nat) (h : k ≤ n) : (toDigits w n x).take k = toDigits w k x := by
  rw [toDigits, toDigits, ← List.map_take, List.take_range, Nat.min_eq_left h]

theorem toDigits_getD (w n x j : Nat) : (toDigits w n x).getD j 0 = if j < n then BitVec.ofNat 64 (digit w x j) else 0 := by
  unfold toDigits
  by_cases h : j < n <;> simp [List.getD, h]

/-- The digits at and above the length are 0. -/
theorem digit_eq_zero {w x j : Nat} (hw : 0 < w) (h : diglen w x ≤ j) : digit w x j = 0 := by
  have := (diglen_le_iff hw x j).1 h
  simp [digit, Nat.div_eq_of_lt this]

/-- The top digit of a positive number is not 0. -/
theorem digit_top_ne_zero {w x : Nat} (hw : 0 < w) (h : 0 < diglen w x) : digit w x (diglen w x - 1) ≠ 0 := by
  have h1 := pow_diglen_pred_le hw h
  have h2 := lt_pow_diglen hw x
  obtain ⟨k, hk⟩ : ∃ k, diglen w x = k + 1 := ⟨diglen w x - 1, by omega⟩
  rw [hk] at h1 h2 ⊢
  simp only [Nat.add_sub_cancel] at h1 ⊢
  have h3 : x / 2 ^ (w * k) < 2 ^ w := by
    rw [Nat.div_lt_iff_lt_mul (by positivity), ← Nat.pow_add]; convert h2 using 2; ring
  have h4 : 0 < x / 2 ^ (w * k) := Nat.div_pos h1 (by positivity)
  rw [digit, Nat.mod_eq_of_lt h3]; omega

/-- The defensive loop of step 6 leaves the remainder (spec/42_barrett.md R151). -/
theorem subtractLoop_eq_mod {m : Nat} (hm : 0 < m) : ∀ fuel r, r ≤ fuel → subtractLoop m fuel r = r % m := by
  intro fuel
  induction fuel with
  | zero => intro r hr; obtain rfl : r = 0 := by omega
            simp [subtractLoop]
  | succ n ih =>
    intro r hr
    rw [subtractLoop]
    split
    · next h => exact (Nat.mod_eq_of_lt h).symm
    · next h => rw [ih _ (by omega), ← Nat.mod_eq_sub_mod (by omega)]

end Sys2Proof.Machine
end

