-- ==== Sys2Proof/Laws/State.lean ====
section
/-! SUPPORT. One lemma for each field and each update of the state, so that no later proof unfolds a record update. -/

namespace Sys2Proof.Machine.State

variable (s : State) (n : RegNum) (r : IntReg) (f : FieldReg) (w : CmdWord) (e : Err) (y : Reply)

@[simp] theorem setReg_params : (s.setReg n r).params = s.params := rfl
@[simp] theorem setReg_fregs : (s.setReg n r).fregs = s.fregs := rfl
@[simp] theorem setReg_cmd : (s.setReg n r).cmd = s.cmd := rfl
@[simp] theorem setReg_status : (s.setReg n r).status = s.status := rfl
@[simp] theorem setReg_arg : (s.setReg n r).arg = s.arg := rfl
@[simp] theorem setReg_ie : (s.setReg n r).ie = s.ie := rfl
@[simp] theorem setReg_host : (s.setReg n r).host = s.host := rfl
@[simp] theorem setReg_turns : (s.setReg n r).turns = s.turns := rfl
@[simp] theorem setReg_replies : (s.setReg n r).replies = s.replies := rfl
@[simp] theorem setReg_draws : (s.setReg n r).draws = s.draws := rfl

@[simp] theorem setFreg_params : (s.setFreg n f).params = s.params := rfl
@[simp] theorem setFreg_regs : (s.setFreg n f).regs = s.regs := rfl
@[simp] theorem setFreg_cmd : (s.setFreg n f).cmd = s.cmd := rfl
@[simp] theorem setFreg_status : (s.setFreg n f).status = s.status := rfl
@[simp] theorem setFreg_arg : (s.setFreg n f).arg = s.arg := rfl
@[simp] theorem setFreg_ie : (s.setFreg n f).ie = s.ie := rfl
@[simp] theorem setFreg_host : (s.setFreg n f).host = s.host := rfl
@[simp] theorem setFreg_turns : (s.setFreg n f).turns = s.turns := rfl
@[simp] theorem setFreg_replies : (s.setFreg n f).replies = s.replies := rfl
@[simp] theorem setFreg_draws : (s.setFreg n f).draws = s.draws := rfl

@[simp] theorem accept_params : (s.accept w).params = s.params := rfl
@[simp] theorem accept_regs : (s.accept w).regs = s.regs := rfl
@[simp] theorem accept_fregs : (s.accept w).fregs = s.fregs := rfl
@[simp] theorem accept_cmd : (s.accept w).cmd = w := rfl
@[simp] theorem accept_status : (s.accept w).status = s.status.accepted := rfl
@[simp] theorem accept_arg : (s.accept w).arg = s.arg := rfl
@[simp] theorem accept_ie : (s.accept w).ie = s.ie := rfl
@[simp] theorem accept_host : (s.accept w).host = s.host := rfl
@[simp] theorem accept_turns : (s.accept w).turns = s.turns := rfl
@[simp] theorem accept_replies : (s.accept w).replies = s.replies := rfl
@[simp] theorem accept_draws : (s.accept w).draws = s.draws := rfl

@[simp] theorem complete_params : (s.complete e).params = s.params := rfl
@[simp] theorem complete_regs : (s.complete e).regs = s.regs := rfl
@[simp] theorem complete_fregs : (s.complete e).fregs = s.fregs := rfl
@[simp] theorem complete_cmd : (s.complete e).cmd = s.cmd := rfl
@[simp] theorem complete_status : (s.complete e).status = s.status.completed e := rfl
@[simp] theorem complete_arg : (s.complete e).arg = s.arg := rfl
@[simp] theorem complete_ie : (s.complete e).ie = s.ie := rfl
@[simp] theorem complete_host : (s.complete e).host = s.host := rfl
@[simp] theorem complete_turns : (s.complete e).turns = s.turns := rfl
@[simp] theorem complete_replies : (s.complete e).replies = s.replies := rfl
@[simp] theorem complete_draws : (s.complete e).draws = s.draws := rfl

@[simp] theorem reply_params : (s.reply y).params = s.params := rfl
@[simp] theorem reply_regs : (s.reply y).regs = s.regs := rfl
@[simp] theorem reply_fregs : (s.reply y).fregs = s.fregs := rfl
@[simp] theorem reply_cmd : (s.reply y).cmd = s.cmd := rfl
@[simp] theorem reply_status : (s.reply y).status = s.status := rfl
@[simp] theorem reply_arg : (s.reply y).arg = s.arg := rfl
@[simp] theorem reply_ie : (s.reply y).ie = s.ie := rfl
@[simp] theorem reply_host : (s.reply y).host = s.host := rfl
@[simp] theorem reply_turns : (s.reply y).turns = s.turns := rfl
@[simp] theorem reply_replies : (s.reply y).replies = y :: s.replies := rfl
@[simp] theorem reply_draws : (s.reply y).draws = s.draws := rfl

@[simp] theorem popTurn_params : s.popTurn.params = s.params := rfl
@[simp] theorem popTurn_regs : s.popTurn.regs = s.regs := rfl
@[simp] theorem popTurn_fregs : s.popTurn.fregs = s.fregs := rfl
@[simp] theorem popTurn_cmd : s.popTurn.cmd = s.cmd := rfl
@[simp] theorem popTurn_status : s.popTurn.status = s.status := rfl
@[simp] theorem popTurn_arg : s.popTurn.arg = s.arg := rfl
@[simp] theorem popTurn_ie : s.popTurn.ie = s.ie := rfl
@[simp] theorem popTurn_host : s.popTurn.host = s.host := rfl
@[simp] theorem popTurn_turns : s.popTurn.turns = s.turns.tail := rfl
@[simp] theorem popTurn_replies : s.popTurn.replies = s.replies := rfl
@[simp] theorem popTurn_draws : s.popTurn.draws = s.draws := rfl

@[simp] theorem resetEvent_params : s.resetEvent.params = s.params := rfl
@[simp] theorem resetEvent_cmd : s.resetEvent.cmd = 0 := rfl
@[simp] theorem resetEvent_status : s.resetEvent.status = { busy := false, done := false, haz := false, err := .ok } := rfl
@[simp] theorem resetEvent_arg : s.resetEvent.arg = 0 := rfl
@[simp] theorem resetEvent_ie : s.resetEvent.ie = false := rfl
@[simp] theorem resetEvent_host : s.resetEvent.host = s.host := rfl
@[simp] theorem resetEvent_turns : s.resetEvent.turns = s.turns := rfl
@[simp] theorem resetEvent_replies : s.resetEvent.replies = s.replies := rfl
@[simp] theorem resetEvent_draws : s.resetEvent.draws = s.draws + resetDraws s.params := rfl

@[simp] theorem withCommand_params : (s.withCommand w).params = s.params := rfl
@[simp] theorem withCommand_regs : (s.withCommand w).regs = s.regs := rfl
@[simp] theorem withCommand_fregs : (s.withCommand w).fregs = s.fregs := rfl
@[simp] theorem withCommand_cmd : (s.withCommand w).cmd = w := rfl
@[simp] theorem withCommand_status : (s.withCommand w).status = s.status.accepted := rfl
@[simp] theorem withCommand_arg : (s.withCommand w).arg = s.arg := rfl
@[simp] theorem withCommand_ie : (s.withCommand w).ie = s.ie := rfl
@[simp] theorem withCommand_host : (s.withCommand w).host = s.host := rfl
@[simp] theorem withCommand_turns : (s.withCommand w).turns = .engine :: s.turns := rfl
@[simp] theorem withCommand_replies : (s.withCommand w).replies = s.replies := rfl
@[simp] theorem withCommand_draws : (s.withCommand w).draws = s.draws := rfl

@[simp] theorem raise_eq_complete : s.raise e = s.complete e := rfl

theorem reg_congr {t : State} (h : t.regs = s.regs) : t.reg n = s.reg n := by simp [reg, h]

theorem freg_congr {t : State} (h : t.fregs = s.fregs) : t.freg n = s.freg n := by simp [freg, h]

@[simp] theorem reg_setReg_self : (s.setReg n r).reg n = r := by simp [reg, setReg]

theorem reg_setReg_ne {m : RegNum} (h : m ≠ n) : (s.setReg n r).reg m = s.reg m := by
  have : n.toNat ≠ m.toNat := fun e => h (BitVec.eq_of_toNat_eq e.symm)
  simp [reg, setReg, Vector.getElem_set_ne, this]

@[simp] theorem freg_setFreg_self : (s.setFreg n f).freg n = f := by simp [freg, setFreg]

theorem freg_setFreg_ne {m : RegNum} (h : m ≠ n) : (s.setFreg n f).freg m = s.freg m := by
  have : n.toNat ≠ m.toNat := fun e => h (BitVec.eq_of_toNat_eq e.symm)
  simp [freg, setFreg, Vector.getElem_set_ne, this]

@[simp] theorem reg_setFreg (m : RegNum) : (s.setFreg n f).reg m = s.reg m := rfl
@[simp] theorem freg_setReg (m : RegNum) : (s.setReg n r).freg m = s.freg m := rfl
@[simp] theorem reg_complete (m : RegNum) : (s.complete e).reg m = s.reg m := rfl
@[simp] theorem freg_complete (m : RegNum) : (s.complete e).freg m = s.freg m := rfl
@[simp] theorem reg_accept (m : RegNum) : (s.accept w).reg m = s.reg m := rfl
@[simp] theorem freg_accept (m : RegNum) : (s.accept w).freg m = s.freg m := rfl

end Sys2Proof.Machine.State

namespace Sys2Proof.Machine.Status

variable (st : Status) (e : Err) (v : Word)

@[simp] theorem accepted_busy : st.accepted.busy = true := rfl
@[simp] theorem accepted_done : st.accepted.done = false := rfl
@[simp] theorem accepted_haz : st.accepted.haz = st.haz := rfl
@[simp] theorem accepted_err : st.accepted.err = st.err := rfl
@[simp] theorem completed_busy : (st.completed e).busy = false := rfl
@[simp] theorem completed_done : (st.completed e).done = true := rfl
@[simp] theorem completed_haz : (st.completed e).haz = st.haz := rfl
@[simp] theorem completed_err : (st.completed e).err = e := rfl
@[simp] theorem hazarded_busy : st.hazarded.busy = st.busy := rfl
@[simp] theorem hazarded_done : st.hazarded.done = st.done := rfl
@[simp] theorem hazarded_haz : st.hazarded.haz = true := rfl
@[simp] theorem hazarded_err : st.hazarded.err = st.err := rfl
@[simp] theorem writeOneToClear_busy : (st.writeOneToClear v).busy = st.busy := rfl
@[simp] theorem writeOneToClear_done : (st.writeOneToClear v).done = (st.done && !v.getLsbD 1) := rfl
@[simp] theorem writeOneToClear_haz : (st.writeOneToClear v).haz = (st.haz && !v.getLsbD 2) := rfl
@[simp] theorem writeOneToClear_err : (st.writeOneToClear v).err = st.err := rfl

end Sys2Proof.Machine.Status
end

