-- ==== Sys2Proof/Laws/Ops.lean ====
section
/-! SUPPORT. What the shared operations do, said once: the canonical write reads back, and how a command ends. -/

namespace Sys2Proof

theorem Params.w_pos (p : Params) : 0 < p.w := by cases h : p.width <;> simp [Params.w, DigitWidth.bits, h]

theorem Params.w_le (p : Params) : p.w ≤ 64 := by cases h : p.width <;> simp [Params.w, DigitWidth.bits, h]

end Sys2Proof

namespace Sys2Proof.Machine

/-- A number of at most `CAP` digits fits the 16-bit field `USED`. -/
theorem used_ofInt {p : Params} (hp : p.Ok) {v : Int} (h : diglen p.w v.natAbs ≤ p.cap) :
    (IntReg.ofInt p v).used.toNat = diglen p.w v.natAbs := by
  have := hp.1.2
  simp only [IntReg.ofInt, BitVec.toNat_ofNat]
  omega

/-- The canonical write holds the value written (spec/10_state.md R32, R34). -/
theorem val_ofInt {p : Params} (hp : p.Ok) {v : Int} (h : diglen p.w v.natAbs ≤ p.cap) :
    (IntReg.ofInt p v).val p.w = v := by
  have hm : (IntReg.ofInt p v).mag p.w = v.natAbs := by
    rw [IntReg.mag, used_ofInt hp h]
    simp only [IntReg.ofInt]
    rw [toDigits_take _ _ _ _ h, ofDigits_toDigits p.w_le, Nat.mod_eq_of_lt (lt_pow_diglen p.w_pos _)]
  rw [IntReg.val, hm]
  simp only [IntReg.ofInt, decide_eq_true_eq]
  split <;> omega

/-- The canonical write leaves a canonical register (spec/10_state.md R33, R34). -/
theorem canonical_ofInt {p : Params} (hp : p.Ok) {v : Int} (h : diglen p.w v.natAbs ≤ p.cap) :
    (IntReg.ofInt p v).canonical p.cap = true := by
  rw [IntReg.canonical, used_ofInt hp h]
  simp only [IntReg.ofInt, toDigits_getD, Bool.and_eq_true, decide_eq_true_eq]
  refine ⟨h, ?_⟩
  split
  · next h0 =>
    have := (diglen_le_iff p.w_pos v.natAbs 0).1 (by omega)
    simp at this; simp [this]
  · next h0 =>
    rw [if_pos (by omega)]
    have h1 := digit_top_ne_zero p.w_pos (x := v.natAbs) (by omega)
    rw [bne_iff_ne]
    intro hz
    have := congrArg BitVec.toNat hz
    rw [digit_word_toNat p.w_le] at this
    exact h1 (by simpa using this)

/-- The canonical write zeroes every digit above `USED` (spec/10_state.md R34). -/
theorem high_digits_ofInt {p : Params} (hp : p.Ok) {v : Int} (h : diglen p.w v.natAbs ≤ p.cap) {j : Nat}
    (hj : (IntReg.ofInt p v).used.toNat ≤ j) : (IntReg.ofInt p v).dig.getD j 0 = 0 := by
  rw [used_ofInt hp h] at hj
  simp only [IntReg.ofInt]
  rw [toDigits_getD, digit_eq_zero p.w_pos hj]
  simp

theorem wf_ofInt (p : Params) (v : Int) : (IntReg.ofInt p v).Wf p :=
  ⟨toDigits_length .., toDigits_lt p.w_le _ _⟩

/-- The field write holds the polynomial written (spec/10_state.md R36, R37). -/
theorem fval_ofPoly {p : Params} {x : Nat} (h : x < 2 ^ (p.w * (2 * p.fbDigs))) :
    (FieldReg.ofPoly p x).fval p.w (2 * p.fbDigs) = x := by
  simp only [FieldReg.fval, FieldReg.ofPoly]
  rw [toDigits_take _ _ _ _ le_rfl, ofDigits_toDigits p.w_le, Nat.mod_eq_of_lt h]

theorem wf_ofPoly (p : Params) (x : Nat) : (FieldReg.ofPoly p x).Wf p :=
  ⟨toDigits_length .., toDigits_lt p.w_le _ _⟩

/-- `raise E` writes no register and sets `STATUS` (spec/40_command_execution.md R116). -/
theorem raised_raise (s : State) (e : Err) : Raised s e (s.raise e) := by simp [Raised, Completes, SameAround]

/-- The commit of a result that fits (R117). -/
theorem wroteInt_commitInt {s : State} (hp : s.params.Ok) (rd : RegNum) {v : Int}
    (h : diglen s.params.w v.natAbs ≤ s.params.cap) : WroteInt s rd v (s.commitInt rd v) := by
  have hc : s.commitInt rd v = (s.setReg rd (IntReg.ofInt s.params v)).complete .ok := by
    rw [State.commitInt, if_neg (by omega)]
  rw [hc]
  refine ⟨?_, ?_, ?_, ?_, rfl, by simp [Completes, SameAround]⟩
  · simpa [State.val] using val_ofInt hp h
  · simpa [State.canonical] using canonical_ofInt hp h
  · intro j hj
    simp only [State.reg_complete, State.reg_setReg_self] at hj ⊢
    exact high_digits_ofInt hp h hj
  · intro n hn
    simpa using State.reg_setReg_ne s rd _ hn

/-- The commit of a result that does not fit raises `CAPACITY` (R117). -/
theorem raised_commitInt (s : State) (rd : RegNum) {v : Int} (h : s.params.cap < diglen s.params.w v.natAbs) :
    Raised s .capacity (s.commitInt rd v) := by
  rw [State.commitInt, if_pos h]
  exact raised_raise s _

/-- The commit of a field result that fits `2*FB_DIGS` digits (R117). -/
theorem wroteField_commitField (s : State) (rd : RegNum) {x : Nat}
    (h : x < 2 ^ (s.params.w * (2 * s.params.fbDigs))) : WroteField s rd x (s.commitField rd x) := by
  rw [State.commitField]
  refine ⟨?_, ?_, rfl, by simp [Completes, SameAround]⟩
  · simpa [State.product] using fval_ofPoly h
  · intro n hn
    simpa using State.freg_setFreg_ne s rd _ hn

/-- Everything the end of an integer command can be (R113, R115, R117). -/
theorem finishInt_cases (s : State) (srcs : List RegNum) (rd : RegNum) (res : Except Err Int) :
    (srcs.all s.canonical = false ∧ s.finishInt srcs rd res = s.raise .operand) ∨
    (srcs.all s.canonical = true ∧
      ((∃ e, res = .error e ∧ s.finishInt srcs rd res = s.raise e) ∨
        ∃ v, res = .ok v ∧ s.finishInt srcs rd res = s.commitInt rd v)) := by
  unfold State.finishInt
  cases srcs.all s.canonical with
  | false => exact .inl ⟨rfl, rfl⟩
  | true =>
    cases res with
    | error e => exact .inr ⟨rfl, .inl ⟨e, rfl, rfl⟩⟩
    | ok v => exact .inr ⟨rfl, .inr ⟨v, rfl, rfl⟩⟩

/-- However an integer command ends, `STATUS` is completed with some code (R116, R117). -/
theorem finishInt_status (s : State) (srcs : List RegNum) (rd : RegNum) (res : Except Err Int) :
    ∃ e, (s.finishInt srcs rd res).status = s.status.completed e := by
  obtain ⟨-, h⟩ | ⟨-, ⟨e, -, h⟩ | ⟨v, -, h⟩⟩ := finishInt_cases s srcs rd res <;> rw [h]
  · exact ⟨_, rfl⟩
  · exact ⟨e, rfl⟩
  · unfold State.commitInt
    split <;> exact ⟨_, rfl⟩

theorem finishInt_ok {s : State} {srcs : List RegNum} (h : srcs.all s.canonical = true) (rd : RegNum) (v : Int) :
    s.finishInt srcs rd (.ok v) = s.commitInt rd v := by simp [State.finishInt, h]

theorem finishInt_error {s : State} {srcs : List RegNum} (h : srcs.all s.canonical = true) (rd : RegNum) (e : Err) :
    s.finishInt srcs rd (.error e) = s.raise e := by simp [State.finishInt, h]

/-! The invariant through register writes. -/

theorem State.wf_reg {s : State} (h : s.Wf) (n : RegNum) : (s.reg n).Wf s.params := h.2.1 n.toFin

theorem State.wf_freg {s : State} (h : s.Wf) (n : RegNum) : (s.freg n).Wf s.params := h.2.2 n.toFin

theorem State.wf_setReg {s : State} (h : s.Wf) (n : RegNum) {r : IntReg} (hr : r.Wf s.params) : (s.setReg n r).Wf := by
  refine ⟨h.1, fun i => ?_, h.2.2⟩
  by_cases hi : n.toNat = i.val
  · have : (s.setReg n r).regs[i] = r := by simp [State.setReg, hi]
    rw [this]; exact hr
  · have : (s.setReg n r).regs[i] = s.regs[i] := by simp [State.setReg, Vector.getElem_set_ne, hi]
    rw [this]; exact h.2.1 i

theorem State.wf_setFreg {s : State} (h : s.Wf) (n : RegNum) {f : FieldReg} (hf : f.Wf s.params) :
    (s.setFreg n f).Wf := by
  refine ⟨h.1, h.2.1, fun i => ?_⟩
  by_cases hi : n.toNat = i.val
  · have : (s.setFreg n f).fregs[i] = f := by simp [State.setFreg, hi]
    rw [this]; exact hf
  · have : (s.setFreg n f).fregs[i] = s.fregs[i] := by simp [State.setFreg, Vector.getElem_set_ne, hi]
    rw [this]; exact h.2.2 i

/-- Every write through the aperture keeps the registers' form. -/
theorem State.wf_storeSlot {s : State} (h : s.Wf) (low : Bool) (v : Word) (x : SlotName) : (s.storeSlot low v x).Wf := by
  cases x with
  | cmd => cases low <;> exact h
  | used n => exact State.wf_setReg h n (State.wf_reg h n)
  | sign n => exact State.wf_setReg h n (State.wf_reg h n)
  | dig n j =>
    refine State.wf_setReg h n ⟨by simpa using (State.wf_reg h n).1, fun d hd => ?_⟩
    rcases List.mem_or_eq_of_mem_set hd with h1 | rfl
    · exact (State.wf_reg h n).2 d h1
    · exact lowDigit_lt v s.params.w_le
  | fdig n j =>
    refine State.wf_setFreg h n ⟨by simpa using (State.wf_freg h n).1, fun d hd => ?_⟩
    rcases List.mem_or_eq_of_mem_set hd with h1 | rfl
    · exact (State.wf_freg h n).2 d h1
    · exact lowDigit_lt v s.params.w_le
  | id | status | arg | ctrl | reserved => exact h

end Sys2Proof.Machine
end

