-- ==== Sys2Proof/Laws/Aperture.lean ====
section
/-! SUPPORT. Where the registers stand in the aperture (spec/20_memory.md R62, R63), and all that a host access can do
(R66, R67, R72). -/

namespace Sys2Proof.Machine

variable (p : Params) (n : RegNum)

@[simp] theorem slotAt_id : slotAt p 0x0 = .id := rfl
@[simp] theorem slotAt_cmd : slotAt p 0x8 = .cmd := rfl
@[simp] theorem slotAt_status : slotAt p 0x10 = .status := rfl
@[simp] theorem slotAt_arg : slotAt p 0x18 = .arg := rfl
@[simp] theorem slotAt_ctrl : slotAt p 0x20 = .ctrl := rfl

theorem ofNat_toNat_div (o : Nat) (h : o < 0x1000) : BitVec.ofNat 4 ((0x1000 * n.toNat + o) / 0x1000) = n := by
  have : (0x1000 * n.toNat + o) / 0x1000 = n.toNat := by omega
  rw [this]; simp

/-- The integer windows: byte `o` of the window of `R[n]` (R63). -/
theorem slotAt_intWindow (o : Nat) (h : o < 0x1000) : slotAt p (0x10000 + 0x1000 * n.toNat + o) = intSlot p n o := by
  have hn : n.toNat < 16 := n.isLt
  have h1 : ¬ 0x10000 + 0x1000 * n.toNat + o < 0x10000 := by omega
  have h2 : 0x10000 + 0x1000 * n.toNat + o < 0x20000 := by omega
  have h3 : 0x10000 + 0x1000 * n.toNat + o - 0x10000 = 0x1000 * n.toNat + o := by omega
  have h4 : (0x10000 + 0x1000 * n.toNat + o) % 0x1000 = o := by omega
  rw [slotAt, if_neg h1, if_pos h2, h3, h4, ofNat_toNat_div n o h]

/-- The field windows: byte `o` of the window of `F[n]` (R63). -/
theorem slotAt_fieldWindow (o : Nat) (h : o < 0x1000) :
    slotAt p (0x20000 + 0x1000 * n.toNat + o) = fieldSlot p n o := by
  have hn : n.toNat < 16 := n.isLt
  have h1 : ¬ 0x20000 + 0x1000 * n.toNat + o < 0x10000 := by omega
  have h2 : ¬ 0x20000 + 0x1000 * n.toNat + o < 0x20000 := by omega
  have h3 : 0x20000 + 0x1000 * n.toNat + o < 0x30000 := by omega
  have h4 : 0x20000 + 0x1000 * n.toNat + o - 0x20000 = 0x1000 * n.toNat + o := by omega
  have h5 : (0x20000 + 0x1000 * n.toNat + o) % 0x1000 = o := by omega
  rw [slotAt, if_neg h1, if_neg h2, if_pos h3, h4, h5, ofNat_toNat_div n o h]

theorem slotAt_used : slotAt p (0x10000 + 0x1000 * n.toNat) = .used n := by
  simpa [intSlot] using slotAt_intWindow p n 0 (by omega)

theorem slotAt_sign : slotAt p (0x10000 + 0x1000 * n.toNat + 0x8) = .sign n := by
  simpa [intSlot] using slotAt_intWindow p n 0x8 (by omega)

theorem slotAt_dig {j : Nat} (hp : p.Ok) (h : j < p.cap) :
    slotAt p (0x10000 + 0x1000 * n.toNat + 0x10 + 8 * j) = .dig n j := by
  have h1 := hp.1.2
  have h2 : 0x10000 + 0x1000 * n.toNat + 0x10 + 8 * j = 0x10000 + 0x1000 * n.toNat + (0x10 + 8 * j) := by omega
  have h3 : (0x10 + 8 * j - 0x10) / 8 = j := by omega
  rw [h2, slotAt_intWindow p n _ (by omega), intSlot, if_neg (by omega), if_neg (by omega), h3, if_pos h]

theorem slotAt_fdig {j : Nat} (hp : p.Ok) (h : j < 2 * p.fbDigs) :
    slotAt p (0x20000 + 0x1000 * n.toNat + 8 * j) = .fdig n j := by
  have h1 := hp.2.2.1
  have h3 : 8 * j / 8 = j := by omega
  rw [slotAt_fieldWindow p n _ (by omega), fieldSlot, h3, if_pos h]

theorem slotOffset_aligned {off : Nat} (h : off % 8 = 0) : slotOffset off = off := by simp [slotOffset, h]

/-- A slot of a register window stands at one of the offsets of R63. -/
theorem windowOffset_of_inWindow {off : Nat} (h8 : off % 8 = 0) (h : (slotAt p off).inWindow = true) :
    WindowOffset p off := by
  unfold slotAt at h
  split at h
  · unfold csrSlot at h; revert h; split <;> simp [SlotName.inWindow]
  · split at h
    · have hn : (BitVec.ofNat 4 ((off - 0x10000) / 0x1000)).toNat = (off - 0x10000) / 0x1000 := by simp; omega
      refine ⟨BitVec.ofNat 4 ((off - 0x10000) / 0x1000), ?_⟩
      rw [hn]
      unfold intSlot at h
      split at h
      · left; omega
      · split at h
        · right; left; omega
        · split at h
          · next hj => exact .inr (.inr (.inl ⟨_, hj, by omega⟩))
          · simp [SlotName.inWindow] at h
    · split at h
      · have hn : (BitVec.ofNat 4 ((off - 0x20000) / 0x1000)).toNat = (off - 0x20000) / 0x1000 := by simp; omega
        refine ⟨BitVec.ofNat 4 ((off - 0x20000) / 0x1000), ?_⟩
        rw [hn]
        unfold fieldSlot at h
        split at h
        · next hj => exact .inr (.inr (.inr ⟨_, hj, by omega⟩))
        · simp [SlotName.inWindow] at h
      · simp [SlotName.inWindow] at h

/-- The slots `CMD`, `STATUS` and `ARG` stand at one offset each (R62). -/
theorem offset_of_slotAt {off : Nat} :
    (slotAt p off = .cmd → off = 0x8) ∧ (slotAt p off = .status → off = 0x10) ∧ (slotAt p off = .arg → off = 0x18) := by
  unfold slotAt
  split
  · unfold csrSlot; split <;> simp
  · split
    · unfold intSlot; repeat' split
      all_goals simp
    · split
      · unfold fieldSlot; split <;> simp
      · simp

/-- The slots guarded while busy are `CMD`, `ARG` and those of the register windows (R72(a)). -/
theorem offset_of_guarded {off : Nat} (h8 : off % 8 = 0) (h : (slotAt p off).guarded = true) :
    off = 0x8 ∨ off = 0x18 ∨ WindowOffset p off := by
  cases hx : slotAt p off <;> rw [hx] at h <;> simp only [SlotName.guarded, Bool.false_eq_true] at h
  · exact .inl ((offset_of_slotAt p).1 hx)
  · exact .inr (.inl ((offset_of_slotAt p).2.2 hx))
  all_goals exact .inr (.inr (windowOffset_of_inWindow p h8 (by rw [hx]; rfl)))

/-- What a store does to `STATUS`: nothing, the write-1-to-clear, or an acceptance (R67). -/
theorem storeSlot_status (s : State) (low : Bool) (v : Word) (x : SlotName)
    (hx : s.status.busy = true → x.guarded = false) :
    (s.storeSlot low v x).status = s.status ∨
    (x = .status ∧ (s.storeSlot low v x).status = s.status.writeOneToClear v) ∨
    (x = .cmd ∧ low = true ∧ s.status.busy = false ∧ (s.storeSlot low v x).status = s.status.accepted) := by
  cases x <;> simp_all [State.storeSlot, SlotName.guarded]
  cases low <;> simp

/-- A low bit of two halves put together is a bit of the lower half (R67). -/
theorem getElem_halves (a b : BitVec 32) (i : Nat) (h : i < 32) : (a ++ b : Word)[i] = b[i] := by
  rw [BitVec.getElem_append, dif_pos h]

/-- The low half of two halves put together. -/
theorem setWidth_halves (a b : BitVec 32) : (a ++ b : Word).setWidth 32 = b := by
  apply BitVec.eq_of_getElem_eq
  intro i hi
  rw [BitVec.getElem_setWidth, BitVec.getLsbD_eq_getElem (by omega), getElem_halves a b i hi]

/-- A low bit of the lower half of a slot value is that bit of the value (R66). -/
theorem getElem_lowHalf (v : Word) (i : Nat) (h : i < 32) : (v.extractLsb' 0 32)[i] = v[i] := by
  rw [BitVec.getElem_extractLsb', BitVec.getLsbD_eq_getElem (by omega)]
  simp

/-- The bits of a `STATUS` read (spec/10_state.md R42). -/
@[simp] theorem Status.word_busy (st : Status) : st.word[0] = st.busy := by
  obtain ⟨b, d, h, e⟩ := st; cases b <;> cases d <;> cases h <;> cases e <;> rfl
@[simp] theorem Status.word_done (st : Status) : st.word[1] = st.done := by
  obtain ⟨b, d, h, e⟩ := st; cases b <;> cases d <;> cases h <;> cases e <;> rfl
@[simp] theorem Status.word_haz (st : Status) : st.word[2] = st.haz := by
  obtain ⟨b, d, h, e⟩ := st; cases b <;> cases d <;> cases h <;> cases e <;> rfl
@[simp] theorem Status.word_err (st : Status) : st.word.extractLsb' 8 4 = st.err.code := by
  obtain ⟨b, d, h, e⟩ := st; cases b <;> cases d <;> cases h <;> cases e <;> rfl

/-- Bit 0 of a `CTRL` read (R43). -/
@[simp] theorem ctrlWord_ie (ie : Bool) : (ctrlWord ie)[0] = ie := by cases ie <;> rfl

/-- The accepted sizes and alignments (R66). -/
theorem accepted_iff {off n : Nat} : accepted off n = true ↔ (n = 8 ∧ off % 8 = 0) ∨ (n = 4 ∧ off % 4 = 0) := by
  simp [accepted]

/-- All that a read can do: hand the host one reply, and draw one value while busy (R66, R71, R72). -/
theorem memRead_cases (s : State) (off n : Nat) :
    (∃ r, s.memRead off n = s.reply r) ∨ (∃ r, s.memRead off n = { s with draws := s.draws + 1 }.reply r) := by
  unfold State.memRead
  split
  · split
    · exact .inr ⟨_, rfl⟩
    · exact .inl ⟨_, rfl⟩
  · exact .inl ⟨_, rfl⟩

/-- All that a write can do: a bus error, a refusal that sets `HAZ`, or the store (R67, R69, R72). -/
theorem memWrite_cases (s : State) (off n : Nat) (v : Word) :
    (accepted off n = false ∧ s.memWrite off n v = s.reply .busError) ∨
    (accepted off n = true ∧ s.status.busy = true ∧ (slotAt s.params (slotOffset off)).guarded = true ∧
      s.memWrite off n v = { s with status := s.status.hazarded }.reply .written) ∨
    (accepted off n = true ∧ (s.status.busy = true → (slotAt s.params (slotOffset off)).guarded = false) ∧
      s.memWrite off n v = (s.storeSlot (coversLow off n)
        (mergePart off n (s.slotValue (slotAt s.params (slotOffset off))) v)
        (slotAt s.params (slotOffset off))).reply .written) := by
  unfold State.memWrite
  cases ha : accepted off n with
  | false => exact .inl ⟨rfl, by simp⟩
  | true =>
    simp only [if_true]
    cases hb : s.status.busy && (slotAt s.params (slotOffset off)).guarded with
    | true =>
      obtain ⟨h1, h2⟩ := Bool.and_eq_true_iff.1 hb
      exact .inr (.inl ⟨trivial, h1, h2, by simp⟩)
    | false => exact .inr (.inr ⟨trivial, fun h => by simpa [h] using hb, by simp⟩)

end Sys2Proof.Machine
end

