-- ==== Sys2Proof/Laws/Operands.lean ====
section
/-! SUPPORT. What a canonical register says about its value (spec/10_state.md R32, R33). -/

namespace Sys2Proof.Machine

theorem IntReg.canonical_iff (cap : Nat) (r : IntReg) :
    r.canonical cap = true ↔
      r.used.toNat ≤ cap ∧ (r.used.toNat = 0 → r.sign = false) ∧
        (0 < r.used.toNat → r.dig.getD (r.used.toNat - 1) 0 ≠ 0) := by
  unfold IntReg.canonical
  by_cases h : r.used.toNat = 0
  · simp [h]
  · simp only [h, if_false, Bool.and_eq_true, decide_eq_true_eq, bne_iff_ne, false_imp_iff, true_and]
    exact ⟨fun ⟨a, b⟩ => ⟨a, fun _ => b⟩, fun ⟨a, b⟩ => ⟨a, b (by omega)⟩⟩

/-- The magnitude of a register is below `B^USED`. -/
theorem IntReg.mag_lt {p : Params} {r : IntReg} (hw : r.Wf p) : r.mag p.w < 2 ^ (p.w * r.used.toNat) := by
  have h1 := ofDigits_lt p.w (r.dig.take r.used.toNat) fun d hd => hw.2 d (List.mem_of_mem_take hd)
  refine lt_of_lt_of_le h1 (Nat.pow_le_pow_right (by omega) (Nat.mul_le_mul_left _ ?_))
  simp [List.length_take]

/-- `USED` of a canonical register is the length of its magnitude. -/
theorem IntReg.diglen_mag {p : Params} {r : IntReg} (hw : r.Wf p) (hc : r.canonical p.cap = true) :
    diglen p.w (r.mag p.w) = r.used.toNat := by
  obtain ⟨h1, -, h3⟩ := (IntReg.canonical_iff _ _).1 hc
  apply Nat.le_antisymm
  · exact (diglen_le_iff p.w_pos _ _).2 (IntReg.mag_lt hw)
  · by_cases h0 : r.used.toNat = 0
    · omega
    by_contra hlt
    obtain ⟨k, hk⟩ : ∃ k, r.used.toNat = k + 1 := ⟨r.used.toNat - 1, by omega⟩
    have hlen := hw.1
    have hkl : k < r.dig.length := by omega
    have hm := (diglen_le_iff p.w_pos (r.mag p.w) k).1 (by omega)
    have hd : r.dig.getD k 0 = r.dig[k] := by simp [List.getD, hkl]
    have htop : (r.dig[k]).toNat ≠ 0 := by
      have := h3 (by omega)
      rw [hk, Nat.add_sub_cancel, hd] at this
      exact fun e => this (BitVec.eq_of_toNat_eq (by simpa using e))
    rw [IntReg.mag, hk, List.take_succ_eq_append_getElem hkl, ofDigits_append] at hm
    have hl : (r.dig.take k).length = k := by simp; omega
    simp only [ofDigits, hl, Nat.mul_zero, Nat.add_zero] at hm
    have : 2 ^ (p.w * k) * 1 ≤ 2 ^ (p.w * k) * (r.dig[k]).toNat := Nat.mul_le_mul_left _ (by omega)
    omega

theorem IntReg.natAbs_val (w : Nat) (r : IntReg) : (r.val w).natAbs = r.mag w := by
  unfold IntReg.val; split <;> omega

/-- A canonical register is negative exactly when `SIGN = 1`. -/
theorem IntReg.val_neg_iff {p : Params} {r : IntReg} (hw : r.Wf p) (hc : r.canonical p.cap = true) :
    r.val p.w < 0 ↔ r.sign = true := by
  have hd := IntReg.diglen_mag hw hc
  obtain ⟨-, h2, -⟩ := (IntReg.canonical_iff _ _).1 hc
  constructor
  · intro h
    by_contra hs
    simp only [IntReg.val, hs] at h
    simp at h; omega
  · intro hs
    have hpos : 0 < r.mag p.w := by
      by_contra h0
      have : r.mag p.w = 0 := by omega
      rw [this, diglen_zero p.w_pos] at hd
      rw [h2 hd.symm] at hs; cases hs
    simp only [IntReg.val, hs, if_true]; omega

/-- The length of a canonical register's value is within `CAP`. -/
theorem State.diglen_val_le {s : State} (hw : s.Wf) {n : RegNum} (hc : s.canonical n = true) :
    diglen s.params.w (s.val n).natAbs ≤ s.params.cap := by
  rw [State.val, IntReg.natAbs_val, IntReg.diglen_mag (State.wf_reg hw n) hc]
  exact ((IntReg.canonical_iff _ _).1 hc).1

/-- A canonical register read as one unsigned digit (spec/43_montgomery.md R172): its value when that is in `[0, B)`,
malformed otherwise. -/
theorem State.oneDigit_eq {s : State} (hw : s.Wf) {n : RegNum} (hc : s.canonical n = true) :
    (s.reg n).oneDigit =
      if s.val n < 0 ∨ 2 ^ s.params.w ≤ s.val n then none else some (s.val n).toNat := by
  have hwr := State.wf_reg hw n
  have hneg := IntReg.val_neg_iff hwr hc
  have hlen := IntReg.diglen_mag hwr hc
  have habs := IntReg.natAbs_val s.params.w (s.reg n)
  have hle := diglen_le_iff s.params.w_pos ((s.reg n).mag s.params.w) 1
  rw [hlen, Nat.mul_one] at hle
  have hval : s.val n = (s.reg n).val s.params.w := rfl
  unfold IntReg.oneDigit
  by_cases hs : (s.reg n).sign = true
  · rw [if_pos (.inl hs), if_pos (.inl (hval ▸ hneg.2 hs))]
  · have hnn : 0 ≤ s.val n := by rw [hval]; exact Int.not_lt.1 (fun h => hs (hneg.1 h))
    have hv : s.val n = ((s.reg n).mag s.params.w : Int) := by rw [hval] at hnn ⊢; omega
    by_cases hu : 1 < (s.reg n).used.toNat
    · have : ¬ (s.reg n).mag s.params.w < 2 ^ s.params.w := fun h => by have := hle.2 h; omega
      rw [if_pos (.inr hu), if_pos (.inr (by rw [hv]; exact_mod_cast Nat.not_lt.1 this))]
    · have hlt := hle.1 (by omega)
      have hL : ¬ ((s.reg n).sign = true ∨ 1 < (s.reg n).used.toNat) := by rintro (h | h); exacts [hs h, hu h]
      have hR : ¬ (s.val n < 0 ∨ 2 ^ s.params.w ≤ s.val n) := by
        rintro (h | h)
        · exact absurd hnn (by omega)
        · rw [hv] at h; exact absurd hlt (by exact_mod_cast Nat.not_lt.2 (by exact_mod_cast h))
      rw [if_neg hL, if_neg hR, hv, Int.toNat_natCast]
      congr 1
      by_cases h0 : (s.reg n).used.toNat = 0
      · rw [if_pos h0, IntReg.mag, h0]; simp [ofDigits]
      · have h1 : (s.reg n).used.toNat = 1 := by omega
        have hcap := hw.1.1.1
        rw [if_neg h0, IntReg.mag, h1]
        obtain ⟨d, ds, hds⟩ : ∃ d ds, (s.reg n).dig = d :: ds := by
          cases hdd : (s.reg n).dig with
          | nil => have := hwr.1; rw [hdd] at this; simp at this; omega
          | cons d ds => exact ⟨d, ds, rfl⟩
        simp [hds, ofDigits]

/-- The element of a field register is below `2^(FB_DIGS*W)` (spec/10_state.md R36). -/
theorem FieldReg.fval_lt {p : Params} {f : FieldReg} (hw : f.Wf p) (n : Nat) : f.fval p.w n < 2 ^ (p.w * n) := by
  have h1 := ofDigits_lt p.w (f.fdig.take n) fun d hd => hw.2 d (List.mem_of_mem_take hd)
  refine lt_of_lt_of_le h1 (Nat.pow_le_pow_right (by omega) (Nat.mul_le_mul_left _ ?_))
  simp [List.length_take]

end Sys2Proof.Machine
end

