-- ==== Sys2Proof/Laws/PerInstr.lean ====
section
/-! SUPPORT. The family FieldsWellFormed: the fields of every instruction spell a legal command
(spec/30_encoding.md R93), one lemma per constructor. -/

namespace Sys2Proof.Laws.FieldsWellFormed

/-- The instruction's fields pass the three checks of R93 and R96, whatever its operands. -/
def Statement (i : Instr) : Prop := i.wellFormed = true

theorem mod2b (rd ra : RegNum) : Statement (.mod2b rd ra) := rfl
theorem moddig (rd ra rb : RegNum) : Statement (.moddig rd ra rb) := rfl
theorem modbasic (rd ra rb : RegNum) : Statement (.modbasic rd ra rb) := rfl
theorem bsetup (rd rb : RegNum) : Statement (.bsetup rd rb) := rfl
theorem bred (rd ra rb rc : RegNum) : Statement (.bred rd ra rb rc) := rfl
theorem msetup (rd rb : RegNum) : Statement (.msetup rd rb) := rfl
theorem mto (rd ra rb : RegNum) : Statement (.mto rd ra rb) := rfl
theorem mfrom (rd ra rb : RegNum) : Statement (.mfrom rd ra rb) := rfl
theorem mred (rd ra rb rc : RegNum) : Statement (.mred rd ra rb rc) := rfl
theorem rchk (rd rb : RegNum) : Statement (.rchk rd rb) := rfl
theorem rsetup (rd rb : RegNum) : Statement (.rsetup rd rb) := rfl
theorem rred (rd ra rb rc : RegNum) : Statement (.rred rd ra rb rc) := rfl
theorem fmul1 (rd ra rb : RegNum) : Statement (.fmul1 rd ra rb) := rfl
theorem fmulf (rd ra rb : RegNum) : Statement (.fmulf rd ra rb) := rfl
theorem fmulr (rd ra rb : RegNum) : Statement (.fmulr rd ra rb) := rfl

end Sys2Proof.Laws.FieldsWellFormed
end

