-- ==== Sys2Proof/Laws/Step.lean ====
section
/-! SUPPORT. All that one step can be. -/

namespace Sys2Proof.Machine

/-- One step is a turn of the host, of the engine, or of the reset input. -/
theorem step_cases (s : State) :
    (s.nextTurn = .host ∧ step s = s.popTurn.hostTurn) ∨
    (s.nextTurn = .engine ∧ step s = s.popTurn.engineTurn) ∨
    (s.nextTurn = .reset ∧ step s = .next s.popTurn.resetEvent) := by
  unfold step
  cases h : s.nextTurn with
  | host => exact .inl ⟨rfl, rfl⟩
  | engine => exact .inr (.inl ⟨rfl, rfl⟩)
  | reset => exact .inr (.inr ⟨rfl, rfl⟩)

/-- The engine's turn: a command, an illegal word, or nothing while idle. -/
theorem engineTurn_cases (s : State) :
    (s.status.busy = true ∧ ∃ i, decode s.cmd = .ok i ∧ s.engineTurn = exec i s) ∨
    (s.status.busy = true ∧ ∃ e, decode s.cmd = .error e ∧ s.engineTurn = .next (s.raise .illegal)) ∨
    (s.status.busy = false ∧ s.engineTurn = .next s) := by
  unfold State.engineTurn State.completion
  cases hb : s.status.busy with
  | false => exact .inr (.inr ⟨rfl, by simp⟩)
  | true =>
    cases hd : decode s.cmd with
    | ok i => exact .inl ⟨rfl, i, rfl, by simp⟩
    | error e => exact .inr (.inl ⟨rfl, e, rfl, by simp⟩)

/-- An offset is that of an address in the aperture (R61). -/
theorem State.offset_cases (s : State) (addr : Nat) :
    (∃ off, off < 0x40000 ∧ addr = s.params.base + off ∧ s.offset addr = some off) ∨
    (¬(s.params.base ≤ addr ∧ addr < s.params.base + 0x40000) ∧ s.offset addr = none) := by
  unfold State.offset
  split
  · next h => exact .inl ⟨addr - s.params.base, by omega, by omega, rfl⟩
  · next h => exact .inr ⟨h, rfl⟩

/-- All that an access of the host can be: outside the aperture, refused with a bus error, or performed at its offset
(R61, R69). -/
theorem State.hostAccess_cases (s : State) (addr n : Nat) (f : Nat → State) :
    (¬(s.params.base ≤ addr ∧ addr < s.params.base + 0x40000) ∧
      s.hostAccess addr n f = .fault (.outsideAperture addr)) ∨
    (∃ off, off < 0x40000 ∧ addr = s.params.base + off ∧ accepted off n = false ∧
      s.hostAccess addr n f = .fault (.busError addr n)) ∨
    (∃ off, off < 0x40000 ∧ addr = s.params.base + off ∧ accepted off n = true ∧
      s.hostAccess addr n f = .next (f off)) := by
  unfold State.hostAccess
  obtain ⟨off, hl, ha, h⟩ | ⟨ho, h⟩ := s.offset_cases addr <;> rw [h]
  · cases hc : accepted off n with
    | false => exact .inr (.inl ⟨off, hl, ha, hc, by simp [hc]⟩)
    | true => exact .inr (.inr ⟨off, hl, ha, hc, by simp [hc]⟩)
  · exact .inl ⟨ho, rfl⟩

/-- The host's turn: nothing to do, an access that faults, a read, a write, or a poll. -/
theorem hostTurn_cases (s : State) :
    (s.host = [] ∧ s.hostTurn = .next s) ∨
    (∃ op rest, s.host = op :: rest ∧
      ((∃ addr n, (op = .read addr n ∨ ∃ v, op = .write addr n v) ∧
          ((¬(s.params.base ≤ addr ∧ addr < s.params.base + 0x40000) ∧
              s.hostTurn = .fault (.outsideAperture addr)) ∨
            ∃ off, off < 0x40000 ∧ addr = s.params.base + off ∧ accepted off n = false ∧
              s.hostTurn = .fault (.busError addr n))) ∨
        (∃ off n, s.hostTurn = .next ({ s with host := rest }.memRead off n)) ∨
        (∃ off n v, op = .write (s.params.base + off) n v ∧ off < 0x40000 ∧ accepted off n = true ∧
          s.hostTurn = .next ({ s with host := rest }.memWrite off n v)) ∨
        (op = .poll ∧ s.status.busy = true ∧
          s.hostTurn = .next { ({ s with host := rest } : State).memRead 0x10 8 with host := op :: rest }))) := by
  unfold State.hostTurn
  cases hh : s.host with
  | nil => exact .inl ⟨rfl, rfl⟩
  | cons op rest =>
    refine .inr ⟨op, rest, rfl, ?_⟩
    cases op with
    | read addr n =>
      obtain ⟨ho, h⟩ | ⟨off, hl, ha, hc, h⟩ | ⟨off, -, -, -, h⟩ :=
        State.hostAccess_cases { s with host := rest } addr n
          fun off => ({ s with host := rest } : State).memRead off n
      · exact .inl ⟨addr, n, .inl rfl, .inl ⟨ho, h⟩⟩
      · exact .inl ⟨addr, n, .inl rfl, .inr ⟨off, hl, ha, hc, h⟩⟩
      · exact .inr (.inl ⟨off, n, h⟩)
    | write addr n v =>
      obtain ⟨ho, h⟩ | ⟨off, hl, ha, hc, h⟩ | ⟨off, hl, ha, hc, h⟩ :=
        State.hostAccess_cases { s with host := rest } addr n
          fun off => ({ s with host := rest } : State).memWrite off n v
      · exact .inl ⟨addr, n, .inr ⟨v, rfl⟩, .inl ⟨ho, h⟩⟩
      · exact .inl ⟨addr, n, .inr ⟨v, rfl⟩, .inr ⟨off, hl, ha, hc, h⟩⟩
      · exact .inr (.inr (.inl ⟨off, n, v, by rw [ha], hl, hc, h⟩))
    | poll =>
      simp only [State.hostOp]
      cases hb : s.status.busy with
      | false => exact .inr (.inl ⟨0x10, 8, by simp⟩)
      | true => exact .inr (.inr (.inr ⟨trivial, rfl, by simp⟩))

/-- Every command ends in a next state. -/
theorem exec_next (i : Instr) (s : State) : ∃ t, exec i s = .next t := by cases i <;> exact ⟨_, rfl⟩

/-- Every command completes `STATUS` with some code (R116, R117). -/
theorem exec_status {i : Instr} {s t : State} (h : exec i s = .next t) : ∃ e, t.status = s.status.completed e := by
  cases i <;> cases h
  all_goals first
    | exact finishInt_status _ _ _ _
    | exact ⟨_, rfl⟩

/-- A busy engine's turn is a completion: a next state with `STATUS` completed (R111). -/
theorem engineTurn_completes {s : State} (hb : s.status.busy = true) :
    ∃ t e, s.engineTurn = .next t ∧ t.status = s.status.completed e := by
  obtain ⟨-, i, -, h⟩ | ⟨-, _, -, h⟩ | ⟨hi, -⟩ := engineTurn_cases s
  · obtain ⟨t, ht⟩ := exec_next i s
    obtain ⟨e, he⟩ := exec_status ht
    exact ⟨t, e, h.trans ht, he⟩
  · exact ⟨_, _, h, rfl⟩
  · simp [hb] at hi

end Sys2Proof.Machine
end

