-- ==== Sys2Proof/Tests/Slice0.lean ====
section
/-! SUPPORT. The model's own tests: words, values and host accesses from spec/95_test_vectors.md, ill-formed terms that
the checks refuse, and for every obligation with hypotheses a state and operands that meet them. -/

namespace Sys2Proof.Tests

open Sys2Proof
open Sys2Proof.Machine

/-! States to test on. -/

/-- An idle engine whose registers all hold 0, every digit written. -/
def blank (p : Params) : State :=
  { params := p
    regs := Vector.replicate 16 (IntReg.ofInt p 0)
    fregs := Vector.replicate 16 (FieldReg.ofPoly p 0)
    cmd := 0
    status := { busy := false, done := false, haz := false, err := .ok }
    arg := 0
    ie := false
    host := []
    turns := []
    replies := []
    draws := 0 }

/-- The blank engine of configuration `p` with the given integers loaded. -/
def ints (p : Params) (l : List (RegNum × Int)) : State :=
  l.foldl (fun s e => s.setReg e.1 (IntReg.ofInt p e.2)) (blank p)

/-- The blank engine of configuration `p` with the given polynomials loaded. -/
def polys (p : Params) (l : List (RegNum × Nat)) : State :=
  l.foldl (fun s e => s.setFreg e.1 (FieldReg.ofPoly p e.2)) (blank p)

/-- The error code of an integer command and the value of its destination after it. -/
def result (i : Instr) (s : State) : Option (Err × Int) :=
  match exec i s with
  | .next t => some (t.status.err, t.val i.rd)
  | .fault _ => none
  | .refused _ => none

/-- The error code of a field command and the whole of its destination after it. -/
def fieldResult (i : Instr) (s : State) : Option (Err × Nat) :=
  match exec i s with
  | .next t => some (t.status.err, t.product i.rd)
  | .fault _ => none
  | .refused _ => none

/-- The error code after a step that runs the word `w`. -/
def errAfterWord (w : Nat) : Option Err :=
  match step (State.reset.withFetchWord 32 w) with
  | .next t => some t.status.err
  | .fault _ => none
  | .refused _ => none

/-! Decoding: the words of spec/95_test_vectors.md section 2.2, and the illegal ones of section 2.1. -/

theorem test_decode_mod2b : decode 0x00000841 = .ok (.mod2b 1 2) := rfl
theorem test_decode_moddig : decode 0x0000C842 = .ok (.moddig 1 2 3) := rfl
theorem test_decode_modbasic : decode 0x0000C843 = .ok (.modbasic 1 2 3) := rfl
theorem test_decode_bsetup : decode 0x0000C104 = .ok (.bsetup 4 3) := rfl
theorem test_decode_bred : decode 0x0010C945 = .ok (.bred 5 2 3 4) := rfl
theorem test_decode_msetup : decode 0x0000C106 = .ok (.msetup 4 3) := rfl
theorem test_decode_mto : decode 0x0000C847 = .ok (.mto 1 2 3) := rfl
theorem test_decode_mfrom : decode 0x0000C848 = .ok (.mfrom 1 2 3) := rfl
theorem test_decode_mred : decode 0x0010C949 = .ok (.mred 5 2 3 4) := rfl
theorem test_decode_rchk : decode 0x0000C10A = .ok (.rchk 4 3) := rfl
theorem test_decode_rsetup : decode 0x0000C10B = .ok (.rsetup 4 3) := rfl
theorem test_decode_rred : decode 0x0010C94C = .ok (.rred 5 2 3 4) := rfl
theorem test_decode_fmul1 : decode 0x00004090 = .ok (.fmul1 2 0 1) := rfl
theorem test_decode_fmulf : decode 0x00004091 = .ok (.fmulf 2 0 1) := rfl
theorem test_decode_fmulr : decode 0b00000000000000110111101111010010 = .ok (.fmulr 15 14 13) := rfl
theorem test_encode_bred : encode (.bred 5 2 3 4) = 0x0010C945 := rfl

theorem test_illegal_zero : decode 0x00000000 = .error .reservedOpcode := rfl
theorem test_illegal_opcode_0d : decode 0x0000000D = .error .reservedOpcode := rfl
theorem test_illegal_opcode_13 : decode 0x00000013 = .error .reservedOpcode := rfl
theorem test_illegal_unused_rb : decode 0x00004001 = .error .unusedField := rfl
theorem test_illegal_rsv_22 : decode 0x00400001 = .error .reservedField := rfl
theorem test_illegal_rsv_31 : decode 0x80000011 = .error .reservedField := rfl
theorem test_illegal_unused_rc : decode 0x00040051 = .error .unusedField := rfl
theorem test_illegal_word_completes : errAfterWord 0x0050C945 = some .illegal := by decide
theorem test_word_runs_first : errAfterWord 0x003FFFC5 = some .invalidModulus := by decide
theorem test_table_word : decodeTableWord 32 0x0010C945 = some (.bred 5 2 3 4) := rfl

/-! Well-formedness: an ill-formed term for each check. -/

theorem test_fields_ok : (fieldsOf 0x0010C945).wellFormed = true := by decide
theorem test_refuses_opcode : (Fields.mk 0x0D 1 0 0 0 0).wellFormed = false := by decide
theorem test_refuses_unused : (Fields.mk 0x01 1 2 3 0 0).wellFormed = false := by decide
theorem test_refuses_reserved : (Fields.mk 0x05 1 2 3 4 1).wellFormed = false := by decide
theorem test_params_ok : Params.t8.Ok ∧ Params.t8l.Ok ∧ Params.t64.Ok := by decide
theorem test_refuses_cap_0 : ¬Params.Ok { Params.t8 with cap := 0 } := by decide
theorem test_refuses_cap_511 : ¬Params.Ok { Params.t8 with cap := 511 } := by decide
theorem test_refuses_degree_0 : ¬Params.Ok { Params.t8 with fbBits := 0, fbPoly := 1 } := by decide
theorem test_refuses_fb_digs_257 :
    ¬Params.Ok { Params.t8 with fbBits := 2049, fbPoly := 2 ^ 2049 + 1 } := by decide
theorem test_refuses_poly_degree : ¬Params.Ok { Params.t8 with fbPoly := 0x1FFF } := by decide
theorem test_refuses_base : ¬Params.Ok { Params.t8 with base := 0x20000 } := by decide

/-! Values: spec/95_test_vectors.md sections 2.3 to 2.7, at most two for each command. -/

theorem test_mod2b_keeps_sign :
    result (.mod2b 0 1) { ints .t8 [(1, -0x12345)] with arg := 12 } = some (.ok, -0x345) := by decide
theorem test_mod2b_boundary_digit :
    result (.mod2b 1 1) { ints .t8 [(1, 0x12345)] with arg := 16 } = some (.ok, 0x2345) := by decide
theorem test_moddig_euclidean : result (.moddig 0 1 2) (ints .t8 [(1, -1000), (2, 7)]) = some (.ok, 1) := by
  decide
theorem test_moddig_two_digits : result (.moddig 0 1 2) (ints .t8 [(1, 7), (2, 0x100)]) = some (.operand, 0) := by
  decide
theorem test_modbasic_negative :
    result (.modbasic 0 1 2) (ints .t8 [(1, -0x123456789ABCDEF), (2, 0x1234)]) = some (.ok, 0x57D) := by decide
theorem test_modbasic_zero : result (.modbasic 0 1 2) (ints .t8 [(1, 7)]) = some (.divisionByZero, 0) := by
  decide
theorem test_bsetup_in_place : result (.bsetup 1 1) (ints .t8 [(1, 0x1234)]) = some (.ok, 0x0E1042) := by
  decide
theorem test_bsetup_capacity : result (.bsetup 0 1) (ints .t8 [(1, 2 ^ 48)]) = some (.capacity, 0) := by
  decide
theorem test_bred_two_subtractions :
    result (.bred 0 1 2 3) (ints .t8 [(1, 0x80739FC6), (2, 0x113), (3, 0xEE500E)]) = some (.ok, 0x28) := by
  decide
theorem test_bred_stale :
    result (.bred 0 1 2 3) (ints .t8 [(1, 0xABCDEF), (2, 0x1234), (3, 0x2000000)]) = some (.ok, 0x7F7) := by
  decide +kernel
theorem test_msetup : result (.msetup 0 1) (ints .t8 [(1, 0x1235)]) = some (.ok, 0xE3) := by decide
theorem test_msetup_t64 :
    result (.msetup 0 1) (ints .t64 [(1, 2 ^ 255 - 19)]) = some (.ok, 0x86BCA1AF286BCA1B) := by decide +kernel
theorem test_mto_negative : result (.mto 0 1 2) (ints .t8 [(1, -5), (2, 0x1235)]) = some (.ok, 0xCB3) := by
  decide
theorem test_mto_even : result (.mto 0 1 2) (ints .t8 [(1, 5), (2, 0x1234)]) = some (.ok, 0x5C8) := by decide
theorem test_mfrom : result (.mfrom 0 1 2) (ints .t8 [(1, 0x1234FFFF), (2, 0x1235)]) = some (.ok, 0x36C) := by
  decide
theorem test_mfrom_range : result (.mfrom 0 1 2) (ints .t8 [(1, 0xFFFFFFFF), (2, 0x1235)]) = some (.range, 0) := by
  decide
theorem test_mred_wrong_context :
    result (.mred 0 1 2 3) (ints .t8 [(1, 0xABCDEF), (2, 0x1235), (3, 0x12)]) = some (.ok, 0x392) := by decide
theorem test_mred_range :
    result (.mred 0 1 2 3) (ints .t8 [(1, 0x1010101), (2, 0x101), (3, 0xFF)]) = some (.range, 0) := by decide
theorem test_rchk_shape : result (.rchk 0 1) (ints .t8 [(1, 0x3FFFFFFFFFFFFF01)]) = some (.ok, 1) := by decide
theorem test_rchk_digit_zero : result (.rchk 0 1) (ints .t8 [(0, 9), (1, 0x1FF00)]) = some (.ok, 0) := by
  decide
theorem test_rsetup : result (.rsetup 0 1) (ints .t8 [(1, 0xFF01)]) = some (.ok, 0xFF) := by decide
theorem test_rsetup_shape : result (.rsetup 0 1) (ints .t8 [(1, 0xFFFFFEFFFFFFFFFB)]) = some (.invalidModulus, 0) := by
  decide
theorem test_rred :
    result (.rred 0 1 2 3) (ints .t8 [(1, 0xFFFFFFFFFF), (2, 0x1FFF9), (3, 7)]) = some (.ok, 0xC3F) := by decide
theorem test_rred_wrong_context : result (.rred 0 1 2 3) (ints .t8 [(1, 8), (2, 5), (3, 7)]) = some (.ok, 2) := by
  decide
theorem test_fmul1_digit_0 :
    fieldResult (.fmul1 0 1 2) (polys .t8 [(1, 0x1ABC), (2, 0x55EF)]) = some (.ok, 0x83654) := by decide
theorem test_fmul1_top : fieldResult (.fmul1 0 1 2) (polys .t8 [(1, 0xFFFF), (2, 0xFF)]) = some (.ok, 0x550055) := by
  decide
theorem test_fmulf_low_digits :
    fieldResult (.fmulf 0 1 2) (polys .t8 [(1, 0xAB1ABC), (2, 0xDEF)]) = some (.ok, 0xAD9A54) := by decide
theorem test_fmulr_in_place : fieldResult (.fmulr 1 1 1) (polys .t8 [(1, 0x1ABC)]) = some (.ok, 0x847) := by
  decide
theorem test_fmulr_t64 :
    fieldResult (.fmulr 0 1 1) (polys .t64 [(1, 2 ^ 126)]) =
      some (.ok, 0x60000000000000000000000000000000) := by decide +kernel

/-- A register of value 0 with `SIGN` 1, and one with a zero top digit, are refused (section 2.1). -/
theorem test_negative_zero_refused :
    result (.mod2b 0 1) ((blank .t8).setReg 1 { IntReg.ofInt .t8 0 with sign := true }) = some (.operand, 0) := by
  decide
theorem test_zero_top_digit_refused :
    result (.bred 0 1 2 3) ((ints .t8 [(1, 5)]).setReg 2 { IntReg.ofInt .t8 1 with used := 3 }) = some (.operand, 0) := by
  decide

/-- The result of a command zeroes the digits above it (R34; P1 of section 3). -/
theorem test_result_is_trimmed :
    (IntReg.ofInt .t8 0x32F) = { sign := false, used := 2, dig := [0x2F, 0x03, 0, 0, 0, 0, 0, 0] } := by decide

/-- The realizations: the comb rows of R212 and the trace of R213. -/
theorem test_comb_row : combRow 0xDEF 0xB = 0x7949 := by decide
theorem test_comb : combMul 8 2 0x1ABC 0xDEF = 0xAD9A54 := by decide

/-! Host accesses: R40, R62 to R72, R110, R240. -/

/-- The engine of T8 with the command `bsetup r5, r1` of P5 in flight. -/
def busyEngine : State := (ints .t8 [(1, 0x1234)]).memWrite 0x8 4 0x4144

theorem test_id : (blank .t8).memRead 0x0 8 = (blank .t8).reply (.data8 0x01000D0002000808) := by decide
theorem test_accept : busyEngine.cmd = 0x4144 ∧ busyEngine.status.word = 1 := by decide
theorem test_upper_half_starts_nothing : ((blank .t8).memWrite 0xC 4 0x841).status.busy = false := by decide
theorem test_upper_half_of_digit :
    (((ints .t64 [(3, 0x123456789)]).memWrite 0x13014 4 0xAB).reg 3).dig.getD 0 0 = 0xAB23456789 := by decide
theorem test_ctrl_reads_ie : ((blank .t8).memWrite 0x20 8 0xFFFFFFFFFFFFFFFF).memRead 0x20 8 =
    ((blank .t8).memWrite 0x20 8 1).reply (.data8 1) := by decide
theorem test_digit_write_keeps_low_bits :
    (((blank .t8).memWrite 0x13018 8 0x1234).reg 3).dig.getD 1 0 = 0x34 := by decide
theorem test_arg_upper_half : ((blank .t8).memWrite 0x1C 4 0x80000000).arg = 0x8000000000000000 := by decide
theorem test_misaligned : ((blank .t8).memWrite 0x1A 4 1).replies = [.busError] := by decide
theorem test_misaligned_faults : step { blank .t8 with host := [.write 0x1A 4 1] } = .fault (.busError 0x1A 4) := rfl
theorem test_reserved_reads_zero : ((blank .t8).memRead 0x28 8).replies = [.data8 0] := by decide
theorem test_busy_write_refused :
    (busyEngine.memWrite 0x11010 8 0x35).status.word = 5 ∧ (busyEngine.memWrite 0x11010 8 0x35).val 1 = 0x1234 := by
  decide
theorem test_haz_cleared : (({ busyEngine with status := busyEngine.status.hazarded }).memWrite 0x10 8 4).status.haz =
    false := by decide
theorem test_err_codes : Err.ok.code = 0 ∧ Err.invalidModulus.code = 1 ∧ Err.divisionByZero.code = 2 ∧
    Err.capacity.code = 3 ∧ Err.operand.code = 4 ∧ Err.range.code = 5 ∧ Err.illegal.code = 6 := by decide
theorem test_host_reads : ∃ t, step { ints .t8 [(4, 0x32F)] with host := [.read 0x14010 8] } = .next t ∧
    t.replies = [.data8 0x2F] ∧ t.host = [] := ⟨_, rfl, by decide⟩
theorem test_error_status : ((busyEngine.complete .invalidModulus).memRead 0x10 8).replies.head? =
    some (.data8 0x102) := by decide
theorem test_irq : ({ busyEngine.complete .ok with ie := true }).irq = true ∧ (busyEngine.complete .ok).irq = false := by
  decide
theorem test_reset_busy : busyEngine.resetEvent.status.word = 0 ∧ busyEngine.resetEvent.val 1 = 0 := by decide
theorem test_ldi : ldi .t8 1 0x1234 =
    [.write 0x11010 8 0x34, .write 0x11018 8 0x12, .write 0x11008 8 0, .write 0x11000 8 2] := by decide


/-! Witnesses: for each obligation with hypotheses, a state and operands that meet them, each clause at a boundary. -/

/-- A T8 engine with operands for every command loaded; `r0` holds 0. -/
def demo : State :=
  (ints .t8
    ([(1, 0x1234), (2, 0xABCDEF), (3, 0x0E1042), (4, 0x1235), (5, 0xE3), (6, -5), (7, 0x1FFF9), (8, 7)] ++
      [(9, 0xFFFFFFFF), (10, 0x100), (11, 2 ^ 63), (12, 2 ^ 48), (13, 0xFB), (14, 1), (15, 0x1FF00)])).setFreg 1
    (FieldReg.ofPoly .t8 0x1ABC)

/-- The demonstration engine with the word `w` accepted. -/
def demoBusy (w : CmdWord) : State := demo.accept w

theorem blank_wf {p : Params} (hp : p.Ok) : (blank p).Wf :=
  ⟨hp, fun i => by simpa [blank] using wf_ofInt p 0, fun i => by simpa [blank] using wf_ofPoly p 0⟩
theorem ints_wf {p : Params} (l : List (RegNum × Int)) {s : State} (hs : s.Wf) (hp : s.params = p) :
    (l.foldl (fun s e => s.setReg e.1 (IntReg.ofInt p e.2)) s).Wf := by
  induction l generalizing s with
  | nil => exact hs
  | cons e l ih => exact ih (State.wf_setReg hs _ (hp ▸ wf_ofInt _ _)) hp
theorem demo_wf : demo.Wf := State.wf_setFreg (ints_wf _ (blank_wf (by decide)) rfl) _ (wf_ofPoly _ _)
theorem accept_wf {s : State} (h : s.Wf) (w : CmdWord) : (s.accept w).Wf := h
theorem same_but_arg (s : State) : SameInputs s { s with arg := 5, ie := true } (.bred 3 2 1 3) := ⟨rfl, rfl, rfl, rfl⟩
theorem same_but_arg_field (s : State) : SameInputs s { s with arg := 5, ie := true } (.fmulr 2 1 1) := ⟨rfl, rfl, rfl⟩
theorem demo_canonical : ∀ n : Fin 16, demo.canonical (BitVec.ofFin n) = true := by decide
theorem demo_idle : demo.status.busy = false := rfl

theorem witness_row_fits : (OpcodeRow.mk "BRED" 0xFFC0003F 0x00000005) ∈ opcodeMap ∧
    (OpcodeRow.mk "BRED" 0xFFC0003F 0x00000005).fits 0x0010C945 = true := by decide
theorem witness_no_row_fits : (demoBusy 0x13).status.busy = true ∧
    ∀ r ∈ opcodeMap, r.fits (demoBusy 0x13).cmd = false := by decide
theorem witness_illegal_words :
    (fieldsOf (demoBusy 0).cmd).opc.toNat = 0 ∧ (fieldsOf (demoBusy 0x0D).cmd).opc.toNat = 0x0D ∧
    (fieldsOf (demoBusy 0x0F).cmd).opc.toNat = 0x0F ∧ (fieldsOf (demoBusy 0x13).cmd).opc.toNat = 0x13 ∧
    (fieldsOf (demoBusy 0x4001).cmd).unusedZero = false ∧ (fieldsOf (demoBusy 0x400005).cmd).rsv ≠ 0 := by decide
theorem witness_step_runs : (demo.withCommand 0x841).nextTurn = .engine ∧
    (demo.withCommand 0x841).status.busy = true ∧ decode (demo.withCommand 0x841).cmd = .ok (.mod2b 1 2) :=
  ⟨rfl, rfl, rfl⟩
theorem witness_host_turns :
    ({ demo with host := [.read 0x3FFF8 8] } : State).nextTurn = .host ∧ 0x3FFF8 < 0x40000 ∧
    HostOp.read 0x3FFF8 8 = .read (demo.params.base + 0x3FFF8) 8 ∧
    HostOp.write 0x3FFFC 4 1 = .write (demo.params.base + 0x3FFFC) 4 1 ∧
    ({ demo with host := [.poll] } : State).nextTurn = .host ∧
    ({ demoBusy 0x841 with host := [.poll], turns := [.host] } : State).nextTurn = .host ∧
    demo.nextTurn = .host ∧ demo.host = [] := by decide
theorem witness_idle_and_busy : demo.status.busy = false ∧ (demoBusy 0x841).status.busy = true := ⟨rfl, rfl⟩
theorem witness_reset_turn : ({ demoBusy 0x841 with turns := [.reset] } : State).nextTurn = .reset := rfl
theorem witness_completes : (demoBusy 0x841).status.busy = true ∧ (demoBusy 0x841).host = [] ∧
    Turn.reset ∉ ({ demoBusy 0x841 with turns := [.host, .host] } : State).turns := ⟨rfl, rfl, by decide⟩

theorem witness_moddig :
    (demo.reg 6).sign = true ∧ (demo.reg 1).used.toNat = 2 ∧ (demo.reg 0).used.toNat = 0 ∧
    (demo.reg 14).used.toNat = 1 ∧ (demo.reg 14).sign = false ∧ (demo.reg 0).sign = false := by decide
theorem witness_signs : demo.val 0 = 0 ∧ demo.val 6 < 0 ∧ demo.val 14 = 1 := by decide
theorem witness_bsetup :
    0 < demo.val 12 ∧ demo.params.cap < diglen demo.params.w (2 ^ (8 * (2 * 7)) / demo.val 12).toNat ∧
    0 < demo.val 1 ∧ diglen demo.params.w (2 ^ (8 * (2 * 2)) / demo.val 1).toNat ≤ demo.params.cap ∧
    diglen demo.params.w (demo.val 12).toNat = 7 ∧ diglen demo.params.w (demo.val 1).toNat = 2 := by decide
theorem witness_bsetup_capacity : 0 < demo.val 12 ∧ demo.val 12 = 2 ^ (demo.params.w * (7 - 1)) ∧
    demo.params.cap ≤ diglen demo.params.w (demo.val 11).toNat := by decide
theorem witness_bred :
    demo.val 0 ≤ 0 ∧ 0 < demo.val 13 ∧ demo.val 6 < 0 ∧
    2 * diglen demo.params.w (demo.val 13).toNat < diglen demo.params.w (demo.val 2).toNat ∧
    diglen demo.params.w (demo.val 9).toNat = 2 * diglen demo.params.w (demo.val 1).toNat ∧
    demo.val 13 < demo.val 1 ∧ 0 ≤ demo.val 13 ∧ 0 ≤ demo.val 9 := by decide
theorem witness_odd_and_even : 0 < demo.val 4 ∧ demo.val 4 % 2 = 1 ∧ demo.val 1 % 2 = 0 := by decide
theorem witness_mred :
    (demo.reg 5).sign = false ∧ (demo.reg 5).used.toNat = 1 ∧ (demo.reg 10).used.toNat = 2 ∧
    (demo.reg 6).sign = true ∧ redc 8 (demo.val 2).toNat (demo.val 4).toNat 0xE3 = some 0x1050 ∧
    redc 8 (demo.val 9).toNat (demo.val 4).toNat 0xE3 = none ∧
    2 * diglen demo.params.w (demo.val 4).toNat < diglen demo.params.w (demo.val 11).toNat ∧
    diglen demo.params.w (demo.val 9).toNat = 2 * diglen demo.params.w (demo.val 4).toNat := by decide
theorem witness_mfrom : demo.val 2 < demo.val 4 * 2 ^ (demo.params.w * diglen demo.params.w (demo.val 4).toNat) := by
  decide
theorem witness_radix_shape : HasRadixShape demo.params.w (demo.val 7) := by
  have hk : diglen demo.params.w (demo.val 7).toNat = 3 := by decide
  refine ⟨by decide, .inr ⟨by decide, by decide, fun j h1 h2 => ?_, by decide⟩⟩
  obtain rfl : j = 1 := by omega
  decide
theorem witness_no_radix_shape :
    ¬HasRadixShape demo.params.w (demo.val 15) ∧ ¬HasRadixShape demo.params.w (demo.val 0) :=
  ⟨fun h => h.2.elim (absurd · (by decide)) fun h2 => h2.2.1 (by decide), fun h => absurd h.1 (by decide)⟩
theorem witness_rred :
    (demo.reg 8).sign = false ∧ (demo.reg 8).used.toNat = 1 ∧ demo.val 8 = 2 ^ bitlen (demo.val 8).toNat - 1 ∧
    2 ^ bitlen (demo.val 8).toNat ≤ ((demo.reg 5).dig.getD 0 0).toNat ∧
    ((demo.reg 8).dig.getD 0 0).toNat < 2 ^ bitlen (demo.val 8).toNat ∧ 1 < (demo.reg 10).used.toNat := by decide

/-- A state with an operand that is not canonical: `r2` has a zero top digit. -/
def demoBad : State := demo.setReg 2 { IntReg.ofInt .t8 1 with used := 3 }
theorem witness_noncanonical : (Instr.bred 0 1 2 3).isField = false ∧
    (∃ r ∈ (Instr.bred 0 1 2 3).sources, demoBad.canonical r = false) ∧ (Instr.fmulf 0 1 2).isField = true := by decide
theorem witness_exec_next : ∃ t, exec (.bsetup 3 1) demo = .next t := ⟨_, rfl⟩
theorem witness_exec_raises : ∃ t, exec (.bsetup 3 0) demo = .next t ∧ t.status.err ≠ .ok := ⟨_, rfl, by decide⟩
theorem witness_each_error :
    result (.bsetup 3 12) demo = some (.capacity, 0x0E1042) ∧
    result (.modbasic 3 1 0) demo = some (.divisionByZero, 0x0E1042) ∧
    result (.mred 3 9 4 5) demo = some (.range, 0x0E1042) ∧ result (.mto 3 1 6) demo = some (.invalidModulus, 0x0E1042) ∧
    result (.bred 3 6 1 3) demo = some (.operand, 0x0E1042) := by decide
theorem witness_other_bytes : ∃ t, exec (.bsetup 3 1) demo = .next t ∧ 0x3FFFF < 0x40000 ∧
    ¬(0x10000 + 0x1000 * (Instr.bsetup 3 1).rd.toNat ≤ 0x12FFF) := ⟨_, rfl, by decide, by decide⟩
theorem witness_same_inputs : SameInputs demo { demo with arg := 5, ie := true } (.bred 3 2 1 3) :=
  same_but_arg demo
theorem witness_same_inputs_field : SameInputs demo { demo with arg := 5, ie := true } (.fmulr 2 1 1) :=
  same_but_arg_field demo
theorem witness_reduction_succeeds : Instr.bred 3 2 1 3 ∈ [Instr.modbasic 3 2 1, .bred 3 2 1 3, .mto 3 2 1] ∧
    result (.bred 3 2 1 3) demo = some (.ok, 0x32F) ∧ result (.rred 3 2 7 8) demo = some (.ok, 0x1D042) ∧
    result (.mfrom 3 2 4) demo = some (.ok, 0x1050) := by decide

theorem witness_barrett : IsBarrettContext demo.params.w (demo.val 1) (demo.val 3) ∧ 0 ≤ demo.val 9 ∧
    demo.val 9 < 2 ^ (demo.params.w * (2 * diglen demo.params.w (demo.val 1).toNat)) := by
  unfold IsBarrettContext; decide
theorem witness_redc : diglen 8 0x1235 = 2 ∧ 0x12350000 - 1 < 2 ^ (8 * (2 * 2)) ∧ IsMontgomeryContext 8 0x1235 0xE3 ∧
    0x12350000 - 1 < 0x1235 * 2 ^ (8 * 2) := by unfold IsMontgomeryContext; decide
theorem witness_montgomery : IsMontgomeryContext demo.params.w (demo.val 4) (demo.val 5) ∧ 0 ≤ demo.val 2 ∧
    demo.val 2 < demo.val 4 * 2 ^ (demo.params.w * diglen demo.params.w (demo.val 4).toNat) := by
  unfold IsMontgomeryContext; decide
theorem witness_round_trip : (3 : RegNum) ≠ 4 ∧ 0 < demo.val 4 ∧ demo.val 4 % 2 = 1 ∧
    demo.canonical 6 = true := by decide
theorem witness_radix : IsRadixContext (demo.val 7) (demo.val 8) ∧ demo.val 8 < 2 ^ demo.params.w ∧ 0 ≤ demo.val 2 := by
  unfold IsRadixContext; decide
theorem witness_perturbed : 2 ≤ diglen 8 0x1FFF9 ∧ 8 ≤ 15 ∧ 15 + 1 < bitlen 0x1FFF9 ∧ 0xFF < 2 ^ 8 := by decide
theorem witness_polynomial : bitlen 5 < bitlen 0x201B ∧ ∃ q, 5 ^^^ 5 = clmul q 0x201B := ⟨by decide, 0, by decide⟩
theorem witness_field_laws : Params.t8.Ok ∧ 0x1FFF < 2 ^ Params.t8.fbBits := by decide
theorem witness_digit_by_digit : 0xFFFF < 2 ^ (2 * DigitWidth.w8.bits) := by decide
theorem witness_fused : 0xFFFFFFFF < 2 ^ (8 * (2 * diglen 8 0x101)) ∧ 0xFF < 2 ^ 8 := by decide
theorem witness_newton : 0x1235 % 2 = 1 ∧ 0x0D < 2 ^ DigitWidth.w8.bits ∧
    0x0D * digit DigitWidth.w8.bits 0x1235 0 % 16 = 1 := by decide

theorem witness_misaligned : ¬((4 = 8 ∧ 0x1A % 8 = 0) ∨ (4 = 4 ∧ 0x1A % 4 = 0)) ∧
    ¬((2 = 8 ∧ 0x18 % 8 = 0) ∨ (2 = 4 ∧ 0x18 % 4 = 0)) := by decide
theorem witness_window_write : demo.status.busy = false ∧ 7 < demo.params.cap ∧ 3 < 2 * demo.params.fbDigs := by decide
theorem witness_window_offsets :
    WindowOffset demo.params 0x10000 ∧ WindowOffset demo.params 0x1F008 ∧ WindowOffset demo.params 0x10048 ∧
    WindowOffset demo.params 0x2F018 :=
  ⟨⟨0, .inl rfl⟩, ⟨15, .inr (.inl rfl)⟩, ⟨0, .inr (.inr (.inl ⟨7, by decide, rfl⟩))⟩,
    ⟨15, .inr (.inr (.inr ⟨3, by decide, rfl⟩))⟩⟩
theorem witness_csr_offsets : CsrOffset 0x0 ∧ CsrOffset 0x20 := ⟨.inl rfl, by unfold CsrOffset; decide⟩
theorem witness_reserved_offsets :
    ReservedOffset demo.params 0x28 ∧ ReservedOffset demo.params 0xFFF8 ∧ ReservedOffset demo.params 0x10050 ∧
    ReservedOffset demo.params 0x1FFF8 ∧ ReservedOffset demo.params 0x20020 ∧ ReservedOffset demo.params 0x2FFF8 ∧
    ReservedOffset demo.params 0x30000 ∧ ReservedOffset demo.params 0x3FFF8 :=
  ⟨⟨rfl, .inl (by decide)⟩, ⟨rfl, .inl (by decide)⟩, ⟨rfl, .inr (.inl ⟨0, 8, by decide, by decide, rfl⟩)⟩,
    ⟨rfl, .inr (.inl ⟨15, 509, by decide, by decide, rfl⟩)⟩,
    ⟨rfl, .inr (.inr (.inl ⟨0, 4, by decide, by decide, rfl⟩))⟩,
    ⟨rfl, .inr (.inr (.inl ⟨15, 511, by decide, by decide, rfl⟩))⟩, ⟨rfl, .inr (.inr (.inr (by decide)))⟩,
    ⟨rfl, .inr (.inr (.inr (by decide)))⟩⟩
theorem witness_busy_accesses : (demoBusy 0x841).status.busy = true ∧ ((4 = 8 ∧ 0xC % 8 = 0) ∨ (4 = 4 ∧ 0xC % 4 = 0)) ∧
    0xC - 0xC % 8 = 0x8 ∧ 0x14 - 0x14 % 8 = 0x10 ∧ 0x24 - 0x24 % 8 = 0x20 := by decide
theorem witness_busy_wf : (demoBusy 0x841).Wf := accept_wf demo_wf _
theorem witness_host_turn_while_busy :
    ({ demoBusy 0x841 with turns := [.host], host := [.write 0x18 8 1] } : State).nextTurn = .host ∧
    ∃ t, step { demoBusy 0x841 with turns := [.host], host := [.write 0x18 8 1] } = .next t ∧ t.status.haz = true :=
  ⟨rfl, _, rfl, by decide⟩
theorem witness_status_rises : ∃ t, step { demo with host := [.write 0x8 4 0x841] } = .next t ∧
    t.status.busy = true := ⟨_, rfl, by decide⟩
theorem witness_accepts_command : AcceptsCommand { demo with host := [.write 0x8 4 0x841] } :=
  ⟨rfl, 4, 0x841, rfl, rfl, by decide, rfl⟩
theorem witness_status_falls : ∃ t, step (demo.withCommand 0x105) = .next t ∧ t.status.busy = false ∧
    t.status.done = true ∧ t.status.err ≠ (demo.withCommand 0x105).status.err := ⟨_, rfl, by decide⟩
theorem witness_refuses_write :
    RefusesWrite { demoBusy 0x841 with turns := [.host], host := [.write 0x1F008 8 1] } ∧
    RefusesWrite { demoBusy 0x841 with turns := [.host], host := [.write 0xC 4 1] } :=
  ⟨⟨rfl, 0x1F008, 8, 1, ⟨rfl, rfl, by decide, rfl⟩, .inr (.inr ⟨15, .inr (.inl rfl)⟩)⟩,
    ⟨rfl, 0xC, 4, 1, ⟨rfl, rfl, by decide, rfl⟩, .inl rfl⟩⟩
/-- The demonstration engine after a completion with `HAZ` set, the host about to perform one write. -/
def demoDone (op : HostOp) : State :=
  { demo with status := { busy := false, done := true, haz := true, err := .ok }, host := [op] }
theorem witness_done_and_haz_fall : ∃ t, step (demoDone (.write 0x10 4 6)) = .next t ∧ t.status.done = false ∧
    t.status.haz = false := ⟨_, rfl, by decide⟩
theorem witness_writes_status_one : WritesStatusOne (demoDone (.write 0x10 4 6)) 1 ∧
    WritesStatusOne (demoDone (.write 0x10 8 4)) 2 ∧ WritesStatusOne (demoDone (.write 0x14 4 0)) 2 :=
  ⟨.inl ⟨4, 6, ⟨rfl, rfl, by decide, rfl⟩, by decide⟩, .inl ⟨8, 4, ⟨rfl, rfl, by decide, rfl⟩, by decide⟩,
    .inr ⟨0, rfl, rfl, by decide, rfl⟩⟩
theorem witness_irq_clear : (2 : Word).getLsbD 1 = true := by decide
theorem witness_ldi : diglen demo.params.w (-0x1234 : Int).natAbs ≤ demo.params.cap ∧
    ({ demo with host := ldi demo.params 2 (-0x1234) } : State).turns = [] ∧ diglen demo.params.w (2 ^ 64 - 1) ≤
    demo.params.cap := by decide
theorem witness_refused_access : ({ demo with host := [.read 0x18 2] } : State).nextTurn = .host ∧
    ¬((2 = 8 ∧ 0x3FFFE % 8 = 0) ∨ (2 = 4 ∧ 0x3FFFE % 4 = 0)) ∧ 0x3FFFE < 0x40000 ∧
    ∃ r, step { demo with host := [.read 0x3FFFE 2] } = .fault r := ⟨rfl, by decide, by decide, _, rfl⟩
theorem witness_outside : ∃ r, step { demo with host := [.read 0x40000 8] } = .fault r := ⟨_, rfl⟩
theorem witness_outside_access : ({ demo with host := [.read 0x40000 8] } : State).nextTurn = .host ∧
    ¬(demo.params.base ≤ 0x40000 ∧ 0x40000 < demo.params.base + 0x40000) := ⟨rfl, by decide⟩
theorem witness_inv : demo.Inv ∧ (demoBusy 0x841).Inv := ⟨⟨demo_wf, by decide⟩, ⟨accept_wf demo_wf _, by decide⟩⟩

end Sys2Proof.Tests
end

section
/-! PROOFS. The invariant of the machine (`State.Inv`) is kept by every turn: the shape of the registers by what writes
them, the exclusion of `BUSY` and `DONE` by what sets `STATUS`. -/

namespace Sys2Proof.Machine

/-! Reset. -/

theorem IntReg.wf_afterReset (p : Params) (n : Nat) : (IntReg.afterReset p n).Wf p := by
  refine ⟨by simp [IntReg.afterReset], fun d hd => ?_⟩
  obtain ⟨j, -, rfl⟩ := List.mem_map.1 hd
  exact lowDigit_lt _ p.w_le

theorem FieldReg.wf_afterReset (p : Params) (n : Nat) : (FieldReg.afterReset p n).Wf p := by
  refine ⟨by simp [FieldReg.afterReset], fun d hd => ?_⟩
  obtain ⟨j, -, rfl⟩ := List.mem_map.1 hd
  exact lowDigit_lt _ p.w_le

theorem State.wf_afterReset {p : Params} (hp : p.Ok) (n : Nat) : (State.afterReset p n).Wf := by
  refine ⟨hp, fun i => ?_, fun i => ?_⟩
  · simpa [State.afterReset, intRegsAfterReset] using IntReg.wf_afterReset p _
  · simpa [State.afterReset, fieldRegsAfterReset] using FieldReg.wf_afterReset p _

/-- A reset event leaves the invariant, whatever the registers held before it (spec/70_reset_and_hazards.md R260). -/
theorem State.inv_resetEvent {s : State} (hp : s.params.Ok) : s.resetEvent.Inv :=
  ⟨State.wf_afterReset hp s.draws, by simp⟩

/-! The engine's turn. -/

/-- However a command ends, it is one of the two shared ends: that of an integer command or that of a field command
(spec/40_command_execution.md R113 to R117). -/
theorem exec_cases (i : Instr) (s : State) :
    (∃ srcs rd res, exec i s = .next (s.finishInt srcs rd res)) ∨ ∃ rd x, exec i s = .next (s.commitField rd x) := by
  cases i with
  | fmul1 | fmulf | fmulr => exact .inr ⟨_, _, rfl⟩
  | _ => exact .inl ⟨_, _, _, rfl⟩

theorem State.wf_commitInt {s : State} (h : s.Wf) (rd : RegNum) (v : Int) : (s.commitInt rd v).Wf := by
  unfold State.commitInt
  split
  · exact h
  · exact State.wf_setReg h rd (wf_ofInt _ v)

theorem State.wf_commitField {s : State} (h : s.Wf) (rd : RegNum) (x : Nat) : (s.commitField rd x).Wf :=
  State.wf_setFreg h rd (wf_ofPoly _ x)

theorem State.wf_finishInt {s : State} (h : s.Wf) (srcs : List RegNum) (rd : RegNum) (res : Except Err Int) :
    (s.finishInt srcs rd res).Wf := by
  obtain ⟨-, e⟩ | ⟨-, ⟨_, -, e⟩ | ⟨v, -, e⟩⟩ := finishInt_cases s srcs rd res <;> rw [e]
  · exact h
  · exact h
  · exact State.wf_commitInt h rd v

/-- Every command keeps the form of the registers. -/
theorem exec_wf {i : Instr} {s t : State} (h : s.Wf) (he : exec i s = .next t) : t.Wf := by
  obtain ⟨srcs, rd, res, e⟩ | ⟨rd, x, e⟩ := exec_cases i s <;> rw [e] at he <;> cases he
  · exact State.wf_finishInt h srcs rd res
  · exact State.wf_commitField h rd x

/-- A completion leaves `BUSY` 0, so the invariant needs nothing of the flags before it (R116, R117). -/
theorem State.inv_of_completed {s t : State} {e : Err} (h : t.Wf) (hs : t.status = s.status.completed e) : t.Inv :=
  ⟨h, by simp [hs]⟩

theorem engineTurn_inv {s t : State} (h : s.Inv) (ht : s.engineTurn = .next t) : t.Inv := by
  obtain ⟨-, i, -, he⟩ | ⟨-, _, -, he⟩ | ⟨-, he⟩ := engineTurn_cases s <;> rw [he] at ht
  · obtain ⟨e, hs⟩ := exec_status ht
    exact State.inv_of_completed (exec_wf h.1 ht) hs
  · cases ht
    exact State.inv_of_completed h.1 rfl
  · cases ht
    exact h

/-! The host's turn. -/

theorem State.inv_memRead {s : State} (h : s.Inv) (off n : Nat) : (s.memRead off n).Inv := by
  obtain ⟨r, e⟩ | ⟨r, e⟩ := memRead_cases s off n <;> rw [e] <;> exact h

/-- A write keeps the exclusion of `BUSY` and `DONE`: a hazard touches neither, a write to `STATUS` can only clear
`DONE`, and an acceptance clears `DONE` as it sets `BUSY` (spec/10_state.md R42, R110). -/
theorem State.inv_storeSlot {s : State} (h : s.Inv) (low : Bool) (v : Word) (x : SlotName)
    (hx : s.status.busy = true → x.guarded = false) : (s.storeSlot low v x).Inv := by
  obtain ⟨hw, hbd⟩ := h
  refine ⟨State.wf_storeSlot hw low v x, ?_⟩
  obtain e | ⟨-, e⟩ | ⟨-, -, -, e⟩ := storeSlot_status s low v x hx <;> rw [e]
  · exact hbd
  · rintro ⟨hb, hd⟩
    exact hbd ⟨hb, (Bool.and_eq_true_iff.1 hd).1⟩
  · simp

theorem State.inv_memWrite {s : State} (h : s.Inv) (off n : Nat) (v : Word) : (s.memWrite off n v).Inv := by
  obtain ⟨-, e⟩ | ⟨-, -, -, e⟩ | ⟨-, hx, e⟩ := memWrite_cases s off n v <;> rw [e]
  · exact h
  · exact h
  · exact State.inv_storeSlot h _ _ _ hx

theorem hostTurn_inv {s t : State} (h : s.Inv) (ht : s.hostTurn = .next t) : t.Inv := by
  obtain ⟨-, e⟩ | ⟨op, rest, -, hop⟩ := hostTurn_cases s
  · rw [e] at ht; cases ht
    exact h
  have hr : ({ s with host := rest } : State).Inv := h
  obtain ⟨_, _, -, ⟨-, e⟩ | ⟨_, -, -, -, e⟩⟩ | ⟨off, n, e⟩ | ⟨off, n, v, -, -, -, e⟩ | ⟨-, -, e⟩ := hop <;>
    rw [e] at ht <;> cases ht
  · exact State.inv_memRead hr off n
  · exact State.inv_memWrite hr off n v
  · exact State.inv_memRead hr 0x10 8

/-- Settles O59: each of the three turns keeps the invariant. -/
theorem stepKeepsTheInvariant : Obligations.StepKeepsTheInvariant := by
  unfold Obligations.StepKeepsTheInvariant
  intro s t h hst
  have hp : s.popTurn.Inv := h
  obtain ⟨-, e⟩ | ⟨-, e⟩ | ⟨-, e⟩ := step_cases s <;> rw [e] at hst
  · exact hostTurn_inv hp hst
  · exact engineTurn_inv hp hst
  · cases hst
    exact State.inv_resetEvent hp.1.1

end Sys2Proof.Machine
end

section
/-! PROOFS. The polynomials over GF(2) of spec/00_scope.md R16: the coefficients of the carry-less product, the product
as an additive function of its left factor, its degree, and long division. -/

namespace Sys2Proof.Machine

/-! The coefficients of the product. -/

/-- The XOR of two parities is the parity of the sum. -/
theorem parity_xor (m n : Nat) : ((m % 2 == 1) ^^ (n % 2 == 1)) = ((m + n) % 2 == 1) := by
  rw [Nat.add_mod]
  obtain h | h := Nat.mod_two_eq_zero_or_one m <;> obtain h' | h' := Nat.mod_two_eq_zero_or_one n <;> simp [h, h']

theorem clmulBelow_of_bitlen_le (a b : Nat) {k : Nat} (h : bitlen b ≤ k) : clmulBelow a b k = clmul a b := by
  induction k, h using Nat.le_induction with
  | base => rfl
  | succ k hk ih => simp [clmulBelow, ih, Nat.testBit_lt_two_pow ((bitlen_le_iff b k).1 hk)]

/-- Bit `n` of a partial product counts the bits `j < k` of `b` that meet bit `n - j` of `a`. -/
theorem testBit_clmulBelow (a b k n : Nat) :
    (clmulBelow a b k).testBit n =
      ((List.range k).countP (fun j => decide (j ≤ n) && a.testBit (n - j) && b.testBit j) % 2 == 1) := by
  induction k with
  | zero => simp [clmulBelow]
  | succ k ih =>
    rw [clmulBelow, Nat.testBit_xor, ih, List.range_succ, List.countP_append, ← parity_xor]
    congr 1
    cases hb : b.testBit k
    · simp [hb]
    · by_cases hk : k ≤ n
      · cases ha : a.testBit (n - k) <;> simp [hb, hk, ha]
      · simp [hb, hk]

/-- Shifts by more than `n` do not reach bit `n`. -/
theorem testBit_clmulBelow_of_lt (a b : Nat) {k n : Nat} (h : n < k) :
    (clmulBelow a b k).testBit n = (clmulBelow a b (n + 1)).testBit n := by
  induction k, h using Nat.le_induction with
  | base => rfl
  | succ k hk ih =>
    have : ¬ k ≤ n := by omega
    rw [clmulBelow, Nat.testBit_xor, ih]
    split <;> simp [this]

/-- R16, the coefficients of the product: bit `n` is the parity of the pairs of set bits whose positions add to `n`. -/
theorem testBit_clmul (a b n : Nat) :
    (clmul a b).testBit n = ((List.range (n + 1)).countP (fun i => a.testBit i && b.testBit (n - i)) % 2 == 1) := by
  have hrev : (List.range (n + 1)).reverse = (List.range (n + 1)).map (n - ·) := by
    rw [List.range_eq_range', List.reverse_range', ← List.range_eq_range']; simp
  rw [← clmulBelow_of_bitlen_le a b (Nat.le_add_right _ (n + 1)), testBit_clmulBelow_of_lt a b (by omega),
    testBit_clmulBelow, ← List.countP_reverse, hrev, List.countP_map]
  congr 2
  apply List.countP_congr
  intro i hi
  have : i ≤ n := by simpa [Nat.lt_succ_iff] using hi
  simp [Nat.sub_sub_self this]

/-! The product as a function of its left factor. -/

theorem clmul_xor_left (a a' b : Nat) : clmul (a ^^^ a') b = clmul a b ^^^ clmul a' b := by
  suffices h : ∀ n, clmulBelow (a ^^^ a') b n = clmulBelow a b n ^^^ clmulBelow a' b n from h _
  intro n
  induction n with
  | zero => simp [clmulBelow]
  | succ n ih =>
    simp only [clmulBelow, ih]
    split
    · rw [Nat.shiftLeft_xor_distrib]; ac_rfl
    · simp

@[simp] theorem clmul_zero_left (b : Nat) : clmul 0 b = 0 := by
  simpa using clmul_xor_left 0 0 b

theorem clmul_two_pow_left (k b : Nat) : clmul (2 ^ k) b = b <<< k := by
  suffices h : ∀ n, clmulBelow (2 ^ k) b n = (b % 2 ^ n) <<< k by
    rw [clmul, h, Nat.mod_eq_of_lt (lt_two_pow_bitlen b)]
  intro n
  induction n with
  | zero => simp [clmulBelow, Nat.mod_one]
  | succ n ih =>
    have hpow : 2 ^ k <<< n = 2 ^ (k + n) := by rw [Nat.shiftLeft_eq, ← Nat.pow_add]
    apply Nat.eq_of_testBit_eq
    intro i
    rw [clmulBelow, ih, hpow, Nat.testBit_xor, apply_ite (Nat.testBit · i), Nat.testBit_two_pow]
    obtain rfl | hi := eq_or_ne (k + n) i
    · cases hb : b.testBit n <;> simp [Nat.testBit_mod_two_pow, hb]
    · have hmod : k ≤ i → (i - k < n + 1 ↔ i - k < n) := by omega
      by_cases hk : k ≤ i <;> simp [Nat.testBit_mod_two_pow, hk, hi, hmod]

/-! The degree of the product. -/

theorem bitlen_pos {x : Nat} (h : x ≠ 0) : 0 < bitlen x := by
  by_contra h0
  have := (bitlen_le_iff x 0).1 (by omega)
  omega

theorem lt_two_pow_bitlen_pred_succ {x : Nat} (h : x ≠ 0) : x < 2 ^ (bitlen x - 1 + 1) := by
  rw [Nat.sub_add_cancel (bitlen_pos h)]
  exact lt_two_pow_bitlen x

theorem testBit_bitlen_pred {x : Nat} (h : x ≠ 0) : x.testBit (bitlen x - 1) = true := by
  simpa [bitlen, h] using Nat.testBit_log2 h

theorem clmulBelow_lt {a d : Nat} (h : a < 2 ^ (d + 1)) (b n : Nat) : clmulBelow a b n < 2 ^ (d + n) := by
  induction n with
  | zero => simp [clmulBelow]
  | succ n ih =>
    apply Nat.xor_lt_two_pow
    · exact ih.trans (Nat.pow_lt_pow_right (by omega) (by omega))
    · split
      · have := Nat.shiftLeft_lt (m := n) h
        rwa [show d + (n + 1) = d + 1 + n by omega]
      · positivity

/-- The degree of a product of nonzero polynomials is the sum of their degrees: the top bits meet in one pair only. -/
theorem testBit_clmul_top {q f : Nat} (hq : q ≠ 0) (hf : f ≠ 0) :
    (clmul q f).testBit (bitlen q - 1 + (bitlen f - 1)) = true := by
  have hclmul : clmul q f = clmulBelow q f (bitlen f - 1) ^^^ q <<< (bitlen f - 1) := by
    rw [← clmulBelow_of_bitlen_le q f (k := bitlen f - 1 + 1) (by omega), clmulBelow, if_pos (testBit_bitlen_pred hf)]
  rw [hclmul, Nat.testBit_xor, Nat.testBit_lt_two_pow (clmulBelow_lt (lt_two_pow_bitlen_pred_succ hq) f _)]
  simp [Nat.testBit_shiftLeft, testBit_bitlen_pred hq]

theorem bitlen_le_bitlen_clmul {q f : Nat} (hq : q ≠ 0) (hf : f ≠ 0) : bitlen f ≤ bitlen (clmul q f) := by
  by_contra hlt
  have h1 := (bitlen_le_iff (clmul q f) (bitlen f - 1)).1 (by omega)
  have h2 := Nat.ge_two_pow_of_testBit (testBit_clmul_top hq hf)
  have h3 : 2 ^ (bitlen f - 1) ≤ 2 ^ (bitlen q - 1 + (bitlen f - 1)) := Nat.pow_le_pow_right (by omega) (by omega)
  omega

/-- A multiple of `f` of degree below that of `f` is 0. -/
theorem clmul_eq_zero_of_bitlen_lt {q f : Nat} (h : bitlen (clmul q f) < bitlen f) : clmul q f = 0 := by
  have hf : f ≠ 0 := by rintro rfl; simp [bitlen] at h
  by_contra h0
  have hq : q ≠ 0 := by rintro rfl; simp at h0
  exact absurd (bitlen_le_bitlen_clmul hq hf) (by omega)

/-! Long division. -/

/-- Every pass of long division adds a multiple of `f`. -/
theorem xor_pmodBelow (f d n p : Nat) : ∃ q, p ^^^ pmodBelow f d n p = clmul q f := by
  induction n generalizing p with
  | zero => exact ⟨0, by simp [pmodBelow]⟩
  | succ n ih =>
    rw [pmodBelow]
    split
    · obtain ⟨q, hq⟩ := ih (p ^^^ f <<< (n - d))
      refine ⟨q ^^^ 2 ^ (n - d), ?_⟩
      rw [clmul_xor_left, ← hq, clmul_two_pow_left, Nat.xor_right_comm, Nat.xor_xor_cancel_right]
    · exact ih p

/-- Adding two numbers that agree in bit `n` clears it. -/
theorem xor_lt_two_pow_of_testBit_eq {x y n : Nat} (hx : x < 2 ^ (n + 1)) (hy : y < 2 ^ (n + 1))
    (h : x.testBit n = y.testBit n) : x ^^^ y < 2 ^ n := by
  apply Nat.lt_pow_two_of_testBit
  intro i hi
  rw [Nat.testBit_xor]
  obtain rfl | hlt := eq_or_lt_of_le hi
  · simp [h]
  · have hpow : 2 ^ (n + 1) ≤ 2 ^ i := Nat.pow_le_pow_right (by omega) hlt
    rw [Nat.testBit_lt_two_pow (hx.trans_le hpow), Nat.testBit_lt_two_pow (hy.trans_le hpow), Bool.xor_false]

/-- Each pass at or above the degree of `f` clears its bit, so what is left is below that degree. -/
theorem pmodBelow_lt {f d : Nat} (hf : f < 2 ^ (d + 1)) (htop : f.testBit d = true) {n p : Nat}
    (hp : p < 2 ^ max n d) : pmodBelow f d n p < 2 ^ d := by
  induction n generalizing p with
  | zero => simpa [pmodBelow] using hp
  | succ n ih =>
    apply ih
    by_cases hd : d ≤ n
    · rw [max_eq_left (by omega)] at hp
      rw [max_eq_left hd]
      cases hbit : p.testBit n with
      | true =>
        have hshift : f <<< (n - d) < 2 ^ (n + 1) := by
          simpa [show d + 1 + (n - d) = n + 1 by omega] using Nat.shiftLeft_lt (m := n - d) hf
        have htop' : (f <<< (n - d)).testBit n = true := by
          simp [Nat.testBit_shiftLeft, Nat.sub_sub_self hd, htop]
        rw [if_pos ⟨hd, rfl⟩]
        exact xor_lt_two_pow_of_testBit_eq hp hshift (hbit.trans htop'.symm)
      | false => simpa using xor_lt_two_pow_of_testBit_eq hp (y := 0) (by positivity) (by simpa using hbit)
    · rw [max_eq_right (by omega)] at hp
      rwa [if_neg (by omega), max_eq_right (by omega)]

theorem bitlen_pmod_lt (p : Nat) {f : Nat} (hf : f ≠ 0) : bitlen (pmod p f) < bitlen f := by
  have hpos := bitlen_pos hf
  have hp : p < 2 ^ max (bitlen p) (bitlen f - 1) :=
    (lt_two_pow_bitlen p).trans_le (Nat.pow_le_pow_right (by omega) (le_max_left ..))
  have := (bitlen_le_iff _ _).2 (pmodBelow_lt (lt_two_pow_bitlen_pred_succ hf) (testBit_bitlen_pred hf) hp)
  rw [pmod]
  omega

theorem xor_pmod (p f : Nat) : ∃ q, p ^^^ pmod p f = clmul q f := xor_pmodBelow ..

theorem bitlen_xor_lt {x y n : Nat} (hx : bitlen x < n) (hy : bitlen y < n) : bitlen (x ^^^ y) < n := by
  have h : ∀ {z}, bitlen z < n → z < 2 ^ (n - 1) := fun hz => (bitlen_le_iff _ _).1 (by omega)
  have := (bitlen_le_iff _ _).2 (Nat.xor_lt_two_pow (h hx) (h hy))
  omega

/-- The remainder is unique: the difference of two remainders is a multiple of `f` of degree below that of `f`. -/
theorem eq_pmod {p f r : Nat} (hf : f ≠ 0) (hr : bitlen r < bitlen f) (hm : ∃ q, p ^^^ r = clmul q f) :
    r = pmod p f := by
  obtain ⟨q, hq⟩ := hm
  obtain ⟨q', hq'⟩ := xor_pmod p f
  have hdiff : r ^^^ pmod p f = clmul (q ^^^ q') f := by
    rw [clmul_xor_left, ← hq, ← hq', Nat.xor_comm p r, Nat.xor_assoc, Nat.xor_xor_cancel_left]
  have h0 := clmul_eq_zero_of_bitlen_lt (hdiff ▸ bitlen_xor_lt hr (bitlen_pmod_lt p hf))
  exact Nat.xor_eq_zero_iff.1 (hdiff.trans h0)

/-- Settles O40: the product by its coefficients, the remainder by long division and the degree of a product. -/
theorem polynomialProductAndRemainder : Obligations.PolynomialProductAndRemainder := by
  unfold Obligations.PolynomialProductAndRemainder
  refine ⟨fun a b n => ?_, fun p f hf => ⟨bitlen_pmod_lt p hf, xor_pmod p f, fun r => eq_pmod hf⟩⟩
  rw [testBit_clmul, List.countP_eq_length_filter]

end Sys2Proof.Machine
end

section
/-! PROOFS. The next states of a turn of the host, whose accesses that fault are left out. -/

namespace Sys2Proof.Machine

/-- A turn of the host that has a next state: nothing to do, a read, an accepted write, or a poll that will be repeated
(spec/20_memory.md R73, spec/30_encoding.md R101). -/
theorem hostTurn_next_cases {s t : State} (h : s.hostTurn = .next t) :
    t = s ∨ ∃ rest,
      (∃ off n, t = ({ s with host := rest } : State).memRead off n) ∨
      (∃ off n v, s.host.head? = some (.write (s.params.base + off) n v) ∧ off < 0x40000 ∧ accepted off n = true ∧
        t = ({ s with host := rest } : State).memWrite off n v) ∨
      t = { ({ s with host := rest } : State).memRead 0x10 8 with host := s.host } := by
  obtain ⟨-, e⟩ | ⟨op, rest, hh, hop⟩ := hostTurn_cases s
  · rw [e] at h; cases h
    exact .inl rfl
  refine .inr ⟨rest, ?_⟩
  obtain ⟨_, _, -, ⟨-, e⟩ | ⟨_, -, -, -, e⟩⟩ | ⟨off, n, e⟩ | ⟨off, n, v, hv, hl, ha, e⟩ | ⟨-, -, e⟩ := hop <;>
    rw [e] at h <;> cases h
  · exact .inl ⟨off, n, rfl⟩
  · exact .inr (.inl ⟨off, n, v, by rw [hh, hv]; rfl, hl, ha, rfl⟩)
  · exact .inr (.inr (by rw [hh]))

end Sys2Proof.Machine
end

section
/-! PROOFS. What a step can do to `STATUS` (spec/10_state.md R42, R45): a relation with one case for each cause, which
every step is shown to meet, and from which each flag is read off. -/

namespace Sys2Proof.Machine

/-- The values that one step from `s` can leave in `STATUS`, each with its cause (spec/10_state.md section 5). -/
inductive StatusChange (s : State) : Status → Prop where
  /-- `STATUS` is as it was. -/
  | kept : StatusChange s s.status
  /-- A write refused while busy (spec/20_memory.md R72(a)). -/
  | refusedWrite : RefusesWrite s → StatusChange s s.status.hazarded
  /-- The acceptance of a command (spec/40_command_execution.md R110). -/
  | acceptance : AcceptsCommand s → StatusChange s s.status.accepted
  /-- A write of `v` to the `STATUS` slot (R42). -/
  | writeOne (v : Word) : (∀ b < 32, v.getLsbD b = true → WritesStatusOne s b) →
      StatusChange s (s.status.writeOneToClear v)
  /-- The completion of the command in flight (R116, R117). -/
  | completion (e : Err) : s.nextTurn = .engine → s.status.busy = true → StatusChange s (s.status.completed e)
  /-- The reset event (spec/70_reset_and_hazards.md R260). -/
  | reset : s.nextTurn = .reset → StatusChange s { busy := false, done := false, haz := false, err := .ok }

/-- A read leaves `STATUS` (spec/20_memory.md R66, R71). -/
@[simp] theorem memRead_status (s : State) (off n : Nat) : (s.memRead off n).status = s.status := by
  obtain ⟨r, e⟩ | ⟨r, e⟩ := memRead_cases s off n <;> rw [e] <;> rfl

/-- The low bits of an accepted write at a slot's own offset are those of the value written (R67). -/
theorem getLsbD_mergePart {off n b : Nat} (ha : accepted off n = true) (h8 : off % 8 = 0) (hb : b < 32)
    (old v : Word) : (mergePart off n old v).getLsbD b = v.getLsbD b := by
  obtain ⟨rfl, -⟩ | ⟨rfl, -⟩ := accepted_iff.1 ha
  · rfl
  · simp [mergePart, h8, getElem_halves, BitVec.getLsbD_eq_getElem, hb, show b < 64 by omega]

/-- An accepted access that covers bits `[31:0]` stands at its slot's own offset (R67). -/
theorem aligned_of_coversLow {off n : Nat} (ha : accepted off n = true) (hlow : coversLow off n = true) :
    off % 8 = 0 := by
  obtain ⟨-, h8⟩ | ⟨rfl, -⟩ := accepted_iff.1 ha
  · exact h8
  · simpa [coversLow] using hlow

/-- A 1 that reaches bit `b` of the `STATUS` slot is one that the step writes there (R42, R67). -/
theorem writesStatusOne_of_mergePart {s : State} {off n b : Nat} {v : Word} (hw : HostWrites s off n v)
    (hoff : off - off % 8 = 0x10) (hb : b < 32) (h1 : (mergePart off n s.status.word v).getLsbD b = true) :
    WritesStatusOne s b := by
  have ⟨_, _, _, ha⟩ := hw
  have hn := accepted_iff.1 ha
  by_cases h8 : off % 8 = 0
  · obtain rfl : off = 0x10 := by omega
    exact .inl ⟨n, v, hw, by rwa [getLsbD_mergePart ha h8 hb] at h1⟩
  · obtain rfl : off = 0x14 := by omega
    obtain rfl : n = 4 := by omega
    exact .inr ⟨v, hw⟩

/-- All that an accepted write of the host can do to `STATUS`; `r` is `s` with that write taken from the lists of turns
and of host operations. -/
theorem memWrite_statusChange {s r : State} {off n : Nat} {v : Word} (hw : HostWrites s off n v)
    (hp : r.params = s.params) (hst : r.status = s.status) : StatusChange s (r.memWrite off n v).status := by
  have ⟨_, _, _, ha⟩ := hw
  obtain ⟨hn, -⟩ | ⟨-, hb, hg, e⟩ | ⟨-, hx, e⟩ := memWrite_cases r off n v
  · simp [ha] at hn
  · have h8 : slotOffset off % 8 = 0 := by unfold slotOffset; omega
    rw [e, State.reply_status, hst]
    exact .refusedWrite ⟨hst ▸ hb, off, n, v, hw, hp ▸ offset_of_guarded r.params h8 hg⟩
  · obtain ⟨hcmd, hstatus, -⟩ := offset_of_slotAt r.params (off := slotOffset off)
    rw [e, State.reply_status]
    obtain h | ⟨hs, h⟩ | ⟨hc, hlow, hb, h⟩ := storeSlot_status r (coversLow off n) _ _ hx <;> rw [h, hst]
    · exact .kept
    · rw [hs]
      exact .writeOne _ fun b hb h1 =>
        writesStatusOne_of_mergePart hw (hstatus hs) hb (by rwa [State.slotValue, hst] at h1)
    · have h8 : off = 0x8 := slotOffset_aligned (aligned_of_coversLow ha hlow) ▸ hcmd hc
      exact .acceptance ⟨hst ▸ hb, n, v, h8 ▸ hw⟩

theorem hostTurn_statusChange {s t : State} (hn : s.nextTurn = .host) (h : s.popTurn.hostTurn = .next t) :
    StatusChange s t.status := by
  obtain rfl | ⟨rest, ⟨off, n, rfl⟩ | ⟨off, n, v, hv, hl, ha, rfl⟩ | rfl⟩ := hostTurn_next_cases h
  · exact .kept
  · rw [memRead_status]
    exact .kept
  · exact memWrite_statusChange ⟨hn, hv, hl, ha⟩ rfl rfl
  · rw [memRead_status]
    exact .kept

/-- Every step leaves in `STATUS` one of the values of `StatusChange`. -/
theorem step_statusChange {s t : State} (h : step s = .next t) : StatusChange s t.status := by
  obtain ⟨hn, e⟩ | ⟨hn, e⟩ | ⟨hn, e⟩ := step_cases s <;> rw [e] at h
  · exact hostTurn_statusChange hn h
  · cases hb : s.status.busy with
    | true =>
      obtain ⟨t', c, ht', hc⟩ := engineTurn_completes (s := s.popTurn) hb
      rw [ht'] at h; cases h
      exact hc ▸ .completion c hn hb
    | false =>
      rw [State.engineTurn, State.popTurn_status, hb] at h; cases h
      exact .kept
  · cases h
    exact .reset hn

/-- Settles O56: each cause of a change of `STATUS` changes only the flags that the statement allows it. -/
theorem statusHasNoOtherWriters : Obligations.StatusHasNoOtherWriters := by
  unfold Obligations.StatusHasNoOtherWriters
  intro s t h
  have hc := step_statusChange h
  generalize t.status = st at hc ⊢
  cases hc with
  | kept => simp +contextual
  | refusedWrite hr => simp +contextual [hr]
  | acceptance ha =>
    have hidle := ha.1
    simp +contextual [ha, hidle]
  | writeOne v hv =>
    have hdone : v[1] = true → WritesStatusOne s 1 := hv 1 (by decide)
    have hhaz : v[2] = true → WritesStatusOne s 2 := hv 2 (by decide)
    simp +contextual [hdone, hhaz]
  | completion e hn hb => simp +contextual [hn, hb]
  | reset hn => simp +contextual [hn]

end Sys2Proof.Machine
end

section
/-! PROOFS. Accesses to the CSRs `STATUS` and `ARG` (spec/10_state.md R42, R44): the accepted access to a named slot,
said once, then the value of each slot. -/

namespace Sys2Proof.Machine

/-! The accepted access to a named slot. -/

/-- A read of a slot outside the register windows gives its value, busy or not (spec/20_memory.md R66, R72). -/
theorem memRead_of_not_inWindow {s : State} {off n : Nat} {x : SlotName} (ha : accepted off n = true)
    (hx : slotAt s.params (slotOffset off) = x) (hw : x.inWindow = false) :
    s.memRead off n = s.reply (readPart off n (s.slotValue x)) := by
  simp [State.memRead, ha, hx, hw]

/-- A write that is not refused for being busy stores the written slot value (R67, R72). -/
theorem memWrite_of_not_refused {s : State} {off n : Nat} {x : SlotName} (v : Word) (ha : accepted off n = true)
    (hx : slotAt s.params (slotOffset off) = x) (hg : s.status.busy = true → x.guarded = false) :
    s.memWrite off n v =
      (s.storeSlot (coversLow off n) (mergePart off n (s.slotValue x) v) x).reply .written := by
  have hopen : (s.status.busy && x.guarded) = false := by cases hb : s.status.busy <;> simp [hg, hb]
  simp [State.memWrite, ha, hx, hopen]

/-! `ARG`. -/

/-- Settles O49: each access to `ARG` on an idle engine is the accepted access to its slot. -/
theorem argHalvesAreSeparate : Obligations.ArgHalvesAreSeparate := by
  unfold Obligations.ArgHalvesAreSeparate
  intro s v hidle
  have hopen : s.status.busy = true → SlotName.arg.guarded = false := by simp [hidle]
  exact ⟨memWrite_of_not_refused v rfl rfl hopen, memWrite_of_not_refused v rfl rfl hopen,
    memWrite_of_not_refused v rfl rfl hopen, memRead_of_not_inWindow (x := .arg) rfl rfl rfl,
    memRead_of_not_inWindow (x := .arg) rfl rfl rfl, memRead_of_not_inWindow (x := .arg) rfl rfl rfl⟩

/-! `STATUS`. -/

/-- The bits of a `STATUS` read that are always 0 (spec/10_state.md R42). -/
theorem Status.word_reserved (st : Status) : st.word.extractLsb' 3 5 = 0 ∧ st.word.extractLsb' 12 52 = 0 := by
  unfold Status.word
  constructor
  · iterate 3 rw [BitVec.extractLsb'_append_eq_of_le (by decide)]
    exact BitVec.extractLsb'_append_eq_right
  · iterate 4 rw [BitVec.extractLsb'_append_eq_of_le (by decide)]
    exact BitVec.extractLsb'_append_eq_left

/-- The upper half of a `STATUS` read is 0 (R42). -/
theorem Status.word_upper (st : Status) : st.word.extractLsb' 32 32 = 0 := by
  unfold Status.word
  iterate 5 rw [BitVec.extractLsb'_append_eq_of_le (by decide)]
  decide

/-- Write-1-to-clear, flag by flag (R42). -/
theorem Status.writeOneToClear_eq_ite (st : Status) (v : Word) :
    st.writeOneToClear v =
      { st with
        done := if v.getLsbD 1 then false else st.done
        haz := if v.getLsbD 2 then false else st.haz } := by
  have hclear (a b : Bool) : (a && !b) = if b then false else a := by cases b <;> simp
  simp only [Status.writeOneToClear, hclear]

/-- A write at the lower half of the `STATUS` slot clears by the bits of the value written (R42, R67). -/
theorem memWrite_status_low (s : State) {n : Nat} (hn : n = 4 ∨ n = 8) (v : Word) :
    s.memWrite 0x10 n v = { s with status := s.status.writeOneToClear v }.reply .written := by
  have ha : accepted 0x10 n = true := by simpa [accepted, or_comm] using hn
  rw [memWrite_of_not_refused (x := .status) v ha rfl fun _ => rfl]
  simp only [State.storeSlot, Status.writeOneToClear, getLsbD_mergePart ha (show 0x10 % 8 = 0 by decide),
    show 1 < 32 by decide, show 2 < 32 by decide]

/-- A write at the upper half of the `STATUS` slot clears by the slot's own lower half, which holds a 1 where `DONE` or
`HAZ` is set (R67, notes/assumptions/8.md). -/
theorem memWrite_status_high (s : State) (v : Word) :
    s.memWrite 0x14 4 v = { s with status := { s.status with done := false, haz := false } }.reply .written := by
  rw [memWrite_of_not_refused (x := .status) v rfl rfl fun _ => rfl]
  simp [State.storeSlot, Status.writeOneToClear, State.slotValue, mergePart, getElem_halves, BitVec.getLsbD_eq_getElem]

/-- Settles O54: the bits of the `STATUS` word, and the writes that clear `DONE` and `HAZ`. -/
theorem statusReadsAndClears : Obligations.StatusReadsAndClears := by
  unfold Obligations.StatusReadsAndClears
  intro s v
  refine ⟨⟨s.status.word, memRead_of_not_inWindow (x := .status) rfl rfl rfl,
    memRead_of_not_inWindow (x := .status) rfl rfl rfl, ?_, ?_⟩, fun n hn => ?_, memWrite_status_high s v⟩
  · rw [memRead_of_not_inWindow (x := .status) rfl rfl rfl, ← s.status.word_upper]
    rfl
  · obtain ⟨hmid, hhigh⟩ := s.status.word_reserved
    simp +contextual [BitVec.getLsbD_eq_getElem, Err.code, hmid, hhigh]
  · rw [memWrite_status_low s hn, Status.writeOneToClear_eq_ite]
    rfl

end Sys2Proof.Machine
end

section
/-! PROOFS. The state after reset (spec/10_state.md R48). -/

namespace Sys2Proof.Machine

theorem reg_afterReset (p : Params) (d : Nat) (n : RegNum) :
    (State.afterReset p d).reg n = IntReg.afterReset p (d + p.cap * n.toNat) := by
  simp [State.afterReset, State.reg, intRegsAfterReset]

/-- An integer register after reset holds a canonical 0, whatever its digits (R32, R33, R48). -/
theorem IntReg.zero_afterReset (p : Params) (n : Nat) :
    (IntReg.afterReset p n).val p.w = 0 ∧ (IntReg.afterReset p n).canonical p.cap = true := by
  simp [IntReg.afterReset, IntReg.val, IntReg.mag, ofDigits, IntReg.canonical]

/-- `STATUS` reads as 0 after reset (R42, R48). -/
theorem Status.word_reset : Status.word { busy := false, done := false, haz := false, err := .ok } = 0 := by decide

/-- Settles O7: the registers by `reg_afterReset`, the rest as `State.afterReset` has it. -/
theorem resetValues : Obligations.ResetValues := by
  unfold Obligations.ResetValues
  intro p d
  refine ⟨fun n => ?_, rfl, rfl, rfl, Status.word_reset, rfl, rfl, rfl, rfl⟩
  rw [State.val, State.canonical, reg_afterReset]
  exact ⟨rfl, rfl, IntReg.zero_afterReset p _⟩

theorem State.inv_afterReset {p : Params} (hp : p.Ok) (d : Nat) : (State.afterReset p d).Inv :=
  ⟨State.wf_afterReset hp d, by simp [State.afterReset]⟩

/-- Settles O60: the registers by `State.wf_afterReset`, `BUSY` and `DONE` both 0. -/
theorem resetMeetsTheInvariant : Obligations.ResetMeetsTheInvariant := by
  unfold Obligations.ResetMeetsTheInvariant
  exact ⟨State.inv_afterReset (p := Params.t8) (by decide) 0, fun _ d hp => State.inv_afterReset hp d⟩

end Sys2Proof.Machine
end

section
/-! PROOFS. What the host cannot reach while a command is in flight (spec/10_state.md R47), and what no step changes:
the parameters, and with them `ID` (R40). -/

namespace Sys2Proof.Machine

/-! The command in flight. -/

/-- What a command in flight is made of: its operands, its word, `BUSY`, and the parameters (R47). -/
def State.inFlight (s : State) : Vector IntReg 16 × Vector FieldReg 16 × Word × CmdWord × Bool × Params :=
  (s.regs, s.fregs, s.arg, s.cmd, s.status.busy, s.params)

@[simp] theorem State.inFlight_eq_iff {s t : State} : t.inFlight = s.inFlight ↔
    t.regs = s.regs ∧ t.fregs = s.fregs ∧ t.arg = s.arg ∧ t.cmd = s.cmd ∧ t.status.busy = s.status.busy ∧
      t.params = s.params := by simp [State.inFlight]

theorem inFlight_memRead (s : State) (off n : Nat) : (s.memRead off n).inFlight = s.inFlight := by
  obtain ⟨r, e⟩ | ⟨r, e⟩ := memRead_cases s off n <;> rw [e] <;> rfl

/-- A store to a slot that is not guarded while busy reaches nothing of a command in flight
(spec/20_memory.md R72). -/
theorem inFlight_storeSlot {x : SlotName} (hx : x.guarded = false) (s : State) (low : Bool) (v : Word) :
    (s.storeSlot low v x).inFlight = s.inFlight := by
  cases x with
  | id | status | ctrl | reserved => rfl
  | cmd | arg | used | sign | dig | fdig => simp [SlotName.guarded] at hx

theorem inFlight_memWrite {s : State} (hb : s.status.busy = true) (off n : Nat) (v : Word) :
    (s.memWrite off n v).inFlight = s.inFlight := by
  obtain ⟨-, e⟩ | ⟨-, -, -, e⟩ | ⟨-, hx, e⟩ := memWrite_cases s off n v <;> rw [e]
  · rfl
  · rfl
  · exact inFlight_storeSlot (hx hb) s _ _

theorem inFlight_hostTurn {s t : State} (hb : s.status.busy = true) (h : s.hostTurn = .next t) :
    t.inFlight = s.inFlight := by
  obtain rfl | ⟨rest, ⟨off, n, rfl⟩ | ⟨off, n, v, -, -, -, rfl⟩ | rfl⟩ := hostTurn_next_cases h
  · rfl
  · exact inFlight_memRead { s with host := rest } off n
  · exact inFlight_memWrite (s := { s with host := rest }) hb off n v
  · exact inFlight_memRead { s with host := rest } 0x10 8

/-- Settles O51: no access of the host reaches what a command in flight is made of. -/
theorem operandsAreStableWhileBusy : Obligations.OperandsAreStableWhileBusy := by
  unfold Obligations.OperandsAreStableWhileBusy
  intro s t hb hn h
  rw [step, hn] at h
  have hkept : t.inFlight = s.inFlight := inFlight_hostTurn (s := s.popTurn) hb h
  simpa [hb] using hkept

/-! The parameters. -/

@[simp] theorem memRead_params (s : State) (off n : Nat) : (s.memRead off n).params = s.params := by
  obtain ⟨r, e⟩ | ⟨r, e⟩ := memRead_cases s off n <;> rw [e] <;> rfl

@[simp] theorem storeSlot_params (s : State) (low : Bool) (v : Word) (x : SlotName) :
    (s.storeSlot low v x).params = s.params := by
  cases x with
  | cmd => cases low <;> rfl
  | _ => rfl

@[simp] theorem memWrite_params (s : State) (off n : Nat) (v : Word) : (s.memWrite off n v).params = s.params := by
  obtain ⟨-, e⟩ | ⟨-, -, -, e⟩ | ⟨-, -, e⟩ := memWrite_cases s off n v <;> simp [e]

theorem hostTurn_params {s t : State} (h : s.hostTurn = .next t) : t.params = s.params := by
  obtain rfl | ⟨rest, ⟨off, n, rfl⟩ | ⟨off, n, v, -, -, -, rfl⟩ | rfl⟩ := hostTurn_next_cases h
  · rfl
  · exact memRead_params { s with host := rest } off n
  · exact memWrite_params { s with host := rest } off n v
  · exact memRead_params { s with host := rest } 0x10 8

@[simp] theorem commitInt_params (s : State) (rd : RegNum) (v : Int) : (s.commitInt rd v).params = s.params := by
  unfold State.commitInt
  split <;> rfl

@[simp] theorem finishInt_params (s : State) (srcs : List RegNum) (rd : RegNum) (res : Except Err Int) :
    (s.finishInt srcs rd res).params = s.params := by
  obtain ⟨-, e⟩ | ⟨-, ⟨_, -, e⟩ | ⟨v, -, e⟩⟩ := finishInt_cases s srcs rd res <;> simp [e]

theorem exec_params {i : Instr} {s t : State} (h : exec i s = .next t) : t.params = s.params := by
  obtain ⟨srcs, rd, res, e⟩ | ⟨rd, x, e⟩ := exec_cases i s <;> rw [e] at h <;> cases h
  · exact finishInt_params s srcs rd res
  · rfl

theorem engineTurn_params {s t : State} (h : s.engineTurn = .next t) : t.params = s.params := by
  obtain ⟨-, i, -, e⟩ | ⟨-, _, -, e⟩ | ⟨-, e⟩ := engineTurn_cases s <;> rw [e] at h
  · exact exec_params h
  · cases h
    rfl
  · cases h
    rfl

/-- No step changes the parameters, a reset included (R40). -/
theorem step_params {s t : State} (h : step s = .next t) : t.params = s.params := by
  obtain ⟨-, e⟩ | ⟨-, e⟩ | ⟨-, e⟩ := step_cases s <;> rw [e] at h
  · exact hostTurn_params (s := s.popTurn) h
  · exact engineTurn_params (s := s.popTurn) h
  · cases h
    rfl

/-! The fields of `ID`. -/

/-- A degree whose field fits 256 digits fits the 16 bits that `ID` shows of it (R40). -/
theorem fbBits_lt {p : Params} (hp : p.Ok) : p.fbBits < 2 ^ 16 := by
  have hdigs : (p.fbBits + p.w - 1) / p.w < 257 := Nat.lt_succ_of_le hp.2.2.1
  have hbits := (Nat.div_lt_iff_lt_mul p.w_pos).1 hdigs
  have hw := p.w_le
  omega

/-- The bits of `ID` (R40). -/
theorem idWord_fields (p : Params) :
    (idWord p).extractLsb' 0 8 = BitVec.ofNat 8 p.w ∧ (idWord p).extractLsb' 8 16 = BitVec.ofNat 16 p.cap ∧
    (idWord p).extractLsb' 24 16 = BitVec.ofNat 16 p.fbDigs ∧
    (idWord p).extractLsb' 40 16 = BitVec.ofNat 16 p.fbBits ∧ (idWord p).extractLsb' 56 8 = 1 := by
  unfold idWord
  refine ⟨BitVec.extractLsb'_append_eq_right, ?_, ?_, ?_, ?_⟩
  · rw [BitVec.extractLsb'_append_eq_of_le (by decide), BitVec.extractLsb'_append_eq_right]
  · iterate 2 rw [BitVec.extractLsb'_append_eq_of_le (by decide)]
    exact BitVec.extractLsb'_append_eq_right
  · iterate 3 rw [BitVec.extractLsb'_append_eq_of_le (by decide)]
    exact BitVec.extractLsb'_append_eq_right
  · iterate 3 rw [BitVec.extractLsb'_append_eq_of_le (by decide)]
    exact BitVec.extractLsb'_append_eq_left

/-- Settles O53: the parameters fit the fields of `ID`, and no step changes them. -/
theorem idShowsTheParameters : Obligations.IdShowsTheParameters := by
  unfold Obligations.IdShowsTheParameters
  rintro s ⟨hp, -⟩
  have ⟨⟨_, hcapLe⟩, _, hdigsLe, _⟩ := hp
  obtain ⟨hw, hcap, hdigs, hbits, hversion⟩ := idWord_fields s.params
  refine ⟨idWord s.params, memRead_of_not_inWindow (x := .id) rfl rfl rfl, ?_, ?_, ?_, ?_, ?_,
    fun t ht => ?_⟩
  · rw [hw, BitVec.toNat_ofNat, Nat.mod_eq_of_lt (s.params.w_le.trans_lt (by decide))]
  · rw [hcap, BitVec.toNat_ofNat, Nat.mod_eq_of_lt (hcapLe.trans_lt (by decide))]
  · rw [hdigs, BitVec.toNat_ofNat, Nat.mod_eq_of_lt (hdigsLe.trans_lt (by decide))]
  · rw [hbits, BitVec.toNat_ofNat, Nat.mod_eq_of_lt (fbBits_lt hp)]
  · rw [hversion]; rfl
  · rw [State.slotValue, State.slotValue, step_params ht]

end Sys2Proof.Machine
end

section
/-! PROOFS. Where each slot stands in the aperture (spec/20_memory.md R62, R63): the offset of every named slot, read off
its name, and the slot at every reserved offset. -/

namespace Sys2Proof.Machine

/-- The offset at which the slot stands, with the bounds of its digit; of a reserved slot nothing is said (R62, R63).
The bounds 510 and 512 are those of the windows and hold whatever the parameters. -/
def SlotName.StandsAt (p : Params) (off : Nat) : SlotName → Prop
  | .id => off = 0x0
  | .cmd => off = 0x8
  | .status => off = 0x10
  | .arg => off = 0x18
  | .ctrl => off = 0x20
  | .used n => off = 0x10000 + 0x1000 * n.toNat
  | .sign n => off = 0x10000 + 0x1000 * n.toNat + 0x8
  | .dig n j => j < p.cap ∧ j < 510 ∧ off = 0x10000 + 0x1000 * n.toNat + 0x10 + 8 * j
  | .fdig n j => j < 2 * p.fbDigs ∧ j < 512 ∧ off = 0x20000 + 0x1000 * n.toNat + 8 * j
  | .reserved => True

theorem csrSlot_standsAt (p : Params) (off : Nat) : (csrSlot off).StandsAt p off := by
  unfold csrSlot
  split <;> simp [SlotName.StandsAt]

theorem intSlot_standsAt (p : Params) (n : RegNum) {o : Nat} (h8 : o % 8 = 0) (ho : o < 0x1000) :
    (intSlot p n o).StandsAt p (0x10000 + 0x1000 * n.toNat + o) := by
  unfold intSlot
  split_ifs with h0 h1 hj <;> simp only [SlotName.StandsAt] <;> omega

theorem fieldSlot_standsAt (p : Params) (n : RegNum) {o : Nat} (h8 : o % 8 = 0) (ho : o < 0x1000) :
    (fieldSlot p n o).StandsAt p (0x20000 + 0x1000 * n.toNat + o) := by
  unfold fieldSlot
  split_ifs with hj <;> simp only [SlotName.StandsAt]
  omega

/-- An offset of sixteen windows of 4096 bytes from `base` on is a window's number and a byte of that window. -/
theorem exists_window {base off : Nat} (hl : base ≤ off) (hu : off < base + 0x10000) :
    ∃ (n : RegNum) (o : Nat), o < 0x1000 ∧ off = base + 0x1000 * n.toNat + o :=
  ⟨BitVec.ofNat 4 ((off - base) / 0x1000), (off - base) % 0x1000, by omega, by simp; omega⟩

/-- Every slot stands where R62 and R63 say. -/
theorem slotAt_standsAt (p : Params) {off : Nat} (h8 : off % 8 = 0) : (slotAt p off).StandsAt p off := by
  by_cases hcsr : off < 0x10000
  · rw [slotAt, if_pos hcsr]
    exact csrSlot_standsAt p off
  by_cases hint : off < 0x20000
  · obtain ⟨n, o, ho, rfl⟩ := exists_window (base := 0x10000) (by omega) hint
    rw [slotAt_intWindow p n o ho]
    exact intSlot_standsAt p n (by omega) ho
  by_cases hfield : off < 0x30000
  · obtain ⟨n, o, ho, rfl⟩ := exists_window (base := 0x20000) (by omega) hfield
    rw [slotAt_fieldWindow p n o ho]
    exact fieldSlot_standsAt p n (by omega) ho
  · rw [slotAt, if_neg hcsr, if_neg hint, if_neg hfield]
    trivial

/-- Two slots of one name in the register windows are one slot. -/
theorem slotAt_inj {p : Params} {a b : Nat} (ha : a % 8 = 0) (hb : b % 8 = 0)
    (hw : (slotAt p a).inWindow = true) (h : slotAt p a = slotAt p b) : a = b := by
  have hsa := slotAt_standsAt p ha
  have hsb := slotAt_standsAt p hb
  rw [← h] at hsb
  cases hx : slotAt p a with
  | used | sign =>
    rw [hx] at hsa hsb
    exact hsa.trans hsb.symm
  | dig | fdig =>
    rw [hx] at hsa hsb
    exact hsa.2.2.trans hsb.2.2.symm
  | id | cmd | status | arg | ctrl | reserved => simp [hx, SlotName.inWindow] at hw

/-- At the offsets of R63 there are slots of the register windows. -/
theorem inWindow_of_windowOffset {p : Params} (hp : p.Ok) {off : Nat} (h : WindowOffset p off) :
    off % 8 = 0 ∧ (slotAt p off).inWindow = true := by
  obtain ⟨n, rfl | rfl | ⟨j, hj, rfl⟩ | ⟨j, hj, rfl⟩⟩ := h
  · exact ⟨by omega, by rw [slotAt_used]; rfl⟩
  · exact ⟨by omega, by rw [slotAt_sign]; rfl⟩
  · exact ⟨by omega, by rw [slotAt_dig p n hp hj]; rfl⟩
  · exact ⟨by omega, by rw [slotAt_fdig p n hp hj]; rfl⟩

/-- A slot of a register window is guarded while busy (R72(a)). -/
theorem SlotName.guarded_of_inWindow {x : SlotName} (h : x.inWindow = true) : x.guarded = true := by
  cases x with
  | used | sign | dig | fdig => rfl
  | id | cmd | status | arg | ctrl | reserved => simp [SlotName.inWindow] at h

/-- At the offsets that R62 and R63 call reserved there is nothing (R65). -/
theorem slotAt_reserved {p : Params} {off : Nat} (h : ReservedOffset p off) : slotAt p off = .reserved := by
  obtain ⟨h8, ⟨hl, hu⟩ | ⟨n, j, hj, hj', rfl⟩ | ⟨n, j, hj, hj', rfl⟩ | ⟨hl, hu⟩⟩ := h
  · rw [slotAt, if_pos hu]
    rw [csrSlot] <;> omega
  · have hdig : (0x10 + 8 * j - 0x10) / 8 = j := by omega
    rw [Nat.add_assoc, slotAt_intWindow p n _ (by omega), intSlot, if_neg (by omega), if_neg (by omega), hdig,
      if_neg (by omega)]
  · have hdig : 8 * j / 8 = j := by omega
    rw [slotAt_fieldWindow p n _ (by omega), fieldSlot, hdig, if_neg (by omega)]
  · rw [slotAt, if_neg (by omega), if_neg (by omega), if_neg (by omega)]

/-- A byte or the upper half of a slot lies in that slot (R66, R68). -/
theorem slotOffset_add {off k : Nat} (h8 : off % 8 = 0) (hk : k < 8) : slotOffset (off + k) = off := by
  unfold slotOffset
  omega

end Sys2Proof.Machine
end

section
/-! PROOFS. What one step is, turn by turn (spec/20_memory.md R61, R69, R73; spec/40_command_execution.md R111), and the
accesses at which a run stops. -/

namespace Sys2Proof.Machine

/-- An access at offset `off` of the aperture: performed when its size and alignment are accepted, else a fault of the
host's program (R61, R69). -/
theorem State.hostAccess_inside (s : State) {off : Nat} (hoff : off < 0x40000) (n : Nat) (f : Nat → State) :
    s.hostAccess (s.params.base + off) n f =
      if accepted off n then .next (f off) else .fault (.busError (s.params.base + off) n) := by
  have hoffset : s.offset (s.params.base + off) = some off := by
    rw [State.offset, if_pos (by omega), Nat.add_sub_cancel_left]
  rw [State.hostAccess, hoffset]

/-- An access outside the aperture is a fault that names its address (notes/assumptions/7.md). -/
theorem State.hostAccess_outside (s : State) {addr : Nat}
    (haddr : ¬(s.params.base ≤ addr ∧ addr < s.params.base + 0x40000)) (n : Nat) (f : Nat → State) :
    s.hostAccess addr n f = .fault (.outsideAperture addr) := by
  rw [State.hostAccess, State.offset, if_neg haddr]

/-- On the host's turn the step is the first of the host's operations, taken off its list (R73). -/
theorem step_host_cons {s : State} {op : HostOp} {rest : List HostOp} (hn : s.nextTurn = .host)
    (hh : s.host = op :: rest) : step s = ({ s.popTurn with host := rest } : State).hostOp op := by
  rw [step, hn, State.takeTurn, State.hostTurn, State.popTurn_host, hh]

/-- The host's turn with nothing to do (notes/assumptions/13.md). -/
theorem step_host_nil {s : State} (hn : s.nextTurn = .host) (hh : s.host = []) : step s = .next s.popTurn := by
  rw [step, hn, State.takeTurn, State.hostTurn, State.popTurn_host, hh]

/-- The completion of a command in flight whose word decodes (spec/40_command_execution.md R111, R112). -/
theorem engineTurn_of_decode {s : State} {i : Instr} (hb : s.status.busy = true) (hd : decode s.cmd = .ok i) :
    s.engineTurn = exec i s := by
  rw [State.engineTurn, if_pos hb, State.completion, hd]

/-- Settles O5, turn by turn. -/
theorem stepRunsTheDecodedCommand : Obligations.StepRunsTheDecodedCommand := by
  unfold Obligations.StepRunsTheDecodedCommand
  refine ⟨fun s i hn hb hd => ?_, fun s hn => ?_, fun s hn => ?_, fun s hn hh => step_host_nil hn hh, ?_⟩
  · rw [step, hn]
    exact engineTurn_of_decode (s := s.popTurn) hb hd
  · rw [step, hn, State.takeTurn]
  · rw [step, hn, State.takeTurn]
  · rintro s q op rest hn hh rfl
    rw [step_host_cons hn hh]
    refine ⟨?_, ?_, ?_, ?_⟩
    · rintro off n hoff ha rfl
      exact (State.hostAccess_inside _ hoff n _).trans (if_pos (accepted_iff.2 ha))
    · rintro off n v hoff ha rfl
      exact (State.hostAccess_inside _ hoff n _).trans (if_pos (accepted_iff.2 ha))
    · rintro rfl hb
      simp [State.hostOp, hb]
    · rintro rfl hb
      simp [State.hostOp, hb]

/-- Settles O47: a refused access only leaves a bus error reply, and the host's step that performs it is the fault. -/
theorem misalignedAccessIsABusError : Obligations.MisalignedAccessIsABusError := by
  unfold Obligations.MisalignedAccessIsABusError
  intro off n v hbad s
  have hrefused : accepted off n = false := by
    rw [← Bool.not_eq_true, accepted_iff]
    exact hbad
  refine ⟨by rw [State.memRead, hrefused]; rfl, by rw [State.memWrite, hrefused]; rfl, fun hn hoff hop => ?_⟩
  have hfault (q : State) (hq : q.params = s.params) (f : Nat → State) :
      q.hostAccess (s.params.base + off) n f = .fault (.busError (s.params.base + off) n) := by
    rw [← hq, State.hostAccess_inside q hoff, hrefused]
    rfl
  obtain hop | hop := hop
  all_goals
    obtain ⟨rest, hh⟩ := List.head?_eq_some_iff.1 hop
    rw [step_host_cons hn hh]
    exact hfault _ rfl _

/-- The engine's turn always has a next state: no command and no illegal word stops the machine. -/
theorem engineTurn_next (s : State) : ∃ t, s.engineTurn = .next t := by
  obtain ⟨-, i, -, h⟩ | ⟨-, _, -, h⟩ | ⟨-, h⟩ := engineTurn_cases s
  · rw [h]
    exact exec_next i s
  · exact ⟨_, h⟩
  · exact ⟨s, h⟩

/-- A step has a next state, or it is the host's turn with an access outside the aperture or refused for its size or
alignment, and faults as such. -/
theorem step_ends (s : State) :
    (∃ t, step s = .next t) ∨
    ∃ r, step s = .fault r ∧ s.nextTurn = .host ∧ ∃ op addr n, s.host.head? = some op ∧
      (op = .read addr n ∨ ∃ v, op = .write addr n v) ∧
      ((r = .outsideAperture addr ∧ ¬(s.params.base ≤ addr ∧ addr < s.params.base + 0x40000)) ∨
        ∃ off, r = .busError addr n ∧ addr = s.params.base + off ∧ off < 0x40000 ∧ accepted off n = false) := by
  obtain ⟨hn, e⟩ | ⟨-, e⟩ | ⟨-, e⟩ := step_cases s <;> rw [e]
  · obtain ⟨-, e⟩ | ⟨op, rest, hh, ⟨addr, n, hop, ⟨hout, e⟩ | ⟨off, hoff, haddr, hbad, e⟩⟩ | ⟨_, _, e⟩ |
      ⟨_, _, _, -, -, -, e⟩ | ⟨-, -, e⟩⟩ := hostTurn_cases s.popTurn
    case inr.inl.inl =>
      exact .inr ⟨_, e, hn, op, addr, n, List.head?_eq_some_iff.2 ⟨rest, hh⟩, hop, .inl ⟨rfl, hout⟩⟩
    case inr.inl.inr =>
      exact .inr ⟨_, e, hn, op, addr, n, List.head?_eq_some_iff.2 ⟨rest, hh⟩, hop,
        .inr ⟨off, rfl, haddr, hoff, hbad⟩⟩
    all_goals exact .inl ⟨_, e⟩
  · exact .inl (engineTurn_next s.popTurn)
  · exact .inl ⟨_, rfl⟩

/-- Settles O58: the faults are those of `step_ends`. -/
theorem onlyOutsideOrRefusedAccessesStop : Obligations.OnlyOutsideOrRefusedAccessesStop := by
  unfold Obligations.OnlyOutsideOrRefusedAccessesStop
  refine ⟨fun s r h => ?_, fun s r h => ?_, fun s op addr n hn hop hkind hout => ?_⟩
  · obtain ⟨t, e⟩ | ⟨_, e, -⟩ := step_ends s <;> rw [e] at h <;> cases h
  · obtain ⟨t, e⟩ | ⟨_, e, hfault⟩ := step_ends s <;> rw [e] at h <;> cases h
    simpa only [← Bool.not_eq_true, accepted_iff] using hfault
  · obtain ⟨rest, hh⟩ := List.head?_eq_some_iff.1 hop
    rw [step_host_cons hn hh]
    obtain rfl | ⟨v, rfl⟩ := hkind
    all_goals exact State.hostAccess_outside { s.popTurn with host := rest } hout n _

end Sys2Proof.Machine
end

section
/-! PROOFS. The bytes of the aperture (spec/20_memory.md R66, R68): an accepted read of an idle engine puts them together,
the lowest offset least significant. -/

namespace Sys2Proof.Machine

/-- A read of an idle engine gives the slot's value, a register window's included (R66). -/
theorem memRead_of_idle {s : State} {off n : Nat} (hb : s.status.busy = false) (ha : accepted off n = true) :
    s.memRead off n = s.reply (readPart off n (s.slotValue (slotAt s.params (slotOffset off)))) := by
  simp [State.memRead, ha, hb]

/-- The byte `k` above another of one slot is the slot's bits `8k` above (R68). -/
theorem byteAt_add (s : State) {off k : Nat} (hk : off % 8 + k < 8) :
    s.byteAt (off + k) = (s.slotValue (slotAt s.params (slotOffset off))).extractLsb' (8 * (off % 8) + 8 * k) 8 := by
  have hmod : (off + k) % 8 = off % 8 + k := by omega
  have hslot : slotOffset (off + k) = slotOffset off := by unfold slotOffset; omega
  rw [State.byteAt, hslot, hmod, Nat.mul_add]

/-- Bits that stand side by side in a value, put together, are its bits over both. -/
theorem extractLsb'_append_above (v : Word) (a m k : Nat) :
    v.extractLsb' (a + m) k ++ v.extractLsb' a m = v.extractLsb' a (k + m) :=
  BitVec.extractLsb'_append_extractLsb'_eq_extractLsb' rfl

/-- Four bytes of a value side by side are its 32 bits there. -/
theorem append_four_bytes (v : Word) (a : Nat) :
    v.extractLsb' (a + 24) 8 ++ v.extractLsb' (a + 16) 8 ++ v.extractLsb' (a + 8) 8 ++ v.extractLsb' a 8 =
      v.extractLsb' a 32 := by
  rw [extractLsb'_append_above v (a + 16) 8 8, extractLsb'_append_above v (a + 8) 8 (8 + 8),
    extractLsb'_append_above v a 8 (8 + 8 + 8)]

/-- The eight bytes of a value, put together, are the value. -/
theorem append_eight_bytes (v : Word) :
    v.extractLsb' 56 8 ++ v.extractLsb' 48 8 ++ v.extractLsb' 40 8 ++ v.extractLsb' 32 8 ++ v.extractLsb' 24 8 ++
      v.extractLsb' 16 8 ++ v.extractLsb' 8 8 ++ v.extractLsb' 0 8 = v := by
  rw [append_four_bytes v 32, extractLsb'_append_above v 24 8 32, extractLsb'_append_above v 16 8 (32 + 8),
    extractLsb'_append_above v 8 8 (32 + 8 + 8), extractLsb'_append_above v 0 8 (32 + 8 + 8 + 8)]
  exact BitVec.extractLsb'_eq_self

/-- The reply to an accepted 4-byte read is the half of the slot that stands at the offset (R66). -/
theorem readPart_four {off : Nat} (h4 : off % 4 = 0) (v : Word) :
    readPart off 4 v = .data4 (v.extractLsb' (8 * (off % 8)) 32) := by
  obtain h | h : off % 8 = 0 ∨ off % 8 = 4 := by omega
  all_goals simp [readPart, h]

/-- Settles O46: each byte by `byteAt_add`, and the bytes put together. -/
theorem readsAreLittleEndian : Obligations.ReadsAreLittleEndian := by
  unfold Obligations.ReadsAreLittleEndian
  refine fun s off hb => ⟨fun h8 => ?_, fun h4 => ?_⟩
  · have hbyte (k : Nat) (hk : k < 8) := byteAt_add s (off := off) (k := k) (by omega)
    rw [memRead_of_idle hb (accepted_iff.2 (.inl ⟨rfl, h8⟩)), hbyte 7 (by decide), hbyte 6 (by decide),
      hbyte 5 (by decide), hbyte 4 (by decide), hbyte 3 (by decide), hbyte 2 (by decide), hbyte 1 (by decide),
      State.byteAt, h8, append_eight_bytes]
    rfl
  · have hbyte (k : Nat) (hk : k < 4) := byteAt_add s (off := off) (k := k) (by omega)
    rw [memRead_of_idle hb (accepted_iff.2 (.inr ⟨rfl, h4⟩)), hbyte 3 (by decide), hbyte 2 (by decide),
      hbyte 1 (by decide), State.byteAt, append_four_bytes, readPart_four h4]

end Sys2Proof.Machine
end

section
/-! PROOFS. What a write to a register, by a command or by the host, leaves of the aperture (spec/20_memory.md R63, R64;
spec/40_command_execution.md R122): the value of every slot outside that register, byte by byte. -/

namespace Sys2Proof.Machine

/-! The slots of one register. -/

/-- The slot belongs to the window of `R[n]` (R63). -/
def SlotName.OfReg (n : RegNum) : SlotName → Prop
  | .used m => m = n
  | .sign m => m = n
  | .dig m _ => m = n
  | _ => False

/-- The slot belongs to the window of `F[n]` (R63). -/
def SlotName.OfFreg (n : RegNum) : SlotName → Prop
  | .fdig m _ => m = n
  | _ => False

theorem slotValue_setReg {n : RegNum} {x : SlotName} (hx : ¬x.OfReg n) (s : State) (r : IntReg) :
    (s.setReg n r).slotValue x = s.slotValue x := by
  cases x with
  | used m | sign m | dig m => simp only [State.slotValue, State.reg_setReg_ne s n r hx]
  | _ => rfl

theorem slotValue_setFreg {n : RegNum} {x : SlotName} (hx : ¬x.OfFreg n) (s : State) (f : FieldReg) :
    (s.setFreg n f).slotValue x = s.slotValue x := by
  cases x with
  | fdig m => simp only [State.slotValue, State.freg_setFreg_ne s n f hx]
  | _ => rfl

/-- A completion shows in `STATUS` alone (spec/40_command_execution.md R116, R117). -/
theorem slotValue_complete {x : SlotName} (hx : x ≠ .status) (s : State) (e : Err) :
    (s.complete e).slotValue x = s.slotValue x := by
  cases x with
  | status => exact absurd rfl hx
  | _ => rfl

@[simp] theorem slotValue_reply (s : State) (y : Reply) (x : SlotName) :
    (s.reply y).slotValue x = s.slotValue x := by cases x <;> rfl

/-! A command. -/

/-- However a command ends, it is the shared end of its kind for its own destination: that of an integer command or that
of a field command (R113 to R117). -/
theorem exec_ends (i : Instr) (s : State) :
    (i.isField = false ∧ ∃ res, exec i s = .next (s.finishInt i.sources i.rd res)) ∨
    (i.isField = true ∧ ∃ x, exec i s = .next (s.commitField i.rd x)) := by
  cases i with
  | fmul1 | fmulf | fmulr => exact .inr ⟨rfl, _, rfl⟩
  | _ => exact .inl ⟨rfl, _, rfl⟩

theorem slotValue_finishInt {rd : RegNum} {x : SlotName} (hs : x ≠ .status) (hx : ¬x.OfReg rd) (s : State)
    (srcs : List RegNum) (res : Except Err Int) : (s.finishInt srcs rd res).slotValue x = s.slotValue x := by
  obtain ⟨-, e⟩ | ⟨-, ⟨_, -, e⟩ | ⟨v, -, e⟩⟩ := finishInt_cases s srcs rd res <;> rw [e]
  · exact slotValue_complete hs s _
  · exact slotValue_complete hs s _
  · unfold State.commitInt
    split
    · exact slotValue_complete hs s _
    · rw [slotValue_complete hs, slotValue_setReg hx]

/-- A command leaves every slot but `STATUS` and those of its destination register in that register's own file
(R116, R117, R122). -/
theorem slotValue_exec {i : Instr} {s t : State} {x : SlotName} (h : exec i s = .next t) (hs : x ≠ .status)
    (hint : i.isField = false → ¬x.OfReg i.rd) (hfield : i.isField = true → ¬x.OfFreg i.rd) :
    t.slotValue x = s.slotValue x := by
  obtain ⟨hk, res, e⟩ | ⟨hk, v, e⟩ := exec_ends i s <;> rw [e] at h <;> cases h
  · exact slotValue_finishInt hs (hint hk) s _ res
  · rw [State.commitField, slotValue_complete hs, slotValue_setFreg (hfield hk)]

/-- The slots of `R[n]` lie in its window of 4096 bytes (R63). -/
theorem offset_of_ofReg {p : Params} {n : RegNum} {off : Nat} (h8 : off % 8 = 0) (h : (slotAt p off).OfReg n) :
    0x10000 + 0x1000 * n.toNat ≤ off ∧ off + 8 ≤ 0x10000 + 0x1000 * n.toNat + 0x1000 := by
  have hst := slotAt_standsAt p h8
  cases hx : slotAt p off with
  | used | sign | dig =>
    rw [hx] at h hst
    obtain rfl := h
    simp only [SlotName.StandsAt] at hst
    omega
  | _ => simp [hx, SlotName.OfReg] at h

/-- The slots of `F[n]` lie in its window of 4096 bytes (R63). -/
theorem offset_of_ofFreg {p : Params} {n : RegNum} {off : Nat} (h8 : off % 8 = 0) (h : (slotAt p off).OfFreg n) :
    0x20000 + 0x1000 * n.toNat ≤ off ∧ off + 8 ≤ 0x20000 + 0x1000 * n.toNat + 0x1000 := by
  have hst := slotAt_standsAt p h8
  cases hx : slotAt p off with
  | fdig =>
    rw [hx] at h hst
    obtain rfl := h
    simp only [SlotName.StandsAt] at hst
    omega
  | _ => simp [hx, SlotName.OfFreg] at h

/-- Settles O28: a byte outside `STATUS` and the destination's window lies in a slot that the command leaves. -/
theorem commandLeavesOtherBytes : Obligations.CommandLeavesOtherBytes := by
  unfold Obligations.CommandLeavesOtherBytes
  intro s t i h off _ hstatus hint hfield
  have h8 : slotOffset off % 8 = 0 := by unfold slotOffset; omega
  have hle : slotOffset off ≤ off ∧ off < slotOffset off + 8 := by unfold slotOffset; omega
  rw [State.byteAt, State.byteAt, exec_params h,
    slotValue_exec h (fun hx => ?_) (fun hk hx => ?_) (fun hk hx => ?_)]
  · have := (offset_of_slotAt s.params).2.1 hx
    omega
  · have := offset_of_ofReg h8 hx
    exact hint ⟨hk, by omega, by omega⟩
  · have := offset_of_ofFreg h8 hx
    exact hfield ⟨hk, by omega, by omega⟩

end Sys2Proof.Machine
end

section
/-! PROOFS. Writes to the register windows of an idle engine (spec/20_memory.md R63, R64, R67). -/

namespace Sys2Proof.Machine

/-! One slot's store against the others. -/

/-- A store to a slot of a register window leaves every other slot: those of other registers by `slotValue_setReg`, those
of the same one since only the stored field differs (R64). -/
theorem slotValue_storeSlot_ne {x y : SlotName} (hx : x.inWindow = true) (hne : x ≠ y) (s : State) (low : Bool)
    (v : Word) : (s.storeSlot low v x).slotValue y = s.slotValue y := by
  cases x with
  | used n | sign n | dig n j =>
    by_cases hy : y.OfReg n
    · cases y with
      | used m | sign m | dig m k =>
        obtain rfl := hy
        simp_all [State.storeSlot, State.slotValue]
      | _ => exact hy.elim
    · exact slotValue_setReg hy s _
  | fdig n j =>
    by_cases hy : y.OfFreg n
    · cases y with
      | fdig m k =>
        obtain rfl := hy
        simp_all [State.storeSlot, State.slotValue]
      | _ => exact hy.elim
    · exact slotValue_setFreg hy s _
  | id | cmd | status | arg | ctrl | reserved => simp [SlotName.inWindow] at hx

/-- A store to a slot of a register window leaves `STATUS`, and it does not matter which half is written (R67). -/
theorem storeSlot_window {x : SlotName} (hx : x.inWindow = true) (s : State) (low : Bool) (v : Word) :
    (s.storeSlot low v x).status = s.status ∧ s.storeSlot low v x = s.storeSlot true v x := by
  cases x with
  | used | sign | dig | fdig => exact ⟨rfl, rfl⟩
  | id | cmd | status | arg | ctrl | reserved => simp [SlotName.inWindow] at hx

/-! The accepted write. -/

/-- An accepted write to a slot of a register window of an idle engine stores the written slot value (R67). -/
theorem memWrite_window {s : State} {off n : Nat} (v : Word) (hb : s.status.busy = false) (ha : accepted off n = true)
    (hx : (slotAt s.params (slotOffset off)).inWindow = true) :
    s.memWrite off n v =
      (s.storeSlot true (mergePart off n (s.slotValue (slotAt s.params (slotOffset off))) v)
        (slotAt s.params (slotOffset off))).reply .written := by
  rw [memWrite_of_not_refused v ha rfl (by simp [hb]), (storeSlot_window hx s _ _).2]

/-- What an 8-byte write of `v` to a register window slot `x` of an idle engine does: the store, which the slot reads back
and every other slot does not show (R64). -/
theorem memWrite_window_spec {s t : State} {off : Nat} {v : Word} {x : SlotName} (hb : s.status.busy = false)
    (h8 : off % 8 = 0) (hx : slotAt s.params off = x) (hw : x.inWindow = true) (ht : t = s.memWrite off 8 v) :
    t = (s.storeSlot true v x).reply .written ∧
    t.memRead off 8 = t.reply (.data8 ((s.storeSlot true v x).slotValue x)) ∧
    ∀ o, o % 8 = 0 → o ≠ off → t.slotValue (slotAt t.params o) = s.slotValue (slotAt s.params o) := by
  have ha : accepted off 8 = true := accepted_iff.2 (.inl ⟨rfl, h8⟩)
  have hslot : slotAt s.params (slotOffset off) = x := by rw [slotOffset_aligned h8, hx]
  have heq : t = (s.storeSlot true v x).reply .written := by
    rw [ht, memWrite_window v hb ha (by rwa [hslot]), hslot]
    rfl
  have hidle : t.status.busy = false := by rw [heq, State.reply_status, (storeSlot_window hw s _ _).1, hb]
  have hp : t.params = s.params := ht ▸ memWrite_params s off 8 v
  refine ⟨heq, ?_, fun o ho hne => ?_⟩
  · rw [memRead_of_idle hidle ha, hp, hslot, heq, slotValue_reply]
    rfl
  · have hother : slotAt s.params o ≠ x := by
      subst hx
      exact fun h => hne (slotAt_inj h8 ho hw h.symm).symm
    rw [hp, heq, slotValue_reply, slotValue_storeSlot_ne hw hother.symm]

/-! What each slot reads back (R64). -/

theorem getD_set_self {l : List Word} {j : Nat} (hj : j < l.length) (d : Word) : (l.set j d).getD j 0 = d := by
  simp [List.getD, hj]

theorem lowDigit_eq_ofNat {w : Nat} (hw : w ≤ 64) (v : Word) :
    lowDigit w v = BitVec.ofNat 64 (v.toNat % 2 ^ w) := by
  rw [← lowDigit_toNat v hw, BitVec.ofNat_toNat, BitVec.setWidth_eq]

theorem ofBool_getLsbD_zero (v : Word) : BitVec.ofBool (v.getLsbD 0) = v.extractLsb' 0 1 := by
  apply BitVec.eq_of_getElem_eq
  intro i hi
  obtain rfl : i = 0 := by omega
  simp [BitVec.getLsbD_eq_getElem]

theorem reg_storeSlot_dig {s : State} (hs : s.Wf) (n : RegNum) {j : Nat} (hj : j < s.params.cap) (v : Word) :
    ((s.storeSlot true v (.dig n j)).reg n).dig.getD j 0 = lowDigit s.params.w v := by
  rw [State.storeSlot, State.reg_setReg_self]
  exact getD_set_self (by rwa [(State.wf_reg hs n).1]) _

theorem freg_storeSlot_fdig {s : State} (hs : s.Wf) (n : RegNum) {j : Nat} (hj : j < 2 * s.params.fbDigs) (v : Word) :
    ((s.storeSlot true v (.fdig n j)).freg n).fdig.getD j 0 = lowDigit s.params.w v := by
  rw [State.storeSlot, State.freg_setFreg_self]
  exact getD_set_self (by rwa [(State.wf_freg hs n).1]) _

/-- A 4-byte write of a half of a register window slot is the 8-byte write of that half beside the slot's own other
half (R67). -/
theorem memWrite_window_halves {s : State} {off : Nat} (v : Word) (hb : s.status.busy = false) (h8 : off % 8 = 0)
    (hw : (slotAt s.params off).inWindow = true) :
    s.memWrite off 4 v =
      s.memWrite off 8 ((s.slotValue (slotAt s.params off)).extractLsb' 32 32 ++ v.extractLsb' 0 32) ∧
    s.memWrite (off + 4) 4 v =
      s.memWrite off 8 (v.extractLsb' 0 32 ++ (s.slotValue (slotAt s.params off)).extractLsb' 0 32) := by
  have hlow : slotOffset off = off := slotOffset_aligned h8
  have hhigh : slotOffset (off + 4) = off := slotOffset_add h8 (by decide)
  have h4 : off % 4 = 0 := by omega
  have h4' : (off + 4) % 4 = 0 := by omega
  have h8' : (off + 4) % 8 ≠ 0 := by omega
  have hw8 (u : Word) := memWrite_window (off := off) (n := 8) u hb (accepted_iff.2 (.inl ⟨rfl, h8⟩)) (by rwa [hlow])
  rw [hw8, hw8, memWrite_window v hb (accepted_iff.2 (.inr ⟨rfl, h4⟩)) (by rwa [hlow]),
    memWrite_window v hb (accepted_iff.2 (.inr ⟨rfl, h4'⟩)) (by rwa [hhigh]), hlow, hhigh]
  simp [mergePart, h8, h8']

/-- Settles O48: the store of each slot by `memWrite_window_spec`, and the two halves. -/
theorem windowWriteStoresTheField : Obligations.WindowWriteStoresTheField := by
  unfold Obligations.WindowWriteStoresTheField
  intro s n v hs hb
  refine ⟨fun t ht => ?_, fun t ht => ?_, fun j hj t ht => ?_, fun j hj t ht => ?_, ?_⟩
  · obtain ⟨rfl, hread, hother⟩ := memWrite_window_spec hb (by omega) (slotAt_used s.params n) rfl ht
    have hused : ((s.storeSlot true v (.used n)).reg n).used = v.extractLsb' 0 16 := by
      simp [State.storeSlot, BitVec.setWidth_eq_extractLsb']
    exact ⟨hused, hread.trans (by rw [State.slotValue, hused]), hother⟩
  · obtain ⟨rfl, hread, hother⟩ := memWrite_window_spec hb (by omega) (slotAt_sign s.params n) rfl ht
    have hsign : ((s.storeSlot true v (.sign n)).reg n).sign = v.getLsbD 0 := by simp [State.storeSlot]
    exact ⟨hsign, hread.trans (by rw [State.slotValue, hsign, ofBool_getLsbD_zero]), hother⟩
  · obtain ⟨rfl, hread, hother⟩ := memWrite_window_spec hb (by omega) (slotAt_dig s.params n hs.1 hj) rfl ht
    have hdig := reg_storeSlot_dig hs n hj v
    refine ⟨?_, hread.trans ?_, hother⟩
    · exact (congrArg BitVec.toNat hdig).trans (lowDigit_toNat v s.params.w_le)
    · rw [State.slotValue, hdig, lowDigit_eq_ofNat s.params.w_le]
  · obtain ⟨rfl, hread, hother⟩ := memWrite_window_spec hb (by omega) (slotAt_fdig s.params n hs.1 hj) rfl ht
    have hdig := freg_storeSlot_fdig hs n hj v
    refine ⟨?_, hread.trans ?_, hother⟩
    · exact (congrArg BitVec.toNat hdig).trans (lowDigit_toNat v s.params.w_le)
    · rw [State.slotValue, hdig, lowDigit_eq_ofNat s.params.w_le]
  · rintro off hoff _ rfl
    obtain ⟨h8, hw⟩ := inWindow_of_windowOffset hs.1 hoff
    exact memWrite_window_halves v hb h8 hw

end Sys2Proof.Machine
end

section
/-! PROOFS. Reserved slots (spec/20_memory.md R65), and accesses while the engine is busy (R72). -/

namespace Sys2Proof.Machine

/-! Reserved slots, busy or idle. -/

theorem readPart_four_zero (off : Nat) : readPart off 4 0 = .data4 0 := by simp [readPart]

/-- A reserved slot reads as 0, busy or idle (R65, R72(c)). -/
theorem memRead_reserved {s : State} {off n : Nat} (ha : accepted off n = true)
    (hx : slotAt s.params (slotOffset off) = .reserved) : s.memRead off n = s.reply (readPart off n 0) := by
  rw [memRead_of_not_inWindow ha hx rfl, State.slotValue]

/-- A slot that ignores writes and is not guarded: a reserved one, and `ID` (R65). -/
theorem memWrite_ignored {s : State} {off n : Nat} (v : Word) (ha : accepted off n = true)
    (hx : slotAt s.params (slotOffset off) = .reserved ∨ slotAt s.params (slotOffset off) = .id) :
    s.memWrite off n v = s.reply .written := by
  obtain hx | hx := hx
  all_goals exact memWrite_of_not_refused v ha hx fun _ => rfl

/-- Settles O52: the slot at the offset and at its upper half is the reserved one, and there the two lemmas above
apply. -/
theorem reservedOffsetsReadZero : Obligations.ReservedOffsetsReadZero := by
  unfold Obligations.ReservedOffsetsReadZero
  intro s off v _
  refine ⟨fun hoff => ?_, memWrite_ignored v rfl (.inr rfl), memWrite_ignored v rfl (.inr rfl),
    memWrite_ignored v rfl (.inr rfl)⟩
  have h8 := hoff.1
  have hslot : slotAt s.params (slotOffset off) = .reserved := by rw [slotOffset_aligned h8, slotAt_reserved hoff]
  have hslot' : slotAt s.params (slotOffset (off + 4)) = .reserved := by
    rw [slotOffset_add h8 (by decide), slotAt_reserved hoff]
  have ha8 : accepted off 8 = true := accepted_iff.2 (.inl ⟨rfl, h8⟩)
  have ha4 : accepted off 4 = true := accepted_iff.2 (.inr ⟨rfl, by omega⟩)
  have ha4' : accepted (off + 4) 4 = true := accepted_iff.2 (.inr ⟨rfl, by omega⟩)
  refine ⟨memRead_reserved ha8 hslot, ?_, ?_, memWrite_ignored v ha8 (.inl hslot), memWrite_ignored v ha4 (.inl hslot),
    memWrite_ignored v ha4' (.inl hslot')⟩
  · rw [memRead_reserved ha4 hslot, readPart_four_zero]
  · rw [memRead_reserved ha4' hslot', readPart_four_zero]

/-! Busy. -/

/-- An accepted write to a guarded slot is refused while busy and sets `HAZ` (R72(a)). -/
theorem memWrite_refused {s : State} {off n : Nat} (v : Word) (hb : s.status.busy = true) (ha : accepted off n = true)
    (hg : (slotAt s.params (slotOffset off)).guarded = true) :
    s.memWrite off n v = { s with status := s.status.hazarded }.reply .written := by
  simp [State.memWrite, ha, hb, hg]

/-- An accepted read of a register window slot while busy gives a free value (R72(b)). -/
theorem memRead_unspecified {s : State} {off n : Nat} (hb : s.status.busy = true) (ha : accepted off n = true)
    (hw : (slotAt s.params (slotOffset off)).inWindow = true) :
    s.memRead off n = { s with draws := s.draws + 1 }.reply (readPart off n (Config.unspecified s.draws)) := by
  simp [State.memRead, ha, hb, hw]

/-- The CSRs and the reserved slots are no register windows (R62, R65). -/
theorem not_inWindow_of_csr_or_reserved {p : Params} {off : Nat} (h : CsrOffset off ∨ ReservedOffset p off) :
    (slotAt p off).inWindow = false := by
  obtain (rfl | rfl | rfl | rfl | rfl) | h := h
  iterate 5 rfl
  rw [slotAt_reserved h]
  rfl

/-- A low bit of the written slot value depends on the old slot value in that bit alone (R67). -/
theorem getLsbD_mergePart_congr {a b : Word} {i : Nat} (hi : i < 32) (h : a.getLsbD i = b.getLsbD i) (off n : Nat)
    (v : Word) : (mergePart off n a v).getLsbD i = (mergePart off n b v).getLsbD i := by
  have hlow (x y : BitVec 32) : (x ++ y : Word).getLsbD i = y.getLsbD i := by
    rw [BitVec.getLsbD_eq_getElem (by omega), getElem_halves x y i hi, BitVec.getLsbD_eq_getElem hi]
  unfold mergePart
  split_ifs
  · rfl
  · rw [hlow, hlow]
  · rw [hlow, hlow]
    simp [hi, h]

/-- The state with `BUSY` as given. -/
def State.withBusy (s : State) (b : Bool) : State := { s with status := { s.status with busy := b } }

/-- An accepted write to `STATUS` or `CTRL` neither reads `BUSY` nor writes it: the bits of `STATUS` that count in it are
those of `DONE` and `HAZ` (spec/10_state.md R42, R43, R72(c)). -/
theorem memWrite_withBusy (s : State) (b : Bool) {off n : Nat} (v : Word) (ha : accepted off n = true)
    (hx : slotAt s.params (slotOffset off) = .status ∨ slotAt s.params (slotOffset off) = .ctrl) :
    (s.withBusy b).memWrite off n v = (s.memWrite off n v).withBusy b := by
  obtain hx | hx := hx
  all_goals
    rw [memWrite_of_not_refused v ha hx fun _ => rfl,
      memWrite_of_not_refused (s := s.withBusy b) v ha hx fun _ => rfl]
  · have hbit (i : Nat) (hi : i < 32) (h : (s.withBusy b).status.word.getLsbD i = s.status.word.getLsbD i) :=
      getLsbD_mergePart_congr hi h off n v
    have hdone := hbit 1 (by decide) (by simp [State.withBusy, BitVec.getLsbD_eq_getElem])
    have hhaz := hbit 2 (by decide) (by simp [State.withBusy, BitVec.getLsbD_eq_getElem])
    simp only [State.storeSlot, State.slotValue, Status.writeOneToClear, hdone, hhaz]
    rfl
  · rfl

/-- Settles O50: the refused accesses by the slots' classes, the others since they neither read nor write `BUSY`. -/
theorem busyAccesses : Obligations.BusyAccesses := by
  unfold Obligations.BusyAccesses
  intro s off n v hs hb hn
  have ha : accepted off n = true := accepted_iff.2 hn
  have hslot : slotOffset off = off - off % 8 := rfl
  rw [← hslot]
  refine ⟨fun hoff => ?_, fun hoff => ?_, fun hoff => ?_, fun hoff => ?_, ?_⟩
  · refine memWrite_refused v hb ha ?_
    obtain h | h | h := hoff
    · rw [h]; rfl
    · rw [h]; rfl
    · exact SlotName.guarded_of_inWindow (inWindow_of_windowOffset hs.1 h).2
  · exact memRead_unspecified hb ha (inWindow_of_windowOffset hs.1 hoff).2
  · exact memRead_of_not_inWindow ha rfl (not_inWindow_of_csr_or_reserved hoff)
  · refine memWrite_ignored v ha ?_
    obtain h | h := hoff
    · rw [h]
      exact .inr rfl
    · exact .inl (slotAt_reserved h)
  · rintro hoff _ _ rfl rfl
    have hbusy : (s.withBusy false).withBusy true = s := by rw [State.withBusy, State.withBusy, ← hb]
    have hx : slotAt s.params (slotOffset off) = .status ∨ slotAt s.params (slotOffset off) = .ctrl :=
      hoff.imp (fun h => by rw [h]; rfl) (fun h => by rw [h]; rfl)
    have hsame := memWrite_withBusy (s.withBusy false) true v ha hx
    rwa [hbusy] at hsame

end Sys2Proof.Machine
end

section
/-! PROOFS. The decoder and the encoder undo each other (spec/30_encoding.md R91, R95, R100); a word decodes exactly
when its fields are well formed (R93, R96), and that is exactly when a row of the opcode map fits it (R94). -/

namespace Sys2Proof

/-! Decoding by the fields. -/

/-- The decoder takes the fields of a command to the command. -/
theorem decodeFields_fields (i : Instr) : decodeFields i.fields = .ok i := by cases i <;> rfl

theorem decode_encode (i : Instr) : decode (encode i) = .ok i := by
  rw [decode, encode, fieldsOf_wordOf, decodeFields_fields]

theorem accept_eq_ok_iff {unusedZero : Bool} {f : Fields} {i j : Instr} :
    accept unusedZero f i = .ok j ↔ unusedZero = true ∧ f.rsv = 0 ∧ i = j := by
  unfold accept
  split
  · split <;> simp_all
  · simp_all

/-- A command that the decoder answers has the very fields it was decoded from: those it uses are taken over, and the
others passed the check for 0 (R93). -/
theorem fields_of_decodeFields {f : Fields} {i : Instr} (h : decodeFields f = .ok i) : i.fields = f := by
  obtain ⟨opc, rd, ra, rb, rc, rsv⟩ := f
  unfold decodeFields at h
  split at h
  case h_16 => cases h
  all_goals
    next hopc =>
    obtain ⟨hunused, rfl, rfl⟩ := accept_eq_ok_iff.1 h
    simp_all [Instr.fields, ← BitVec.toNat_inj]

theorem Fields.wellFormed_iff (f : Fields) :
    f.wellFormed = true ↔ f.opcodeListed = true ∧ f.unusedZero = true ∧ f.rsv = 0 := by
  simp [Fields.wellFormed, Fields.reservedZero, and_assoc]

/-- Well-formed fields pass the checks of their opcode's arm of the decoder (R93). -/
theorem exists_decodeFields {f : Fields} (h : f.wellFormed = true) : ∃ i, decodeFields f = .ok i := by
  obtain ⟨hlisted, hunused, hrsv⟩ := (Fields.wellFormed_iff f).1 h
  unfold decodeFields
  split
  case h_16 => simp_all [Fields.opcodeListed, usedFields]
  all_goals
    next hopc =>
    refine ⟨_, accept_eq_ok_iff.2 ⟨?_, hrsv, rfl⟩⟩
    simp_all [Fields.unusedZero, usedFields]

/-! The rows of the opcode map. -/

theorem fieldsOf_inj {v w : CmdWord} : fieldsOf v = fieldsOf w ↔ v = w :=
  ⟨fun h => by rw [← wordOf_fieldsOf v, h, wordOf_fieldsOf], fun h => h ▸ rfl⟩

theorem fieldsOf_and (v w : CmdWord) :
    fieldsOf (v &&& w) =
      ⟨(fieldsOf v).opc &&& (fieldsOf w).opc, (fieldsOf v).rd &&& (fieldsOf w).rd,
        (fieldsOf v).ra &&& (fieldsOf w).ra, (fieldsOf v).rb &&& (fieldsOf w).rb,
        (fieldsOf v).rc &&& (fieldsOf w).rc, (fieldsOf v).rsv &&& (fieldsOf w).rsv⟩ := by
  simp [fieldsOf, BitVec.extractLsb'_and]

/-- The mask of a row whose command uses the register fields RA, RB, RC as told: all of them but RD, which every command
uses, and the used ones (R94, R95). -/
def rowMask : Bool × Bool × Bool → Fields
  | (a, b, c) =>
    { opc := .allOnes 6
      rd := 0
      ra := if a then 0 else .allOnes 4
      rb := if b then 0 else .allOnes 4
      rc := if c then 0 else .allOnes 4
      rsv := .allOnes 10 }

/-- The opcode a row of the map matches. -/
def OpcodeRow.opc (r : OpcodeRow) : BitVec 6 := (fieldsOf r.pattern).opc

theorem opcodeMap_fields : ∀ r ∈ opcodeMap,
    (usedFields r.opc).map rowMask = some (fieldsOf r.mask) ∧ fieldsOf r.pattern = ⟨r.opc, 0, 0, 0, 0, 0⟩ := by
  decide

theorem eq_of_opc_eq : ∀ r ∈ opcodeMap, ∀ r' ∈ opcodeMap, r.opc = r'.opc → r = r' := by decide

/-- Every command has its row. -/
theorem exists_row (i : Instr) : ∃ r ∈ opcodeMap, r.opc = i.fields.opc ∧ r.mnemonic = i.mnemonic := by
  cases i <;> simp [opcodeMap, OpcodeRow.opc, fieldsOf, Instr.fields, Instr.mnemonic]

theorem and_ite_eq_zero_iff (used : Bool) (x : RegNum) :
    x &&& (if used then 0 else .allOnes 4) = 0 ↔ (used || x == 0) = true := by
  cases used with
  | false => rw [if_neg Bool.false_ne_true, BitVec.and_allOnes, Bool.false_or, beq_iff_eq]
  | true => simp

/-- A row fits exactly the words of its opcode whose fields are well formed (R93, R94). -/
theorem fits_iff {r : OpcodeRow} (hr : r ∈ opcodeMap) (w : CmdWord) :
    r.fits w = true ↔ (fieldsOf w).opc = r.opc ∧ (fieldsOf w).wellFormed = true := by
  obtain ⟨hmask, hpattern⟩ := opcodeMap_fields r hr
  obtain ⟨⟨a, b, c⟩, hused, hmask⟩ := Option.map_eq_some_iff.1 hmask
  rw [OpcodeRow.fits, beq_iff_eq, ← fieldsOf_inj, fieldsOf_and, hpattern, ← hmask, Fields.mk.injEq]
  simp only [rowMask, and_ite_eq_zero_iff, BitVec.and_allOnes]
  refine and_congr_right fun hopc => ?_
  simp [Fields.wellFormed_iff, Fields.opcodeListed, Fields.unusedZero, hopc, hused, and_assoc]

theorem wellFormed_fields (i : Instr) : i.fields.wellFormed = true := by cases i <;> rfl

/-- A word decodes exactly when its fields pass the three checks of R93 and R96. -/
theorem exists_decode_iff (w : CmdWord) : (∃ i, decode w = .ok i) ↔ (fieldsOf w).wellFormed = true :=
  ⟨fun ⟨i, hi⟩ => fields_of_decodeFields hi ▸ wellFormed_fields i, exists_decodeFields⟩

theorem encode_of_decode {w : CmdWord} {i : Instr} (h : decode w = .ok i) : encode i = w := by
  rw [encode, fields_of_decodeFields h, wordOf_fieldsOf]

/-- A word that decodes fits the row of its command. -/
theorem exists_row_of_decode {w : CmdWord} {i : Instr} (h : decode w = .ok i) :
    ∃ r ∈ opcodeMap, r.fits w = true ∧ r.mnemonic = i.mnemonic := by
  obtain ⟨r, hr, hopc, hname⟩ := exists_row i
  rw [fields_of_decodeFields h] at hopc
  exact ⟨r, hr, (fits_iff hr w).2 ⟨hopc.symm, (exists_decode_iff w).1 ⟨i, h⟩⟩, hname⟩

theorem eq_of_fits {w : CmdWord} {r r' : OpcodeRow} (hr : r ∈ opcodeMap) (hr' : r' ∈ opcodeMap)
    (h : r.fits w = true) (h' : r'.fits w = true) : r = r' :=
  eq_of_opc_eq r hr r' hr' (((fits_iff hr w).1 h).1.symm.trans ((fits_iff hr' w).1 h').1)

/-- A word that fits a row decodes to a command of that row. -/
theorem exists_decode_of_fits {w : CmdWord} {r : OpcodeRow} (hr : r ∈ opcodeMap) (h : r.fits w = true) :
    ∃ i, decode w = .ok i ∧ i.mnemonic = r.mnemonic := by
  obtain ⟨i, hi⟩ := (exists_decode_iff w).2 ((fits_iff hr w).1 h).2
  obtain ⟨r', hr', h', hname⟩ := exists_row_of_decode hi
  exact ⟨i, hi, eq_of_fits hr hr' h h' ▸ hname.symm⟩

/-- The opcodes of the map are `0x01` to `0x0C` and `0x10` to `0x12` (R95, R96). -/
theorem opc_of_usedFields : ∀ opc : BitVec 6, (usedFields opc).isSome = true →
    (0x01 ≤ opc.toNat ∧ opc.toNat ≤ 0x0C) ∨ (0x10 ≤ opc.toNat ∧ opc.toNat ≤ 0x12) := by
  decide

namespace Machine

/-- A command in flight whose word does not decode completes with `ILLEGAL` (R96, R112). -/
theorem engineTurn_illegal {s : State} (hb : s.status.busy = true) (h : ∀ i, decode s.cmd ≠ .ok i) :
    Ends s.engineTurn (Raised s .illegal) := by
  obtain ⟨-, i, hi, -⟩ | ⟨-, e, -, hturn⟩ | ⟨hidle, -⟩ := engineTurn_cases s
  · exact absurd hi (h i)
  · exact ⟨_, hturn, raised_raise s .illegal⟩
  · simp [hb] at hidle

/-- Settles O2: the word gives back its fields, and the fields their command. -/
theorem decodeOfEncode : Obligations.DecodeOfEncode := decode_encode

/-- Settles O1: the written-out words are the encodings of their commands. -/
theorem encodedExamplesDecode : Obligations.EncodedExamplesDecode :=
  ⟨decode_encode (.mod2b 1 2), decode_encode (.moddig 1 2 3), decode_encode (.bsetup 4 3),
    decode_encode (.bred 5 2 3 4), decode_encode (.mred 5 2 3 4), decode_encode (.rchk 4 3),
    decode_encode (.fmul1 2 0 1), decode_encode (.fmulr 15 14 13)⟩

/-- Settles O3: a row fits exactly the well-formed words of its opcode (`fits_iff`), and these are the words that
decode. -/
theorem decoderFollowsTheOpcodeMap : Obligations.DecoderFollowsTheOpcodeMap := by
  unfold Obligations.DecoderFollowsTheOpcodeMap
  refine ⟨fun w i h => ⟨encode_of_decode h, exists_row_of_decode h⟩, fun w r hr h => exists_decode_of_fits hr h,
    fun w r hr r' hr' h h' => eq_of_fits hr hr' h h', fun s hb hno => engineTurn_illegal hb fun i hi => ?_⟩
  obtain ⟨r, hr, h, -⟩ := exists_row_of_decode hi
  simp [hno r hr] at h

/-- Settles O4: a word that decodes is well formed, which each of the classes of R96 contradicts. -/
theorem illegalWordWritesNoRegister : Obligations.IllegalWordWritesNoRegister := by
  unfold Obligations.IllegalWordWritesNoRegister
  intro s hb hill
  refine engineTurn_illegal hb fun i hi => ?_
  obtain ⟨hlisted, hunused, hrsv⟩ := (Fields.wellFormed_iff _).1 ((exists_decode_iff s.cmd).1 ⟨i, hi⟩)
  have hopc := opc_of_usedFields _ hlisted
  obtain h | h | h | h | h | h := hill
  · omega
  · omega
  · omega
  · simp [hunused] at h
  · exact h hrsv
  · rw [h] at hopc
    exact absurd hopc (by decide)

end Machine

end Sys2Proof
end

section
/-! PROOFS. `ldi` (spec/30_encoding.md R101): each write of an idle engine's host is one step, the digits go up one by
one, and the loaded register agrees with the canonical write (spec/10_state.md R34) in all that `USED` covers. -/

namespace Sys2Proof.Machine

/-! What a register's value and canonical form depend on. -/

theorem IntReg.val_congr {q r : IntReg} (w : Nat) (hs : q.sign = r.sign) (hu : q.used = r.used)
    (hd : q.dig.take r.used.toNat = r.dig.take r.used.toNat) : q.val w = r.val w := by
  rw [IntReg.val, IntReg.val, IntReg.mag, IntReg.mag, hs, hu, hd]

theorem IntReg.canonical_congr {q r : IntReg} (cap : Nat) (hs : q.sign = r.sign) (hu : q.used = r.used)
    (hd : q.dig.take r.used.toNat = r.dig.take r.used.toNat) (hc : r.canonical cap = true) :
    q.canonical cap = true := by
  obtain ⟨hle, hzero, htop⟩ := (IntReg.canonical_iff cap r).1 hc
  refine (IntReg.canonical_iff cap q).2 ⟨hu ▸ hle, fun h => hs ▸ hzero (hu ▸ h), fun h => ?_⟩
  rw [hu] at h ⊢
  have htake (l : List Word) : (l.take r.used.toNat).getD (r.used.toNat - 1) 0 = l.getD (r.used.toNat - 1) 0 := by
    rw [List.getD, List.getD, List.getElem?_take_of_lt (by omega)]
  rw [← htake, hd, htake]
  exact htop h

/-! One write of the host. -/

theorem run_succ {s t : State} (h : step s = .next t) (k : Nat) :
    Host.Core.run Sys2Proof.core (k + 1) s = Host.Core.run Sys2Proof.core k t := by
  have hstep : Sys2Proof.core.step s = .next t := h
  simp only [Host.Core.run, hstep]

theorem popTurn_of_turns_nil {s : State} (h : s.turns = []) : s.popTurn = s := by
  rw [State.popTurn, h, List.tail_nil, ← h]

/-- With no turns fixed, an idle engine leaves the turn to the host, and an 8-byte write to a register window slot is
one step, which stores it (spec/20_memory.md R67). -/
theorem step_window_write {s : State} {off : Nat} {v : Word} {ops : List HostOp} (hb : s.status.busy = false)
    (ht : s.turns = []) (hh : s.host = w64 s.params off v :: ops) (hoff : off < 0x40000) (h8 : off % 8 = 0)
    (hw : (slotAt s.params off).inWindow = true) :
    step s = .next ((({ s with host := ops } : State).storeSlot true v (slotAt s.params off)).reply .written) := by
  have hn : s.nextTurn = .host := by simp [State.nextTurn, ht, hb]
  rw [step_host_cons hn hh, popTurn_of_turns_nil ht, w64, State.hostOp]
  refine (State.hostAccess_inside { s with host := ops } hoff 8 _).trans ?_
  rw [if_pos (accepted_iff.2 (.inl ⟨rfl, h8⟩))]
  exact congrArg _ (memWrite_window_spec (s := { s with host := ops }) hb h8 rfl hw rfl).1

/-! A load under way. -/

/-- `s` in the middle of a load: `R[n]` is `r` by now, `ops` are still to come, and `ys` the host has received. -/
def State.loading (s : State) (n : RegNum) (r : IntReg) (ops : List HostOp) (ys : List Reply) : State :=
  { s.setReg n r with host := ops, replies := ys }

theorem loading_self (s : State) (n : RegNum) : s.loading n (s.reg n) s.host s.replies = s := by
  simp [State.loading, State.setReg, State.reg]

theorem setReg_loading (s : State) (n : RegNum) (q r : IntReg) (ops : List HostOp) (ys : List Reply) (y : Reply) :
    ((s.loading n q ops ys).setReg n r).reply y = s.loading n r ops (y :: ys) := by
  simp [State.loading, State.setReg, State.reply]

/-- One write of a load: `hq` says that it makes `q` of the register `r`. -/
theorem run_loading_write {s : State} (hb : s.status.busy = false) (ht : s.turns = []) {n : RegNum} {x : SlotName}
    {off : Nat} {v : Word} {q r : IntReg} (hoff : off < 0x40000) (h8 : off % 8 = 0) (hx : slotAt s.params off = x)
    (hw : x.inWindow = true)
    (hq : ∀ u : State, u.params = s.params → u.reg n = r → u.storeSlot true v x = u.setReg n q)
    (ops : List HostOp) (ys : List Reply) (k : Nat) :
    Host.Core.run Sys2Proof.core (k + 1) (s.loading n r (w64 s.params off v :: ops) ys) =
      Host.Core.run Sys2Proof.core k (s.loading n q ops (.written :: ys)) := by
  subst hx
  rw [run_succ (step_window_write (s := s.loading n r _ ys) hb ht rfl hoff h8 hw)]
  congr 1
  have hstore := hq (s.loading n r ops ys) rfl (State.reg_setReg_self s n r)
  rw [← setReg_loading s n r q, ← hstore]
  rfl

/-! The digits. -/

/-- The register `r` with its low `j` digits overwritten by those of `x`. -/
def IntReg.overwritten (w x : Nat) (r : IntReg) (j : Nat) : IntReg := { r with dig := toDigits w j x ++ r.dig.drop j }

@[simp] theorem overwritten_sign (w x : Nat) (r : IntReg) (j : Nat) : (r.overwritten w x j).sign = r.sign := rfl
@[simp] theorem overwritten_used (w x : Nat) (r : IntReg) (j : Nat) : (r.overwritten w x j).used = r.used := rfl
@[simp] theorem overwritten_zero (w x : Nat) (r : IntReg) : r.overwritten w x 0 = r := rfl

theorem take_dig_overwritten (w x : Nat) (r : IntReg) (j : Nat) :
    (r.overwritten w x j).dig.take j = toDigits w j x := by
  rw [IntReg.overwritten, List.take_left' (toDigits_length w j x)]

theorem set_dig_overwritten (w x : Nat) {r : IntReg} {j : Nat} (hj : j < r.dig.length) :
    (r.overwritten w x j).dig.set j (BitVec.ofNat 64 (digit w x j)) = (r.overwritten w x (j + 1)).dig := by
  have hsucc : toDigits w (j + 1) x = toDigits w j x ++ [BitVec.ofNat 64 (digit w x j)] := by
    simp [toDigits, List.range_succ]
  rw [IntReg.overwritten, IntReg.overwritten, hsucc, List.set_append_right _ _ (by simp), toDigits_length,
    Nat.sub_self, List.drop_eq_getElem_cons hj, List.set_cons_zero, List.append_assoc, List.singleton_append]

theorem lowDigit_digit {w : Nat} (hw : w ≤ 64) (x j : Nat) :
    lowDigit w (BitVec.ofNat 64 (digit w x j)) = BitVec.ofNat 64 (digit w x j) := by
  rw [lowDigit_eq_ofNat hw, digit_word_toNat hw, Nat.mod_eq_of_lt (digit_lt w x j)]

/-- The write of digit `j` of `x` in `ldi`. -/
def digitWrite (p : Params) (n : RegNum) (x j : Nat) : HostOp :=
  w64 p (0x10000 + 0x1000 * n.toNat + 0x10 + 8 * j) (BitVec.ofNat 64 (digit p.w x j))

theorem ldi_eq (p : Params) (n : RegNum) (v : Int) :
    ldi p n v = (List.range' 0 (diglen p.w v.natAbs)).map (digitWrite p n v.natAbs) ++
      [w64 p (0x10000 + 0x1000 * n.toNat + 0x8) (if v < 0 then 1 else 0),
        w64 p (0x10000 + 0x1000 * n.toNat) (BitVec.ofNat 64 (diglen p.w v.natAbs))] := by
  rw [← List.range_eq_range']
  rfl

/-- The writes of the digits `j` to `j + m - 1`. -/
theorem run_loading_digits {s : State} (hs : s.Wf) (hb : s.status.busy = false) (ht : s.turns = []) (n : RegNum)
    (x k : Nat) (ops : List HostOp) (m j : Nat) (hm : j + m ≤ s.params.cap) (ys : List Reply) :
    ∃ ys', Host.Core.run Sys2Proof.core (k + m)
        (s.loading n ((s.reg n).overwritten s.params.w x j)
          ((List.range' j m).map (digitWrite s.params n x) ++ ops) ys) =
      Host.Core.run Sys2Proof.core k
        (s.loading n ((s.reg n).overwritten s.params.w x (j + m)) ops ys') := by
  induction m generalizing j ys with
  | zero => exact ⟨ys, rfl⟩
  | succ m ih =>
    have hcap := hs.1.1.2
    have hn := n.isLt
    have hj : j < (s.reg n).dig.length := by rw [(State.wf_reg hs n).1]; omega
    have hstore (u : State) (hp : u.params = s.params) (hr : u.reg n = (s.reg n).overwritten s.params.w x j) :
        u.storeSlot true (BitVec.ofNat 64 (digit s.params.w x j)) (.dig n j) =
          u.setReg n ((s.reg n).overwritten s.params.w x (j + 1)) := by
      rw [State.storeSlot, hr, hp, lowDigit_digit s.params.w_le, set_dig_overwritten _ _ hj]
      rfl
    obtain ⟨ys', hrest⟩ := ih (j + 1) (by omega) (.written :: ys)
    refine ⟨ys', ?_⟩
    rw [List.range'_succ, List.map_cons, List.cons_append, ← Nat.add_assoc, digitWrite,
      run_loading_write hb ht (by omega) (by omega) (slotAt_dig s.params n hs.1 (by omega)) rfl hstore, hrest,
      Nat.add_right_comm j 1 m, Nat.add_assoc j m 1]

/-! The load. -/

/-- The register `r` after `ldi` of `v`: the digits above those of `v` are as before (R101). -/
def IntReg.afterLdi (p : Params) (r : IntReg) (v : Int) : IntReg :=
  { r.overwritten p.w v.natAbs (diglen p.w v.natAbs) with
    sign := decide (v < 0)
    used := BitVec.ofNat 16 (diglen p.w v.natAbs) }

/-- In the digits that `USED` covers, `ldi` leaves what the canonical write does. -/
theorem take_dig_afterLdi {p : Params} (hp : p.Ok) (r : IntReg) {v : Int} (h : diglen p.w v.natAbs ≤ p.cap) :
    (r.afterLdi p v).dig.take (IntReg.ofInt p v).used.toNat =
      (IntReg.ofInt p v).dig.take (IntReg.ofInt p v).used.toNat := by
  rw [used_ofInt hp h, IntReg.afterLdi, take_dig_overwritten, IntReg.ofInt, toDigits_take _ _ _ _ h]

theorem val_afterLdi {p : Params} (hp : p.Ok) (r : IntReg) {v : Int} (h : diglen p.w v.natAbs ≤ p.cap) :
    (r.afterLdi p v).val p.w = v :=
  (IntReg.val_congr (q := r.afterLdi p v) (r := IntReg.ofInt p v) p.w rfl rfl (take_dig_afterLdi hp r h)).trans
    (val_ofInt hp h)

theorem canonical_afterLdi {p : Params} (hp : p.Ok) (r : IntReg) {v : Int} (h : diglen p.w v.natAbs ≤ p.cap) :
    (r.afterLdi p v).canonical p.cap = true :=
  IntReg.canonical_congr (q := r.afterLdi p v) (r := IntReg.ofInt p v) p.cap rfl rfl (take_dig_afterLdi hp r h)
    (canonical_ofInt hp h)

theorem getLsbD_signWord (v : Int) : (if v < 0 then 1 else 0 : Word).getLsbD 0 = decide (v < 0) := by
  split <;> simp_all

theorem run_ldi {s : State} (hs : s.Wf) (hb : s.status.busy = false) (ht : s.turns = []) {n : RegNum} {v : Int}
    (hv : diglen s.params.w v.natAbs ≤ s.params.cap) (hh : s.host = ldi s.params n v) :
    ∃ ys, Host.Core.run Sys2Proof.core (diglen s.params.w v.natAbs + 2) s =
      .next (s.loading n ((s.reg n).afterLdi s.params v) [] ys) := by
  have hn := n.isLt
  obtain ⟨ys, hdigits⟩ := run_loading_digits hs hb ht n v.natAbs 2
    [w64 s.params (0x10000 + 0x1000 * n.toNat + 0x8) (if v < 0 then 1 else 0),
      w64 s.params (0x10000 + 0x1000 * n.toNat) (BitVec.ofNat 64 (diglen s.params.w v.natAbs))]
    (diglen s.params.w v.natAbs) 0 (by omega) s.replies
  rw [overwritten_zero, ← ldi_eq, ← hh, loading_self, Nat.zero_add] at hdigits
  have hsign (u : State) (_ : u.params = s.params)
      (hr : u.reg n = (s.reg n).overwritten s.params.w v.natAbs (diglen s.params.w v.natAbs)) :
      u.storeSlot true (if v < 0 then 1 else 0) (.sign n) =
        u.setReg n { (s.reg n).overwritten s.params.w v.natAbs (diglen s.params.w v.natAbs) with
          sign := decide (v < 0) } := by
    rw [State.storeSlot, hr, getLsbD_signWord]
  have hused (u : State) (_ : u.params = s.params)
      (hr : u.reg n = { (s.reg n).overwritten s.params.w v.natAbs (diglen s.params.w v.natAbs) with
          sign := decide (v < 0) }) :
      u.storeSlot true (BitVec.ofNat 64 (diglen s.params.w v.natAbs)) (.used n) =
        u.setReg n ((s.reg n).afterLdi s.params v) := by
    rw [State.storeSlot, hr, BitVec.setWidth_ofNat_of_le (by decide), IntReg.afterLdi]
  refine ⟨.written :: .written :: ys, ?_⟩
  rw [Nat.add_comm, hdigits,
    run_loading_write hb ht (by omega) (by omega) (slotAt_sign s.params n) rfl hsign,
    run_loading_write hb ht (by omega) (by omega) (slotAt_used s.params n) rfl hused]
  rfl

/-- Settles O57: the register loaded agrees with the canonical write where it counts (`take_dig_afterLdi`), and a load
touches nothing else. -/
theorem ldiLoadsTheInteger : Obligations.LdiLoadsTheInteger := by
  unfold Obligations.LdiLoadsTheInteger
  intro s n v hs hb ht hv hh
  obtain ⟨ys, hrun⟩ := run_ldi hs hb ht hv hh
  have hreg : (s.loading n ((s.reg n).afterLdi s.params v) [] ys).reg n = (s.reg n).afterLdi s.params v :=
    State.reg_setReg_self s n _
  refine ⟨_, hrun, rfl, ?_, ?_, fun r hr => State.reg_setReg_ne s n _ hr, rfl, rfl, rfl, rfl⟩
  · rw [State.val, hreg]
    exact val_afterLdi hs.1 (s.reg n) hv
  · rw [State.canonical, hreg]
    exact canonical_afterLdi hs.1 (s.reg n) hv

end Sys2Proof.Machine
end

section
/-! PROOFS. How a command ends (spec/40_command_execution.md R113 to R122): what it can write and what it depends on. -/

namespace Sys2Proof.Machine

/-! What a command can write. -/

/-- All that an integer command can do: raise an error, or write one canonical result (R116, R117). -/
theorem finishInt_writes (s : State) (srcs : List RegNum) (rd : RegNum) (res : Except Err Int) :
    (∃ e, s.finishInt srcs rd res = s.complete e) ∨
    ∃ v, s.finishInt srcs rd res = (s.setReg rd (IntReg.ofInt s.params v)).complete .ok := by
  obtain ⟨-, h⟩ | ⟨-, ⟨e, -, h⟩ | ⟨v, -, h⟩⟩ := finishInt_cases s srcs rd res <;> rw [h]
  · exact .inl ⟨_, rfl⟩
  · exact .inl ⟨e, rfl⟩
  · unfold State.commitInt
    split
    · exact .inl ⟨_, rfl⟩
    · exact .inr ⟨v, rfl⟩

/-- All that a command can do: raise an error, or end with `OK` and its destination written in its own file (R116,
R117). -/
theorem exec_writes {i : Instr} {s t : State} (h : exec i s = .next t) :
    (∃ e, t = s.complete e) ∨
    (i.isField = false ∧ ∃ v, t = (s.setReg i.rd (IntReg.ofInt s.params v)).complete .ok) ∨
    (i.isField = true ∧ ∃ x, t = (s.setFreg i.rd (FieldReg.ofPoly s.params x)).complete .ok) := by
  obtain ⟨hk, res, e⟩ | ⟨hk, x, e⟩ := exec_ends i s <;> rw [e] at h <;> cases h
  · exact (finishInt_writes s i.sources i.rd res).imp id fun hv => .inl ⟨hk, hv⟩
  · exact .inr (.inr ⟨hk, x, rfl⟩)

/-- Settles O27: each of the three ends of `exec_writes` leaves all that the statement names. -/
theorem commandFrame : Obligations.CommandFrame := by
  unfold Obligations.CommandFrame
  intro s t i h
  obtain ⟨e, rfl⟩ | ⟨hk, v, rfl⟩ | ⟨hk, x, rfl⟩ := exec_writes h
  · exact ⟨by simp [SameAround], rfl, rfl, fun n _ => rfl, fun n _ => rfl⟩
  · refine ⟨by simp [SameAround], rfl, rfl, fun n hn => ?_, fun n _ => rfl⟩
    exact State.reg_setReg_ne s i.rd _ (hn.resolve_left (by simp [hk]))
  · refine ⟨by simp [SameAround], rfl, rfl, fun n _ => rfl, fun n hn => ?_⟩
    exact State.freg_setFreg_ne s i.rd _ (hn.resolve_left (by simp [hk]))

/-- Settles O29: of the ends of `exec_writes`, only the one that writes no register has a code other than `OK`. -/
theorem failedCommandWritesNoRegister : Obligations.FailedCommandWritesNoRegister := by
  unfold Obligations.FailedCommandWritesNoRegister
  intro s t i h herr
  obtain ⟨e, rfl⟩ | ⟨-, v, rfl⟩ | ⟨-, x, rfl⟩ := exec_writes h
  · exact ⟨raised_raise s e, rfl⟩
  · exact absurd rfl herr
  · exact absurd rfl herr

/-- A source that is not canonical ends an integer command with `OPERAND` (R113). -/
theorem finishInt_of_not_canonical {s : State} {srcs : List RegNum} {r : RegNum} (hr : r ∈ srcs)
    (hc : s.canonical r = false) (rd : RegNum) (res : Except Err Int) :
    s.finishInt srcs rd res = s.raise .operand := by
  have hall : ¬srcs.all s.canonical = true := fun h => by simp [List.all_eq_true.1 h r hr] at hc
  exact if_neg hall

/-- Settles O26: an integer command ends by `finishInt`, a field command by the commit of its result. -/
theorem noncanonicalOperandIsRefused : Obligations.NoncanonicalOperandIsRefused := by
  unfold Obligations.NoncanonicalOperandIsRefused
  refine ⟨fun s i hk ⟨r, hr, hc⟩ => ?_, fun s i hk => ?_⟩
  · obtain ⟨-, res, e⟩ | ⟨hk', -⟩ := exec_ends i s
    · rw [e, finishInt_of_not_canonical hr hc]
      exact ⟨_, rfl, raised_raise s .operand⟩
    · simp [hk] at hk'
  · obtain ⟨hk', -⟩ | ⟨-, x, e⟩ := exec_ends i s
    · simp [hk] at hk'
    · exact ⟨_, e, rfl⟩

/-! What a command depends on. No rule answers `OK` as its error: else a command could end with `OK` and leave its
destination as it was. The codes that a rule can name are those of its own checks (spec/60_exceptions.md R230). -/

theorem moddig_error_mem {a : Int} {divisor : IntReg} {e : Err} (h : moddig a divisor = .error e) :
    e ∈ [Err.operand, .divisionByZero] := by
  unfold moddig at h
  split at h
  · cases h; simp
  · split_ifs at h; cases h; simp

theorem modbasic_error_mem {a m : Int} {e : Err} (h : modbasic a m = .error e) :
    e ∈ [Err.divisionByZero, .invalidModulus] := by
  unfold modbasic at h
  split_ifs at h <;> cases h <;> simp

theorem bsetup_error_mem {w : Nat} {m : Int} {e : Err} (h : bsetup w m = .error e) : e ∈ [Err.invalidModulus] := by
  unfold bsetup at h
  split_ifs at h; cases h; simp

theorem bred_error_mem {w : Nat} {a m u : Int} {e : Err} (h : bred w a m u = .error e) :
    e ∈ [Err.invalidModulus, .operand] := by
  unfold bred at h
  split_ifs at h <;> cases h <;> simp

theorem msetup_error_mem {w : Nat} {m : Int} {e : Err} (h : msetup w m = .error e) : e ∈ [Err.invalidModulus] := by
  unfold msetup at h
  split_ifs at h <;> cases h <;> simp

theorem mto_error_mem {w : Nat} {a m : Int} {e : Err} (h : mto w a m = .error e) : e ∈ [Err.invalidModulus] := by
  unfold mto at h
  split_ifs at h; cases h; simp

theorem redcResult_error_eq {w a m u0 : Nat} {e : Err} (h : redcResult w a m u0 = .error e) : e = .range := by
  unfold redcResult at h
  split at h <;> cases h
  rfl

theorem mfrom_error_mem {w : Nat} {a m : Int} {e : Err} (h : mfrom w a m = .error e) :
    e ∈ [Err.invalidModulus, .operand, .range] := by
  unfold mfrom at h
  split_ifs at h
  case neg => simp [redcResult_error_eq h]
  all_goals cases h; simp

theorem mred_error_mem {w : Nat} {a m : Int} {context : IntReg} {e : Err} (h : mred w a m context = .error e) :
    e ∈ [Err.invalidModulus, .operand, .range] := by
  unfold mred at h
  split at h
  · cases h; simp
  · split at h
    · cases h; simp
    · split_ifs at h
      case neg => simp [redcResult_error_eq h]
      all_goals cases h; simp

theorem rsetup_error_mem {w : Nat} {m : Int} {e : Err} (h : rsetup w m = .error e) : e ∈ [Err.invalidModulus] := by
  unfold rsetup at h
  split_ifs at h <;> cases h <;> simp

theorem rred_error_mem {a m : Int} {context : IntReg} {e : Err} (h : rred a m context = .error e) :
    e ∈ [Err.invalidModulus, .operand] := by
  unfold rred at h
  split at h
  · cases h; simp
  · split at h
    · cases h; simp
    · split_ifs at h <;> cases h <;> simp

theorem SameInputs.params {s t : State} {i : Instr} (h : SameInputs s t i) : s.params = t.params := by
  cases i <;> exact h.1

theorem SameInputs.reg {s t : State} {i : Instr} (h : SameInputs s t i) (hk : i.isField = false) :
    ∀ r ∈ i.sources, s.reg r = t.reg r := by
  cases i <;> simp_all [SameInputs, Instr.sources, Instr.isField]

theorem State.val_congr {s t : State} {r : RegNum} (hp : s.params = t.params) (hr : s.reg r = t.reg r) :
    s.val r = t.val r := by rw [State.val, State.val, hp, hr]

/-- On the same inputs an integer command has one rule result, and it is not the error `OK` (R115, R119). -/
theorem exec_int_sameInputs {s t : State} {i : Instr} (hk : i.isField = false) (h : SameInputs s t i) :
    ∃ res, exec i s = .next (s.finishInt i.sources i.rd res) ∧ exec i t = .next (t.finishInt i.sources i.rd res) ∧
      res ≠ .error .ok := by
  cases i with
  | mod2b d a =>
    obtain ⟨hp, ha, harg⟩ := h
    exact ⟨_, rfl, by rw [State.val_congr hp ha, hp, State.bitCount, harg]; rfl, nofun⟩
  | moddig d a b =>
    obtain ⟨hp, ha, hb⟩ := h
    exact ⟨_, rfl, by rw [State.val_congr hp ha, hb]; rfl, fun e => absurd (moddig_error_mem e) (by decide)⟩
  | modbasic d a b =>
    obtain ⟨hp, ha, hb⟩ := h
    exact ⟨_, rfl, by rw [State.val_congr hp ha, State.val_congr hp hb]; rfl,
      fun e => absurd (modbasic_error_mem e) (by decide)⟩
  | bsetup d b =>
    obtain ⟨hp, hb⟩ := h
    exact ⟨_, rfl, by rw [State.val_congr hp hb, hp]; rfl, fun e => absurd (bsetup_error_mem e) (by decide)⟩
  | bred d a b c =>
    obtain ⟨hp, ha, hb, hc⟩ := h
    exact ⟨_, rfl, by rw [State.val_congr hp ha, State.val_congr hp hb, State.val_congr hp hc, hp]; rfl,
      fun e => absurd (bred_error_mem e) (by decide)⟩
  | msetup d b =>
    obtain ⟨hp, hb⟩ := h
    exact ⟨_, rfl, by rw [State.val_congr hp hb, hp]; rfl, fun e => absurd (msetup_error_mem e) (by decide)⟩
  | mto d a b =>
    obtain ⟨hp, ha, hb⟩ := h
    exact ⟨_, rfl, by rw [State.val_congr hp ha, State.val_congr hp hb, hp]; rfl,
      fun e => absurd (mto_error_mem e) (by decide)⟩
  | mfrom d a b =>
    obtain ⟨hp, ha, hb⟩ := h
    exact ⟨_, rfl, by rw [State.val_congr hp ha, State.val_congr hp hb, hp]; rfl,
      fun e => absurd (mfrom_error_mem e) (by decide)⟩
  | mred d a b c =>
    obtain ⟨hp, ha, hb, hc⟩ := h
    exact ⟨_, rfl, by rw [State.val_congr hp ha, State.val_congr hp hb, hc, hp]; rfl,
      fun e => absurd (mred_error_mem e) (by decide)⟩
  | rchk d b =>
    obtain ⟨hp, hb⟩ := h
    exact ⟨_, rfl, by rw [State.val_congr hp hb, hp]; rfl, nofun⟩
  | rsetup d b =>
    obtain ⟨hp, hb⟩ := h
    exact ⟨_, rfl, by rw [State.val_congr hp hb, hp]; rfl, fun e => absurd (rsetup_error_mem e) (by decide)⟩
  | rred d a b c =>
    obtain ⟨hp, ha, hb, hc⟩ := h
    exact ⟨_, rfl, by rw [State.val_congr hp ha, State.val_congr hp hb, hc]; rfl,
      fun e => absurd (rred_error_mem e) (by decide)⟩
  | fmul1 | fmulf | fmulr => cases hk

/-- On the same inputs a field command has one result (R119). -/
theorem exec_field_sameInputs {s t : State} {i : Instr} (hk : i.isField = true) (h : SameInputs s t i) :
    ∃ x, exec i s = .next (s.commitField i.rd x) ∧ exec i t = .next (t.commitField i.rd x) := by
  cases i with
  | fmul1 d a b | fmulr d a b =>
    obtain ⟨hp, ha, hb⟩ := h
    exact ⟨_, rfl, by rw [hp, ha, hb]; rfl⟩
  | fmulf d a b =>
    obtain ⟨-, ha, hb⟩ := h
    exact ⟨_, rfl, by rw [ha, hb]; rfl⟩
  | _ => cases hk

theorem all_canonical_congr {s t : State} {srcs : List RegNum} (hp : s.params = t.params)
    (hr : ∀ r ∈ srcs, s.reg r = t.reg r) : srcs.all s.canonical = srcs.all t.canonical := by
  rw [Bool.eq_iff_iff, List.all_eq_true, List.all_eq_true]
  exact forall₂_congr fun r h => by rw [State.canonical, State.canonical, hp, hr r h]

/-- The end of an integer command with a given rule result depends on the parameters and on its sources alone (R113,
R117, R119). -/
theorem finishInt_congr {s t : State} {srcs : List RegNum} (hp : s.params = t.params)
    (hr : ∀ r ∈ srcs, s.reg r = t.reg r) (rd : RegNum) {res : Except Err Int} (hres : res ≠ .error .ok) :
    (s.finishInt srcs rd res).status.err = (t.finishInt srcs rd res).status.err ∧
      ((s.finishInt srcs rd res).status.err = .ok →
        (s.finishInt srcs rd res).reg rd = (t.finishInt srcs rd res).reg rd) := by
  unfold State.finishInt
  rw [all_canonical_congr hp hr]
  split
  · cases res with
    | error e => exact ⟨rfl, fun h => absurd (congrArg Except.error h) hres⟩
    | ok v =>
      simp only [State.commitInt, hp]
      split
      · exact ⟨rfl, nofun⟩
      · simp
  · exact ⟨rfl, nofun⟩

/-- Settles O31: on the same inputs the two states reach the same shared end with the same rule result. -/
theorem commandDependsOnItsOperandsOnly : Obligations.CommandDependsOnItsOperandsOnly := by
  unfold Obligations.CommandDependsOnItsOperandsOnly
  intro s t s' t' i h hs ht
  cases hk : i.isField with
  | false =>
    obtain ⟨res, es, et, hres⟩ := exec_int_sameInputs hk h
    rw [es] at hs; cases hs
    rw [et] at ht; cases ht
    obtain ⟨herr, hreg⟩ := finishInt_congr h.params (h.reg hk) i.rd hres
    exact ⟨herr, fun hok => ⟨fun _ => hreg hok, nofun⟩⟩
  | true =>
    obtain ⟨x, es, et⟩ := exec_field_sameInputs hk h
    rw [es] at hs; cases hs
    rw [et] at ht; cases ht
    exact ⟨rfl, fun _ => ⟨nofun, fun _ => by simp [State.commitField, h.params]⟩⟩

end Sys2Proof.Machine
end

section
/-! PROOFS. An accepted command completes (spec/40_command_execution.md R111): a run over the turns fixed beforehand,
and one step more. -/

namespace Sys2Proof.Machine

/-- With no host access waiting, a turn of the host only uses up the turn; the run goes on from there. -/
theorem run_host_nil {s : State} (hn : s.nextTurn = .host) (hh : s.host = []) (k : Nat) :
    Host.Core.run Sys2Proof.core (k + 1) s = Host.Core.run Sys2Proof.core k s.popTurn :=
  run_succ (step_host_nil hn hh) k

/-- The engine's turn of a busy engine is one step, the completion (R111). -/
theorem run_engine {s : State} (hn : s.nextTurn = .engine) (hb : s.status.busy = true) :
    ∃ t, Host.Core.run Sys2Proof.core 1 s = .next t ∧ t.status.busy = false ∧ t.status.done = true ∧
      s.popTurn.engineTurn = .next t := by
  obtain ⟨t, e, ht, hst⟩ := engineTurn_completes (s := s.popTurn) hb
  have hstep : step s = .next t := by rw [step, hn, State.takeTurn, ht]
  exact ⟨t, run_succ hstep 0, by simp [hst], by simp [hst], ht⟩

/-- The turn of the reset input is one step, the reset event (spec/70_reset_and_hazards.md R260). -/
theorem run_reset {s : State} (hn : s.nextTurn = .reset) :
    Host.Core.run Sys2Proof.core 1 s = .next s.popTurn.resetEvent := by
  have hstep : step s = .next s.popTurn.resetEvent := by rw [step, hn, State.takeTurn]
  exact run_succ hstep 0

/-- The run of a busy engine to its completion or its reset, by the turns fixed beforehand: each turn of the host is one
step that leaves the command in flight. -/
theorem run_completes (turns : List Turn) : ∀ s : State, s.turns = turns → s.status.busy = true → s.host = [] →
    ∃ n, n ≤ turns.length + 1 ∧ ∃ t, Host.Core.run Sys2Proof.core n s = .next t ∧ t.status.busy = false ∧
      (Turn.reset ∉ turns →
        t.status.done = true ∧ ∃ later, ({ s with turns := later } : State).engineTurn = .next t) := by
  induction turns with
  | nil =>
    intro s ht hb _
    obtain ⟨t, hrun, hidle, hdone, hturn⟩ := run_engine (s := s) (by simp [State.nextTurn, ht, hb]) hb
    exact ⟨1, by simp, t, hrun, hidle, fun _ => ⟨hdone, _, hturn⟩⟩
  | cons turn later ih =>
    intro s ht hb hh
    have hn : s.nextTurn = turn := by simp [State.nextTurn, ht]
    cases turn with
    | host =>
      obtain ⟨n, hle, t, hrun, hidle, hdone⟩ := ih s.popTurn (by simp [ht]) hb hh
      refine ⟨n + 1, by simpa using hle, t, (run_host_nil hn hh n).trans hrun, hidle, fun hno => ?_⟩
      exact hdone (List.not_mem_of_not_mem_cons hno)
    | engine =>
      obtain ⟨t, hrun, hidle, hdone, hturn⟩ := run_engine hn hb
      exact ⟨1, by simp, t, hrun, hidle, fun _ => ⟨hdone, _, hturn⟩⟩
    | reset => exact ⟨1, by simp, _, run_reset hn, rfl, fun hno => absurd List.mem_cons_self hno⟩

/-- Settles O9, by induction on the turns fixed beforehand. -/
theorem acceptedCommandCompletes : Obligations.AcceptedCommandCompletes := by
  unfold Obligations.AcceptedCommandCompletes
  exact fun s hb hh => run_completes s.turns s rfl hb hh

end Sys2Proof.Machine
end

section
/-! PROOFS. The slot of `CMD` (spec/10_state.md R41) and the write that starts a command (spec/40_command_execution.md
R110). -/

namespace Sys2Proof.Machine

/-- The low word of a slot value that a write at the slot's offset makes is that of the value written (spec/20_memory.md
R67). -/
theorem setWidth_mergePart {n : Nat} (hn : n = 4 ∨ n = 8) (old v : Word) :
    (mergePart 0x8 n old v).setWidth 32 = v.extractLsb' 0 32 := by
  obtain rfl | rfl := hn
  · exact setWidth_halves _ _
  · exact BitVec.setWidth_eq_extractLsb' (by decide)

/-- A `CMD` read shows the last accepted word below bits of 0 (spec/10_state.md R41). -/
theorem slotValue_cmd (s : State) : s.slotValue .cmd = (0 : BitVec 32) ++ s.cmd :=
  BitVec.setWidth_eq_append (by decide)

/-- Settles O6: each access is the accepted or the refused access to the slot of `CMD`. -/
theorem cmdWriteStartsTheCommand : Obligations.CmdWriteStartsTheCommand := by
  unfold Obligations.CmdWriteStartsTheCommand
  refine ⟨fun s n v hn => ?_, fun s v hb => ?_, fun s => ?_⟩
  · have ha : accepted 0x8 n = true := by simpa [accepted, or_comm] using hn
    refine ⟨fun hb => ?_, fun hb => memWrite_refused v hb ha rfl⟩
    have hlow : coversLow 0x8 n = true := by simp [coversLow]
    rw [memWrite_of_not_refused (x := .cmd) v ha rfl (by simp [hb]), hlow, State.storeSlot, if_pos rfl,
      setWidth_mergePart hn]
    rfl
  · exact memWrite_of_not_refused (x := .cmd) v rfl rfl (by simp [hb])
  · have hread {off n : Nat} (ha : accepted off n = true) (hx : slotAt s.params (slotOffset off) = .cmd) :
        s.memRead off n = s.reply (readPart off n ((0 : BitVec 32) ++ s.cmd)) := by
      rw [memRead_of_not_inWindow ha hx rfl, slotValue_cmd]
    exact ⟨hread rfl rfl,
      (hread rfl rfl).trans (congrArg (fun c => s.reply (.data4 c)) BitVec.extractLsb'_append_eq_right),
      (hread rfl rfl).trans (congrArg (fun c => s.reply (.data4 c)) BitVec.extractLsb'_append_eq_left)⟩

end Sys2Proof.Machine
end

section
/-! PROOFS. The three commands of spec/41_truncation_division.md: what each rule answers, that its result fits `CAP`
digits, and how the command ends. -/

namespace Sys2Proof.Machine

/-! The end of a command whose sources are canonical (spec/40_command_execution.md R116, R117). -/

theorem ends_raised_finishInt {s : State} {srcs : List RegNum} (h : srcs.all s.canonical = true) (rd : RegNum)
    {res : Except Err Int} {e : Err} (hres : res = .error e) :
    Ends (.next (s.finishInt srcs rd res)) (Raised s e) := by
  rw [hres, finishInt_error h]
  exact ⟨_, rfl, raised_raise s e⟩

theorem ends_wroteInt_finishInt {s : State} {srcs : List RegNum} (hp : s.params.Ok) (h : srcs.all s.canonical = true)
    (rd : RegNum) {res : Except Err Int} {v : Int} (hres : res = .ok v)
    (hfit : diglen s.params.w v.natAbs ≤ s.params.cap) :
    Ends (.next (s.finishInt srcs rd res)) (WroteInt s rd v) := by
  rw [hres, finishInt_ok h]
  exact ⟨_, rfl, wroteInt_commitInt hp rd hfit⟩

/-- A number no longer than the value of a canonical register fits `CAP` digits. -/
theorem State.diglen_le_cap_of_natAbs_le {s : State} (hw : s.Wf) {n : RegNum} (hc : s.canonical n = true) {v : Int}
    (hv : v.natAbs ≤ (s.val n).natAbs) : diglen s.params.w v.natAbs ≤ s.params.cap :=
  (diglen_mono s.params.w_pos hv).trans (State.diglen_val_le hw hc)

/-- A remainder by the positive value of a canonical register fits `CAP` digits. -/
theorem State.diglen_emod_val_le {s : State} (hw : s.Wf) {n : RegNum} (hc : s.canonical n = true) (hpos : 0 < s.val n)
    (a : Int) : diglen s.params.w (a % s.val n).natAbs ≤ s.params.cap := by
  have h0 := Int.emod_nonneg a hpos.ne'
  have hlt := Int.emod_lt_of_pos a hpos
  exact State.diglen_le_cap_of_natAbs_le hw hc (by omega)

/-! `MOD2B` (R130). -/

/-- Dropping whole digits and masking the one that contains bit `b` keeps the low `b` bits. -/
theorem truncate_eq_mod {w : Nat} (hw : 0 < w) (x b : Nat) : truncate w x b = x % 2 ^ b := by
  have hmask : digit w x (b / w) % 2 ^ (b % w) = x / 2 ^ (w * (b / w)) % 2 ^ (b % w) :=
    Nat.mod_mod_of_dvd _ (Nat.pow_dvd_pow 2 (Nat.mod_lt b hw).le)
  calc truncate w x b
      = x % 2 ^ (w * (b / w)) + 2 ^ (w * (b / w)) * (x / 2 ^ (w * (b / w)) % 2 ^ (b % w)) := by
        rw [truncate, hmask, Nat.mul_comm (2 ^ (w * (b / w)))]
    _ = x % 2 ^ (w * (b / w) + b % w) := by rw [Nat.pow_add, Nat.mod_mul]
    _ = x % 2 ^ b := by rw [Nat.div_add_mod]

/-- `MOD2B` in the words of R130: the magnitude mod `2^b`, with the sign of `a`. -/
theorem mod2b_eq {w : Nat} (hw : 0 < w) (a b : Int) :
    mod2b w a b =
      if b ≤ 0 then 0
      else if (bitlen a.natAbs : Int) ≤ b then a
      else if a < 0 then -((a.natAbs % 2 ^ b.toNat : Nat) : Int)
      else ((a.natAbs % 2 ^ b.toNat : Nat) : Int) := by
  simp only [mod2b, truncate_eq_mod hw]

theorem natAbs_mod2b_le {w : Nat} (hw : 0 < w) (a b : Int) : (mod2b w a b).natAbs ≤ a.natAbs := by
  have hmod := Nat.mod_le a.natAbs (2 ^ b.toNat)
  rw [mod2b_eq hw]
  split_ifs <;> omega

/-- Settles O10: the result is no longer than `a`, so it fits, and `truncate` is the remainder by `2^b`. -/
theorem mod2bTruncates : Obligations.Mod2bTruncates := by
  unfold Obligations.Mod2bTruncates
  intro s rd ra hs ha
  have hw := s.params.w_pos
  have hfit := State.diglen_le_cap_of_natAbs_le hs ha (natAbs_mod2b_le hw (s.val ra) s.bitCount)
  rw [mod2b_eq hw] at hfit
  have hall : [ra].all s.canonical = true := by simp [ha]
  exact ⟨decode_encode (.mod2b rd ra),
    ends_wroteInt_finishInt hs.1 hall rd (congrArg Except.ok (mod2b_eq hw _ _)) hfit⟩

/-! `MODDIG` (R131): the divisor register as one digit, and the rule for each of its forms. -/

theorem IntReg.oneDigit_malformed {r : IntReg} (h : r.sign = true ∨ 1 < r.used.toNat) : r.oneDigit = none :=
  if_pos h

theorem IntReg.oneDigit_empty {r : IntReg} (hs : r.sign = false) (hu : r.used.toNat = 0) : r.oneDigit = some 0 := by
  simp [IntReg.oneDigit, hs, hu]

theorem IntReg.oneDigit_single {r : IntReg} (hs : r.sign = false) (hu : r.used.toNat = 1) :
    r.oneDigit = some (r.dig.getD 0 0).toNat := by
  simp [IntReg.oneDigit, hs, hu]

theorem State.val_of_oneDigit {s : State} (hw : s.Wf) {n : RegNum} (hc : s.canonical n = true) {d : Nat}
    (h : (s.reg n).oneDigit = some d) : s.val n = d := by
  rw [State.oneDigit_eq hw hc] at h
  split at h
  · cases h
  · injection h with hd
    omega

/-- The one digit of a canonical register is nonzero (spec/10_state.md R33). -/
theorem IntReg.digit_pos {cap : Nat} {r : IntReg} (hc : r.canonical cap = true) (hu : r.used.toNat = 1) :
    0 < (r.dig.getD 0 0).toNat := by
  obtain ⟨-, -, htop⟩ := (IntReg.canonical_iff _ _).1 hc
  have hne := htop (by omega)
  rw [hu] at hne
  exact Nat.pos_of_ne_zero fun h => hne (BitVec.eq_of_toNat_eq h)

theorem moddig_of_malformed {r : IntReg} (a : Int) (h : r.oneDigit = none) : moddig a r = .error .operand := by
  rw [moddig, h]

theorem moddig_of_zero {r : IntReg} (a : Int) (h : r.oneDigit = some 0) : moddig a r = .error .divisionByZero := by
  rw [moddig, h]
  rfl

theorem moddig_of_pos {r : IntReg} {d : Nat} (a : Int) (h : r.oneDigit = some d) (hd : 0 < d) :
    moddig a r = .ok (a % d) := by
  rw [moddig, h]
  exact if_neg hd.ne'

/-- Settles O11: the divisor digit is the value of the divisor register, so the remainder fits. -/
theorem moddigWritesTheRemainder : Obligations.ModdigWritesTheRemainder := by
  unfold Obligations.ModdigWritesTheRemainder
  intro s rd ra rb hs ha hb
  have hall : [ra, rb].all s.canonical = true := by simp [ha, hb]
  refine ⟨decode_encode (.moddig rd ra rb), fun hbad => ?_, fun hsign hused => ?_, fun hsign hused => ?_⟩
  · exact ends_raised_finishInt hall rd (moddig_of_malformed _ (IntReg.oneDigit_malformed hbad))
  · exact ends_raised_finishInt hall rd (moddig_of_zero _ (IntReg.oneDigit_empty hsign hused))
  · have hd := IntReg.oneDigit_single hsign hused
    have hpos := IntReg.digit_pos hb hused
    have hval := State.val_of_oneDigit hs hb hd
    have hfit := State.diglen_emod_val_le hs hb (by omega) (s.val ra)
    rw [hval] at hfit
    exact ⟨hpos, ends_wroteInt_finishInt hs.1 hall rd (moddig_of_pos _ hd hpos) hfit⟩

/-! `MODBASIC` (R132). -/

theorem modbasic_of_zero (a : Int) : modbasic a 0 = .error .divisionByZero := rfl

theorem modbasic_of_neg {m : Int} (a : Int) (h : m < 0) : modbasic a m = .error .invalidModulus := by
  rw [modbasic, if_neg h.ne, if_pos h]

theorem modbasic_of_pos {m : Int} (a : Int) (h : 0 < m) : modbasic a m = .ok (a % m) := by
  rw [modbasic, if_neg h.ne', if_neg h.not_gt]

/-- Settles O12: the remainder is below the modulus, so it fits. -/
theorem modbasicWritesTheRemainder : Obligations.ModbasicWritesTheRemainder := by
  unfold Obligations.ModbasicWritesTheRemainder
  intro s rd ra rb hs ha hb
  have hall : [ra, rb].all s.canonical = true := by simp [ha, hb]
  refine ⟨decode_encode (.modbasic rd ra rb), fun hzero => ?_, fun hneg => ?_, fun hpos => ?_⟩
  · exact ends_raised_finishInt hall rd (hzero ▸ modbasic_of_zero _)
  · exact ends_raised_finishInt hall rd (modbasic_of_neg _ hneg)
  · exact ends_wroteInt_finishInt hs.1 hall rd (modbasic_of_pos _ hpos) (State.diglen_emod_val_le hs hb hpos _)

end Sys2Proof.Machine
end

section
/-! PROOFS. Barrett reduction (spec/42_barrett.md): when the context fits, what the value of step 5 is for any context,
and that it is below `3m` with the context of `m`. -/

namespace Sys2Proof

theorem Params.one_lt_w (p : Params) : 1 < p.w := by cases h : p.width <;> simp [Params.w, DigitWidth.bits, h]

end Sys2Proof

namespace Sys2Proof.Machine

/-! `BSETUP` (R150). -/

theorem bsetup_of_nonpos {m : Int} (w : Nat) (h : m ≤ 0) : bsetup w m = .error .invalidModulus := if_pos h

theorem bsetup_of_pos {m : Int} (w : Nat) (h : 0 < m) :
    bsetup w m = .ok (2 ^ (w * (2 * diglen w m.toNat)) / m) := if_neg h.not_ge

/-- A result that does not fit `CAP` digits ends the command with `CAPACITY` (R117). -/
theorem ends_raised_capacity {s : State} {srcs : List RegNum} (h : srcs.all s.canonical = true) (rd : RegNum)
    {res : Except Err Int} {v : Int} (hres : res = .ok v) (hbig : s.params.cap < diglen s.params.w v.natAbs) :
    Ends (.next (s.finishInt srcs rd res)) (Raised s .capacity) := by
  rw [hres, finishInt_ok h]
  exact ⟨_, rfl, raised_commitInt s rd hbig⟩

/-- Settles O13: the context is not negative, and the commit decides whether it fits. -/
theorem bsetupWritesTheContext : Obligations.BsetupWritesTheContext := by
  unfold Obligations.BsetupWritesTheContext
  intro s rd rb hs hb
  have hall : [rb].all s.canonical = true := by simp [hb]
  refine ⟨decode_encode (.bsetup rd rb), fun hnonpos => ?_, fun res hpos hres => ?_⟩
  · exact ends_raised_finishInt hall rd (bsetup_of_nonpos _ hnonpos)
  · have hrule : bsetup s.params.w (s.val rb) = .ok res := hres ▸ bsetup_of_pos _ hpos
    have hnn : 0 ≤ res := hres ▸ Int.ediv_nonneg (by positivity) hpos.le
    rw [show res.toNat = res.natAbs by omega]
    exact ⟨ends_raised_capacity hall rd hrule, ends_wroteInt_finishInt hs.1 hall rd hrule⟩

/-- The context of `m` has more than `n` digits exactly when `m * B^n <= B^(2k)`. -/
theorem lt_diglen_context_iff {w m : Nat} (hw : 0 < w) (hm : 0 < m) (k n : Nat) :
    n < diglen w (2 ^ (w * k) / m) ↔ m * 2 ^ (w * n) ≤ 2 ^ (w * k) := by
  rw [← Nat.not_le, diglen_le_iff hw, Nat.not_lt, Nat.le_div_iff_mul_le hm, Nat.mul_comm]

theorem pow_two_mul_split (w : Nat) {k : Nat} (hk : 0 < k) :
    2 ^ (w * (2 * k)) = 2 ^ (w * (k - 1)) * 2 ^ (w * (k + 1)) := by
  rw [← Nat.pow_add, ← Nat.mul_add]; congr 2; omega

/-- `floor(B^(2k) / m)` has `k + 1` digits, and `k + 2` when `m = B^(k-1)` (R150, corner cases). -/
theorem lt_diglen_context_iff_of_diglen {w m k : Nat} (hw : 0 < w) (hm : 0 < m) (hk : k = diglen w m) (n : Nat) :
    n < diglen w (2 ^ (w * (2 * k)) / m) ↔ n ≤ k ∨ (k + 1 = n ∧ m = 2 ^ (w * (k - 1))) := by
  have hkpos : 0 < k := hk ▸ diglen_pos hw hm
  have hlow : 2 ^ (w * (k - 1)) ≤ m := hk ▸ pow_diglen_pred_le hw (hk ▸ hkpos)
  have hhigh : m < 2 ^ (w * k) := hk ▸ lt_pow_diglen hw m
  rw [lt_diglen_context_iff hw hm]
  obtain hle | rfl | hgt : n ≤ k ∨ n = k + 1 ∨ k + 2 ≤ n := by omega
  · have hfit : m * 2 ^ (w * n) ≤ 2 ^ (w * (2 * k)) :=
      calc m * 2 ^ (w * n) ≤ 2 ^ (w * k) * 2 ^ (w * k) :=
            Nat.mul_le_mul hhigh.le (Nat.pow_le_pow_right (by omega) (Nat.mul_le_mul_left w hle))
        _ = 2 ^ (w * (2 * k)) := by rw [← Nat.pow_add]; congr 1; ring
    simp [hle, hfit]
  · rw [pow_two_mul_split w hkpos, Nat.mul_le_mul_right_iff (by positivity)]
    omega
  · have hbig : 2 ^ (w * (2 * k)) < m * 2 ^ (w * n) :=
      calc 2 ^ (w * (2 * k)) < 2 ^ (w * (k - 1) + w * (k + 2)) :=
            Nat.pow_lt_pow_right (by omega) (by rw [← Nat.mul_add]; exact Nat.mul_lt_mul_of_pos_left (by omega) hw)
        _ = 2 ^ (w * (k - 1)) * 2 ^ (w * (k + 2)) := Nat.pow_add ..
        _ ≤ m * 2 ^ (w * n) :=
            Nat.mul_le_mul hlow (Nat.pow_le_pow_right (by omega) (Nat.mul_le_mul_left w hgt))
    constructor <;> omega

/-- Settles O14: the commit raises `CAPACITY` exactly when the context has more than `CAP` digits. -/
theorem bsetupCapacityCondition : Obligations.BsetupCapacityCondition := by
  unfold Obligations.BsetupCapacityCondition
  intro s rd rb hs hb hpos k hk
  obtain ⟨-, -, hctx⟩ := bsetupWritesTheContext s rd rb hs hb
  obtain ⟨hbig, hfit⟩ := hctx _ hpos rfl
  rw [← hk] at hbig hfit
  obtain ⟨m, hm⟩ := Int.eq_ofNat_of_zero_le hpos.le
  rw [hm, Int.toNat_natCast] at hk
  have hlen := lt_diglen_context_iff_of_diglen s.params.w_pos (by omega) hk s.params.cap
  have hcast : ((2 : Int) ^ (s.params.w * (2 * k)) / s.val rb).toNat = 2 ^ (s.params.w * (2 * k)) / m := by
    rw [hm]
    exact_mod_cast Int.toNat_natCast (2 ^ (s.params.w * (2 * k)) / m)
  have hpow : s.val rb = 2 ^ (s.params.w * (k - 1)) ↔ m = 2 ^ (s.params.w * (k - 1)) := by rw [hm]; norm_cast
  rw [hpow, ← hlen, ← hcast]
  rw [← Nat.not_lt] at hfit
  by_cases hc : s.params.cap < diglen s.params.w ((2 : Int) ^ (s.params.w * (2 * k)) / s.val rb).toNat
  · obtain ⟨t, ht, -, -, -, -, herr, -⟩ := hbig hc
    exact ⟨t, ht, by simp [herr, hc]⟩
  · obtain ⟨t, ht, -, -, -, -, -, -, -, herr, -⟩ := hfit hc
    exact ⟨t, ht, by simp [herr, hc]⟩

/-! `BRED` with any context (R151, R154). -/

theorem bred_of_nonpos {m : Int} (w : Nat) (a u : Int) (h : m ≤ 0) : bred w a m u = .error .invalidModulus := if_pos h

theorem bred_of_bad_operand {w : Nat} {a m u : Int} (hm : 0 < m)
    (h : u < 0 ∨ a < 0 ∨ 2 * diglen w m.toNat < diglen w a.toNat) : bred w a m u = .error .operand := by
  rw [bred, if_neg hm.not_ge]
  split_ifs
  case neg => omega
  all_goals rfl

theorem bred_of_valid {w : Nat} {a m u : Int} (hm : 0 < m) (hu : 0 ≤ u) (ha : 0 ≤ a)
    (hlen : diglen w a.toNat ≤ 2 * diglen w m.toNat) :
    bred w a m u = .ok (barrett w a.toNat m.toNat u.toNat) := by
  rw [bred, if_neg hm.not_ge, if_neg hu.not_gt, if_neg ha.not_gt, if_neg hlen.not_gt]

theorem barrett_of_lt {a m : Nat} (w u : Nat) (h : a < m) : barrett w a m u = a := if_pos h

/-- Steps 1 to 6: the loop leaves the remainder of the value of step 5. -/
theorem barrett_of_le {a m : Nat} (w u : Nat) (hm : 0 < m) (h : m ≤ a) :
    barrett w a m u = barrettEstimate w a m u % m := by
  rw [barrett, if_neg h.not_gt, subtractLoop_eq_mod hm _ _ le_rfl]

theorem barrett_lt {m : Nat} (w a u : Nat) (hm : 0 < m) : barrett w a m u < m := by
  obtain h | h := Nat.lt_or_ge a m
  · rwa [barrett_of_lt w u h]
  · rw [barrett_of_le w u hm h]
    exact Nat.mod_lt _ hm

/-- Step 5: the difference of two residues with its borrow correction is the residue of the difference. -/
theorem borrow_eq_emod (a b : Nat) {M : Nat} (hM : 0 < M) :
    ((if a % M < b % M then a % M + M - b % M else a % M - b % M : Nat) : Int) = ((a : Int) - b) % M := by
  have ha := Nat.mod_lt a hM
  have hb := Nat.mod_lt b hM
  rw [Int.sub_emod, ← Int.natCast_emod, ← Int.natCast_emod]
  split
  · next h => rw [← Int.add_emod_right, Int.emod_eq_of_lt (by omega) (by omega)]; omega
  · next h => rw [Int.emod_eq_of_lt (by omega) (by omega)]; omega

/-- The quotient estimate `q3` of steps 1 to 3. -/
def barrettQuotient (w a m u : Nat) : Nat :=
  a / 2 ^ (w * (diglen w m - 1)) * u / 2 ^ (w * (diglen w m + 1))

/-- Steps 4 and 5: `a - q3 * m` modulo `B^(k+1)`. -/
theorem barrettEstimate_eq_emod (w a m u : Nat) :
    (barrettEstimate w a m u : Int) = ((a : Int) - barrettQuotient w a m u * m) % 2 ^ (w * (diglen w m + 1)) := by
  have h := borrow_eq_emod a (barrettQuotient w a m u * m) (M := 2 ^ (w * (diglen w m + 1))) (by positivity)
  rw [Int.natCast_mul, Int.natCast_pow] at h
  exact h

/-- The result of `BRED` is below the modulus, so it fits. -/
theorem State.diglen_barrett_le {s : State} (hs : s.Wf) {rb : RegNum} (hb : s.canonical rb = true) (hpos : 0 < s.val rb)
    (a u : Nat) : diglen s.params.w (barrett s.params.w a (s.val rb).toNat u : Int).natAbs ≤ s.params.cap := by
  have hlt := barrett_lt s.params.w a u (m := (s.val rb).toNat) (by omega)
  exact State.diglen_le_cap_of_natAbs_le hs hb (by omega)

/-- `BRED` on valid operands ends with the value of the rule. -/
theorem ends_wroteInt_bred {s : State} {rd ra rb rc : RegNum} (hs : s.Wf) (ha : s.canonical ra = true)
    (hb : s.canonical rb = true) (hc : s.canonical rc = true) (hm : 0 < s.val rb) (hu : 0 ≤ s.val rc)
    (hnn : 0 ≤ s.val ra) (hlen : diglen s.params.w (s.val ra).toNat ≤ 2 * diglen s.params.w (s.val rb).toNat) :
    Ends (exec (.bred rd ra rb rc) s)
      (WroteInt s rd (barrett s.params.w (s.val ra).toNat (s.val rb).toNat (s.val rc).toNat)) :=
  ends_wroteInt_finishInt hs.1 (by simp [ha, hb, hc]) rd (bred_of_valid hm hu hnn hlen)
    (State.diglen_barrett_le hs hb hm _ _)

/-- Settles O15: the checks in order, then the fast path or the remainder of the value of step 5. -/
theorem bredFollowsItsSteps : Obligations.BredFollowsItsSteps := by
  unfold Obligations.BredFollowsItsSteps
  intro s rd ra rb rc hs hca hcb hcc a m u k rfl rfl rfl hk
  have hall : [ra, rb, rc].all s.canonical = true := by simp [hca, hcb, hcc]
  refine ⟨decode_encode (.bred rd ra rb rc), fun hm => ?_, fun hm hbad => ?_, fun hm hu ha hlen => ?_⟩
  · exact ends_raised_finishInt hall rd (bred_of_nonpos _ _ _ hm)
  · exact ends_raised_finishInt hall rd (bred_of_bad_operand hm (hk ▸ hbad))
  · have hends := ends_wroteInt_bred (rd := rd) hs hca hcb hcc hm hu ha (hk ▸ hlen)
    obtain ⟨a, hA⟩ := Int.eq_ofNat_of_zero_le ha
    obtain ⟨m, hM⟩ := Int.eq_ofNat_of_zero_le hm.le
    obtain ⟨u, hU⟩ := Int.eq_ofNat_of_zero_le hu
    simp only [hA, hM, hU, Int.toNat_natCast] at hends hk hm ⊢
    subst hk
    refine ⟨fun hlt => ?_, fun hle => ?_⟩
    · rwa [barrett_of_lt _ _ (by omega)] at hends
    · rw [barrett_of_le _ _ (by omega) (by omega), Int.natCast_emod, barrettEstimate_eq_emod] at hends
      simpa [barrettQuotient] using hends

/-! `BRED` with the context of its modulus (R153). -/

/-- `q3 <= floor(a / m)`: no floor of steps 1 to 3 rounds up. -/
theorem quotient_mul_le {E : Nat} (hE : 0 < E) (a m D : Nat) : a / D * (D * E / m) / E * m ≤ a := by
  refine Nat.le_of_mul_le_mul_right ?_ hE
  calc a / D * (D * E / m) / E * m * E = a / D * (D * E / m) / E * E * m := by ring
    _ ≤ a / D * (D * E / m) * m := Nat.mul_le_mul_right _ (Nat.div_mul_le_self ..)
    _ = a / D * (D * E / m * m) := by ring
    _ ≤ a / D * (D * E) := Nat.mul_le_mul_left _ (Nat.div_mul_le_self ..)
    _ = a / D * D * E := by ring
    _ ≤ a * E := Nat.mul_le_mul_right _ (Nat.div_mul_le_self ..)

/-- `q3 >= floor(a / m) - 2`: each of the three floors loses less than one modulus. -/
theorem lt_quotient_mul_add {a m D E : Nat} (hD : 0 < D) (hE : 0 < E) (hm : D ≤ m) (ha : a < D * E) :
    a < a / D * (D * E / m) / E * m + 3 * m := by
  have hq1 : a / D ≤ E := (Nat.div_lt_of_lt_mul ha).le
  have hfloor1 : a < D * (a / D + 1) := Nat.lt_mul_div_succ a hD
  have hfloor2 : D * E < m * (D * E / m + 1) := Nat.lt_mul_div_succ _ (by omega)
  have hfloor3 := (Nat.lt_mul_div_succ (a / D * (D * E / m)) hE).le
  generalize a / D * (D * E / m) / E = q3 at hfloor3 ⊢
  generalize D * E / m = u at hfloor2 hfloor3
  generalize a / D = q1 at hq1 hfloor1 hfloor3
  refine Nat.lt_of_mul_lt_mul_right (a := E) ?_
  calc a * E < D * (q1 + 1) * E := Nat.mul_lt_mul_of_pos_right hfloor1 hE
    _ = q1 * (D * E) + D * E := by ring
    _ ≤ q1 * (m * (u + 1)) + m * E := Nat.add_le_add (Nat.mul_le_mul_left _ hfloor2.le) (Nat.mul_le_mul_right _ hm)
    _ = q1 * u * m + q1 * m + m * E := by ring
    _ ≤ E * (q3 + 1) * m + E * m + m * E := by gcongr
    _ = (q3 * m + 3 * m) * E := by ring

/-- `3m < B^(k+1)`: step 5 has room for the whole difference. -/
theorem three_mul_lt_pow {w : Nat} (hw : 1 < w) (m : Nat) : 3 * m < 2 ^ (w * (diglen w m + 1)) := by
  have hhigh := lt_pow_diglen (Nat.zero_lt_of_lt hw) m
  calc 3 * m ≤ 2 ^ 2 * m := Nat.mul_le_mul_right _ (by decide)
    _ < 2 ^ 2 * 2 ^ (w * diglen w m) := Nat.mul_lt_mul_of_pos_left hhigh (by decide)
    _ ≤ 2 ^ w * 2 ^ (w * diglen w m) := Nat.mul_le_mul_right _ (Nat.pow_le_pow_right (by decide) hw)
    _ = 2 ^ (w * (diglen w m + 1)) := by rw [← Nat.pow_add]; congr 1; ring

section
variable {w a m u : Nat} (hw : 1 < w) (hm : 0 < m) (hu : u = 2 ^ (w * (2 * diglen w m)) / m)
  (ha : a < 2 ^ (w * (2 * diglen w m)))
include hw hm hu ha

/-- With the context of `m`, `q3` is at most `floor(a / m)` and at least two less (R153). -/
theorem barrettQuotient_of_context : barrettQuotient w a m u * m ≤ a ∧ a < barrettQuotient w a m u * m + 3 * m := by
  have hk := diglen_pos (Nat.zero_lt_of_lt hw) hm
  have hlow := pow_diglen_pred_le (Nat.zero_lt_of_lt hw) hk
  rw [pow_two_mul_split w hk] at hu ha
  subst hu
  exact ⟨quotient_mul_le (by positivity) a m _, lt_quotient_mul_add (by positivity) (by positivity) hlow ha⟩

/-- With the context of `m` the value of step 5 is `a - q3 * m` itself (R153). -/
theorem barrettEstimate_of_context : barrettEstimate w a m u = a - barrettQuotient w a m u * m := by
  obtain ⟨hle, hlt⟩ := barrettQuotient_of_context hw hm hu ha
  have hroom := three_mul_lt_pow hw m
  zify [hle] at hlt hroom ⊢
  rw [barrettEstimate_eq_emod]
  exact Int.emod_eq_of_lt (by omega) (by omega)

/-- With the context of `m` the value of step 5 is below `3m`, so step 6 subtracts at most twice (R153). -/
theorem barrettEstimate_lt_of_context : barrettEstimate w a m u < 3 * m := by
  have hquot := barrettQuotient_of_context hw hm hu ha
  rw [barrettEstimate_of_context hw hm hu ha]
  omega

/-- With the context of `m` the result is `a mod m` (R153). -/
theorem barrett_of_context : barrett w a m u = a % m := by
  obtain h | h := Nat.lt_or_ge a m
  · rw [barrett_of_lt w u h, Nat.mod_eq_of_lt h]
  · obtain ⟨hle, -⟩ := barrettQuotient_of_context hw hm hu ha
    rw [Nat.mul_comm] at hle
    rw [barrett_of_le w u hm h, barrettEstimate_of_context hw hm hu ha, Nat.mul_comm, Nat.sub_mul_mod hle]

end

/-- Settles O33: the estimate `q3` is at most two below the quotient, so step 5 is exact and the loop leaves
`a mod m`. -/
theorem barrettReducesWithItsContext : Obligations.BarrettReducesWithItsContext := by
  unfold Obligations.BarrettReducesWithItsContext IsBarrettContext
  rintro s rd ra rb rc hs hca hcb hcc ⟨hm, hu⟩ ha hlt
  have hw := s.params.one_lt_w
  have hunn : 0 ≤ s.val rc := hu ▸ Int.ediv_nonneg (by positivity) hm.le
  have hltNat : (s.val ra).toNat < 2 ^ (s.params.w * (2 * diglen s.params.w (s.val rb).toNat)) := by
    zify; rwa [Int.toNat_of_nonneg ha]
  have huNat : (s.val rc).toNat = 2 ^ (s.params.w * (2 * diglen s.params.w (s.val rb).toNat)) / (s.val rb).toNat := by
    zify; rwa [Int.toNat_of_nonneg hunn, Int.toNat_of_nonneg hm.le]
  have hends := ends_wroteInt_bred (rd := rd) hs hca hcb hcc hm hunn ha
    ((diglen_le_iff s.params.w_pos _ _).2 hltNat)
  rw [barrett_of_context hw (by omega) huNat hltNat, Int.natCast_emod, Int.toNat_of_nonneg ha,
    Int.toNat_of_nonneg hm.le] at hends
  have hest := barrettEstimate_lt_of_context hw (by omega) huNat hltNat
  exact ⟨hends, by omega⟩

end Sys2Proof.Machine
end

section
/-! PROOFS. The range guarantee of the six reductions by a modulus (spec/41_truncation_division.md R132,
spec/42_barrett.md R151, spec/43_montgomery.md R171 to R174, spec/44_radix.md R195): whatever the context register
holds, a result of the rule lies in `[0, m)`, and it is committed as it is. -/

namespace Sys2Proof.Machine

/-! The results of the six rules. -/

theorem emod_mem_range {m : Int} (a : Int) (hm : 0 < m) : 0 ≤ a % m ∧ a % m < m :=
  ⟨Int.emod_nonneg a hm.ne', Int.emod_lt_of_pos a hm⟩

theorem modbasic_ok_range {a m v : Int} (h : modbasic a m = .ok v) : 0 ≤ v ∧ v < m := by
  unfold modbasic at h
  split_ifs at h with hzero hneg
  cases h
  exact emod_mem_range a (by omega)

theorem mto_ok_range {w : Nat} {a m v : Int} (h : mto w a m = .ok v) : 0 ≤ v ∧ v < m := by
  unfold mto at h
  split_ifs at h with hm
  cases h
  exact emod_mem_range _ (by omega)

theorem bred_ok_range {w : Nat} {a m u v : Int} (h : bred w a m u = .ok v) : 0 ≤ v ∧ v < m := by
  unfold bred at h
  split_ifs at h with hm
  cases h
  have hlt := barrett_lt w a.toNat u.toNat (m := m.toNat) (by omega)
  omega

/-- REDC answers only what its correction brought below the modulus (R171). -/
theorem redcCorrect_lt {m t t' : Nat} (h : redcCorrect m t = some t') : t' < m := by
  simp only [redcCorrect] at h
  generalize (if m ≤ t then t - m else t) = r at h
  split_ifs at h with hge
  cases h
  omega

theorem redcResult_ok_range {w a u0 : Nat} {m v : Int} (h : redcResult w a m.toNat u0 = .ok v) : 0 ≤ v ∧ v < m := by
  unfold redcResult at h
  split at h
  · cases h
  · next t ht =>
    cases h
    have hlt := redcCorrect_lt ht
    omega

theorem mfrom_ok_range {w : Nat} {a m v : Int} (h : mfrom w a m = .ok v) : 0 ≤ v ∧ v < m := by
  unfold mfrom at h
  split_ifs at h
  exact redcResult_ok_range h

theorem mred_ok_range {w : Nat} {a m v : Int} {context : IntReg} (h : mred w a m context = .ok v) :
    0 ≤ v ∧ v < m := by
  unfold mred at h
  split at h
  · cases h
  · split at h
    · cases h
    · split_ifs at h
      exact redcResult_ok_range h

/-- A pass with a factor `c <= 2^bits` does not make the value larger (R195). -/
theorem foldOnce_le {bits c : Nat} (hc : c ≤ 2 ^ bits) (v : Nat) : foldOnce bits c v ≤ v :=
  calc foldOnce bits c v ≤ v % 2 ^ bits + v / 2 ^ bits * 2 ^ bits := Nat.add_le_add_left (Nat.mul_le_mul_left _ hc) _
    _ = v := Nat.mod_add_div' ..

/-- Every pass but the last subtracts `m`, so more fuel than the value is enough to end below `m` (R196). -/
theorem foldLoop_lt {bits m c : Nat} (hm : 0 < m) (hc : c ≤ 2 ^ bits) :
    ∀ fuel v, v < fuel → foldLoop bits m c fuel v < m := by
  intro fuel
  induction fuel with
  | zero => intro v hv; omega
  | succ n ih =>
    intro v hv
    have hle : v % 2 ^ bits + v / 2 ^ bits * c ≤ v := foldOnce_le hc v
    simp only [foldLoop]
    split
    · exact ih _ (by omega)
    · next hlt => exact Nat.lt_of_not_le hlt

theorem rred_ok_range {a m v : Int} {context : IntReg} (h : rred a m context = .ok v) : 0 ≤ v ∧ v < m := by
  unfold rred at h
  split at h
  · cases h
  · next hm =>
    split at h
    · cases h
    · next c _ =>
      split_ifs at h with hc
      cases h
      have hlt : radixReduce a.toNat m.toNat c < m.toNat :=
        foldLoop_lt (by omega) (Nat.le_of_not_le hc) _ _ (Nat.lt_succ_self _)
      omega

/-! The end of the command. -/

/-- An integer command that ends with `OK` had canonical sources and a result, which it committed (R113, R115, R117). -/
theorem finishInt_eq_commitInt_of_ok {s : State} {srcs : List RegNum} {rd : RegNum} {res : Except Err Int}
    (hres : res ≠ .error .ok) (hok : (s.finishInt srcs rd res).status.err = .ok) :
    srcs.all s.canonical = true ∧ ∃ v, res = .ok v ∧ s.finishInt srcs rd res = s.commitInt rd v := by
  obtain ⟨-, h⟩ | ⟨hall, ⟨e, he, h⟩ | hv⟩ := finishInt_cases s srcs rd res
  · rw [h] at hok
    cases hok
  · rw [h] at hok
    exact absurd (he.trans (congrArg _ hok)) hres
  · exact ⟨hall, hv⟩

/-- A rule whose results lie in `[0, m)`, `m` the value of a source, leaves its canonical result there (R117). -/
theorem finishInt_in_range {s t : State} {srcs : List RegNum} {rd rb : RegNum} {res : Except Err Int} (hs : s.Wf)
    (hb : rb ∈ srcs) (hres : res ≠ .error .ok) (hrange : ∀ v, res = .ok v → 0 ≤ v ∧ v < s.val rb)
    (ht : .next (s.finishInt srcs rd res) = (.next t : Host.Outcome State Fault Refusal)) (hok : t.status.err = .ok) :
    0 ≤ t.val rd ∧ t.val rd < s.val rb ∧ t.canonical rd = true := by
  cases ht
  obtain ⟨hall, v, hv, heq⟩ := finishInt_eq_commitInt_of_ok hres hok
  obtain ⟨hnn, hlt⟩ := hrange v hv
  have hfit := State.diglen_le_cap_of_natAbs_le hs (List.all_eq_true.1 hall rb hb) (v := v) (by omega)
  obtain ⟨hval, hcanon, -⟩ := wroteInt_commitInt hs.1 rd hfit
  rw [heq, hval]
  exact ⟨hnn, hlt, hcanon⟩

/-- Settles O32: each of the six rules answers in `[0, m)` or with an error that is not `OK`. -/
theorem reductionsEndInRange : Obligations.ReductionsEndInRange := by
  unfold Obligations.ReductionsEndInRange
  intro s t rd ra rb rc i hs hi ht hok
  simp only [List.mem_cons, List.not_mem_nil, or_false] at hi
  obtain rfl | rfl | rfl | rfl | rfl | rfl := hi
  · exact finishInt_in_range hs (by simp) (fun e => absurd (modbasic_error_mem e) (by decide))
      (fun _ => modbasic_ok_range) ht hok
  · exact finishInt_in_range hs (by simp) (fun e => absurd (bred_error_mem e) (by decide))
      (fun _ => bred_ok_range) ht hok
  · exact finishInt_in_range hs (by simp) (fun e => absurd (mto_error_mem e) (by decide))
      (fun _ => mto_ok_range) ht hok
  · exact finishInt_in_range hs (by simp) (fun e => absurd (mfrom_error_mem e) (by decide))
      (fun _ => mfrom_ok_range) ht hok
  · exact finishInt_in_range hs (by simp) (fun e => absurd (mred_error_mem e) (by decide))
      (fun _ => mred_ok_range) ht hok
  · exact finishInt_in_range hs (by simp) (fun e => absurd (rred_error_mem e) (by decide))
      (fun _ => rred_ok_range) ht hok

end Sys2Proof.Machine
end

section
/-! PROOFS. REDC (spec/43_montgomery.md R171): the multiple of the modulus that its passes add, the exactness of its
division with the context of the modulus, and its correction. -/

namespace Sys2Proof.Machine

/-! The passes. -/

/-- The factor `r` of pass `j` (R171). -/
def redcDigit (w m u0 a j : Nat) : Nat := digit w (redcPasses w m u0 a j) j * u0 % 2 ^ w

/-- The number whose digits are the factors of the first `n` passes. -/
def redcMultiplier (w m u0 a n : Nat) : Nat := ∑ j ∈ Finset.range n, redcDigit w m u0 a j * 2 ^ (w * j)

theorem redcPasses_succ (w m u0 a n : Nat) :
    redcPasses w m u0 a (n + 1) = redcPasses w m u0 a n + redcDigit w m u0 a n * m * 2 ^ (w * n) := rfl

theorem redcDigit_lt (w m u0 a j : Nat) : redcDigit w m u0 a j < 2 ^ w := Nat.mod_lt _ (by positivity)

theorem pow_mul_succ (w n : Nat) : 2 ^ (w * (n + 1)) = 2 ^ (w * n) * 2 ^ w := by rw [Nat.mul_succ, Nat.pow_add]

theorem redcMultiplier_lt (w m u0 a n : Nat) : redcMultiplier w m u0 a n < 2 ^ (w * n) := by
  induction n with
  | zero => simp [redcMultiplier]
  | succ n ih =>
    rw [redcMultiplier, Finset.sum_range_succ, ← redcMultiplier]
    calc redcMultiplier w m u0 a n + redcDigit w m u0 a n * 2 ^ (w * n)
        < 2 ^ (w * n) + redcDigit w m u0 a n * 2 ^ (w * n) := Nat.add_lt_add_right ih _
      _ = 2 ^ (w * n) * (redcDigit w m u0 a n + 1) := by ring
      _ ≤ 2 ^ (w * n) * 2 ^ w := Nat.mul_le_mul_left _ (redcDigit_lt ..)
      _ = 2 ^ (w * (n + 1)) := (pow_mul_succ w n).symm

/-- The passes add the multiplier times the modulus. -/
theorem redcPasses_eq (w m u0 a n : Nat) : redcPasses w m u0 a n = a + redcMultiplier w m u0 a n * m := by
  induction n with
  | zero => simp [redcPasses, redcMultiplier]
  | succ n ih => rw [redcPasses_succ, ih, redcMultiplier, redcMultiplier, Finset.sum_range_succ]; ring

@[simp] theorem digit_zero (w x : Nat) : digit w x 0 = x % 2 ^ w := by simp [digit]

/-- The digit of the accumulator that a pass looks at, times `u0 * m + 1`, is what the pass leaves in its place: with a
`u0` that inverts `-m` modulo `B` each pass clears one digit. -/
theorem pow_dvd_redcPasses {w m u0 : Nat} (h : 2 ^ w ∣ u0 * m + 1) (a n : Nat) :
    2 ^ (w * n) ∣ redcPasses w m u0 a n := by
  induction n with
  | zero => simp
  | succ n ih =>
    obtain ⟨q, hq⟩ := ih
    have hdigit : redcDigit w m u0 a n ≡ q * u0 [MOD 2 ^ w] := by
      rw [redcDigit, digit, hq, Nat.mul_div_cancel_left _ (by positivity)]
      exact (Nat.mod_modEq ..).trans ((Nat.mod_modEq ..).mul_right u0)
    have hclear : 2 ^ w ∣ q + redcDigit w m u0 a n * m := by
      rw [((hdigit.mul_right m).add_left q).dvd_iff dvd_rfl, show q + q * u0 * m = q * (u0 * m + 1) by ring]
      exact h.mul_left q
    have hfactor : redcPasses w m u0 a (n + 1) = 2 ^ (w * n) * (q + redcDigit w m u0 a n * m) := by
      rw [redcPasses_succ, hq]; ring
    rw [hfactor, pow_mul_succ]
    exact Nat.mul_dvd_mul_left _ hclear

/-! The correction. -/

theorem redcCorrect_eq (m t : Nat) :
    redcCorrect m t = if t < m then some t else if t - m < m then some (t - m) else none := by
  obtain h | h := Nat.lt_or_ge t m
  · simp [redcCorrect, h, h.not_ge]
  · simp only [redcCorrect, h, h.not_gt, if_true, if_false, ← Nat.not_lt (a := t - m), ite_not]

/-- Below `2m` the correction reaches `[0, m)`, and it keeps the residue. -/
theorem redcCorrect_of_lt {m t : Nat} (h : t < 2 * m) : ∃ r, redcCorrect m t = some r ∧ r ≡ t [MOD m] := by
  rw [redcCorrect_eq]
  obtain h' | h' := Nat.lt_or_ge t m
  · exact ⟨t, if_pos h', rfl⟩
  · refine ⟨t - m, ?_, (Nat.mod_eq_sub_mod h').symm⟩
    rw [if_neg h'.not_gt, if_pos (by omega)]

/-- The accumulator of REDC after its last pass, divided by `B^k`, before the correction. -/
theorem redc_eq (w a m u0 : Nat) :
    redc w a m u0 = redcCorrect m ((a + redcMultiplier w m u0 a (diglen w m) * m) / 2 ^ (w * diglen w m)) := by
  rw [redc, redcPasses_eq]

theorem redcQuotient_lt {w a m : Nat} (u0 n : Nat) (hm : 0 < m) (h : a < m * 2 ^ (w * n)) :
    (a + redcMultiplier w m u0 a n * m) / 2 ^ (w * n) < 2 * m := by
  have hx := Nat.mul_lt_mul_of_pos_right (redcMultiplier_lt w m u0 a n) hm
  rw [Nat.div_lt_iff_lt_mul (by positivity)]
  linarith

/-- For `a < m * B^k` one subtraction is enough (R174). -/
theorem exists_redc_of_lt {w a m : Nat} (u0 : Nat) (hm : 0 < m) (h : a < m * 2 ^ (w * diglen w m)) :
    ∃ r, redc w a m u0 = some r := by
  obtain ⟨r, hr, -⟩ := redcCorrect_of_lt (redcQuotient_lt u0 _ hm h)
  exact ⟨r, (redc_eq ..).trans hr⟩

/-- With a `u0` that inverts `-m` modulo `B`, REDC of `a < m * B^k` is the residue of `a * B^(-k)` (R176). -/
theorem redc_of_context {w a m u0 : Nat} (hm : 0 < m) (hu : 2 ^ w ∣ u0 * m + 1) (h : a < m * 2 ^ (w * diglen w m)) :
    ∃ r, redc w a m u0 = some r ∧ r < m ∧ r * 2 ^ (w * diglen w m) ≡ a [MOD m] := by
  obtain ⟨r, hr, hmod⟩ := redcCorrect_of_lt (redcQuotient_lt u0 _ hm h)
  have hexact := pow_dvd_redcPasses hu a (diglen w m)
  rw [redcPasses_eq] at hexact
  refine ⟨r, (redc_eq ..).trans hr, redcCorrect_lt hr, ?_⟩
  calc r * 2 ^ (w * diglen w m)
      ≡ (a + redcMultiplier w m u0 a (diglen w m) * m) / 2 ^ (w * diglen w m) * 2 ^ (w * diglen w m) [MOD m] :=
        hmod.mul_right _
    _ = a + redcMultiplier w m u0 a (diglen w m) * m := Nat.div_mul_cancel hexact
    _ ≡ a [MOD m] := by simp [Nat.ModEq]

/-! The context of the modulus (R170). -/

theorem emod_eq_pred_iff {M : Int} (hM : 0 < M) (x : Int) : x % M = M - 1 ↔ M ∣ x + 1 := by
  constructor
  · intro h
    exact ⟨x / M + 1, by linarith [Int.mul_ediv_add_emod x M]⟩
  · rintro ⟨c, hc⟩
    rw [show x = M - 1 + M * (c - 1) by linarith, Int.add_mul_emod_self_left]
    exact Int.emod_eq_of_lt (by omega) (by omega)

/-- The context of `m` is the digit that inverts `-m` modulo `B`: only digit 0 of `m` counts (R170). -/
theorem isMontgomeryContext_iff {w : Nat} {m u0 : Int} :
    IsMontgomeryContext w m u0 ↔ 0 < m ∧ m % 2 = 1 ∧ 0 ≤ u0 ∧ u0 < 2 ^ w ∧ 2 ^ w ∣ u0 * m + 1 := by
  unfold IsMontgomeryContext
  refine and_congr_right fun hm => and_congr_right fun _ => and_congr_right fun _ => and_congr_right fun _ => ?_
  have hdigit : (digit w m.toNat 0 : Int) = m % 2 ^ w := by
    rw [digit_zero, Int.natCast_emod, Int.toNat_of_nonneg hm.le, Nat.cast_pow, Nat.cast_ofNat]
  rw [emod_eq_pred_iff (by positivity), hdigit]
  exact (((Int.mod_modEq m (2 ^ w)).mul_left u0).add_right 1).dvd_iff

theorem pow_dvd_of_isMontgomeryContext {w m u0 : Nat} (h : IsMontgomeryContext w m u0) : 2 ^ w ∣ u0 * m + 1 := by
  obtain ⟨-, -, -, -, hdvd⟩ := isMontgomeryContext_iff.1 h
  exact_mod_cast hdvd

/-- Settles O34: the factors of the passes are the digits of `x`, and with the context each pass clears one digit. -/
theorem redcAddsAMultipleOfTheModulus : Obligations.RedcAddsAMultipleOfTheModulus := by
  unfold Obligations.RedcAddsAMultipleOfTheModulus
  rintro w a m u0 k - hm rfl - -
  refine ⟨redcMultiplier w m u0 a (diglen w m), redcMultiplier_lt .., ?_, fun hctx => ?_, fun ha => ?_⟩
  · rw [redc_eq, redcCorrect_eq]
  · rw [← redcPasses_eq]
    exact Nat.mod_eq_zero_of_dvd (pow_dvd_redcPasses (pow_dvd_of_isMontgomeryContext hctx) a _)
  · exact Option.isSome_iff_exists.2 (exists_redc_of_lt u0 hm ha)

end Sys2Proof.Machine
end

section
/-! PROOFS. The Montgomery context (spec/43_montgomery.md R170): it is unique, `MSETUP` writes it, and the Newton
iteration finds it. -/

namespace Sys2Proof.Machine

theorem isCoprime_two_pow {m : Int} (h : m % 2 = 1) (n : Nat) : IsCoprime (2 ^ n) m :=
  (Int.isCoprime_two_left.2 (Int.odd_iff.2 h)).pow_left

/-- Two inverses of `-m` modulo `B` differ by a multiple of `B`, since an odd `m` is prime to `B`. -/
theorem IsMontgomeryContext.unique {w : Nat} {m u v : Int} (hu : IsMontgomeryContext w m u)
    (hv : IsMontgomeryContext w m v) : u = v := by
  obtain ⟨-, hodd, hu0, hult, hudvd⟩ := isMontgomeryContext_iff.1 hu
  obtain ⟨-, -, hv0, hvlt, hvdvd⟩ := isMontgomeryContext_iff.1 hv
  have hdvd : (2 : Int) ^ w ∣ (u - v) * m := by
    rw [show (u - v) * m = u * m + 1 - (v * m + 1) by ring]
    exact dvd_sub hudvd hvdvd
  exact sub_eq_zero.1 (Int.eq_zero_of_abs_lt_dvd ((isCoprime_two_pow hodd w).dvd_of_dvd_mul_right hdvd) (by rw [abs_lt]; omega))

/-! `MSETUP`. -/

/-- Each bit of the search is chosen so that it carries the run of ones on by one. -/
theorem pow_dvd_negInvBits {m0 : Nat} (h : m0 % 2 = 1) (n : Nat) : 2 ^ n ∣ negInvBits m0 n * m0 + 1 := by
  induction n with
  | zero => simp
  | succ n ih =>
    obtain ⟨q, hq⟩ := ih
    have hbit : (negInvBits m0 n * m0 + 1).testBit n = (q % 2 == 1) := by
      rw [hq, Nat.testBit_eq_decide_div_mod_eq, Nat.mul_div_cancel_left _ (by positivity)]
      rfl
    rw [Nat.pow_succ, negInvBits]
    simp only [hbit, beq_iff_eq]
    split
    · next hone =>
      rw [show (negInvBits m0 n + 2 ^ n) * m0 + 1 = 2 ^ n * (q + m0) by rw [Nat.mul_add, ← hq]; ring]
      exact Nat.mul_dvd_mul_left _ (by omega)
    · next hzero =>
      rw [hq]
      exact Nat.mul_dvd_mul_left _ (by omega)

theorem negInvBits_lt (m0 n : Nat) : negInvBits m0 n < 2 ^ n := by
  induction n with
  | zero => simp [negInvBits]
  | succ n ih =>
    simp only [negInvBits, Nat.pow_succ]
    split <;> omega

theorem digit_zero_odd {w m : Nat} (hw : 0 < w) (h : m % 2 = 1) : digit w m 0 % 2 = 1 := by
  rw [digit_zero, Nat.mod_mod_of_dvd _ (dvd_pow_self 2 hw.ne'), h]

/-- The value that `MSETUP` computes is the context (R170). -/
theorem isMontgomeryContext_montContext {w m : Nat} (hw : 0 < w) (hodd : m % 2 = 1) :
    IsMontgomeryContext w m (montContext w m) := by
  have hdvd := pow_dvd_negInvBits (digit_zero_odd hw hodd) w
  unfold IsMontgomeryContext
  rw [emod_eq_pred_iff (by positivity), Int.toNat_natCast]
  refine ⟨by omega, by omega, by omega, ?_, ?_⟩
  · exact_mod_cast negInvBits_lt (digit w m 0) w
  · exact_mod_cast hdvd

theorem msetup_of_invalid {m : Int} (w : Nat) (h : m ≤ 0 ∨ m % 2 = 0) : msetup w m = .error .invalidModulus := by
  by_cases hm : m ≤ 0
  · exact if_pos hm
  · exact (if_neg hm).trans (if_pos (h.resolve_left hm))

theorem msetup_of_odd {m : Int} (w : Nat) (hm : 0 < m) (hodd : m % 2 = 1) :
    msetup w m = .ok (montContext w m.toNat) := by
  rw [msetup, if_neg hm.not_ge, if_neg (by omega)]

/-- One digit fits any register (spec/00_scope.md R5). -/
theorem State.diglen_le_cap_of_lt {s : State} (hs : s.Wf) {x : Nat} (h : x < 2 ^ s.params.w) :
    diglen s.params.w (x : Int).natAbs ≤ s.params.cap := by
  have hone : diglen s.params.w x ≤ 1 := (diglen_le_iff s.params.w_pos x 1).2 (by rwa [Nat.mul_one])
  exact hone.trans hs.1.1.1

/-- Settles O16: the bitwise search finds the context, which is unique, and one digit fits. -/
theorem msetupWritesTheInverse : Obligations.MsetupWritesTheInverse := by
  unfold Obligations.MsetupWritesTheInverse
  intro s rd rb hs hb
  have hall : [rb].all s.canonical = true := by simp [hb]
  refine ⟨decode_encode (.msetup rd rb), fun hbad => ?_, fun hpos hodd => ?_⟩
  · exact ends_raised_finishInt hall rd (msetup_of_invalid _ hbad)
  · have hctx := isMontgomeryContext_montContext (m := (s.val rb).toNat) s.params.w_pos (by omega)
    rw [Int.toNat_of_nonneg hpos.le] at hctx
    exact ⟨_, hctx, fun x hx => hx.unique hctx,
      ends_wroteInt_finishInt hs.1 hall rd (msetup_of_odd _ hpos hodd)
        (State.diglen_le_cap_of_lt hs (negInvBits_lt ..))⟩

/-! The Newton iteration. -/

theorem newtonStep_eq (w m0 x : Nat) : (newtonStep w m0 x : Int) = (x : Int) * (2 - m0 * x) % 2 ^ w :=
  Int.toNat_of_nonneg (Int.emod_nonneg _ (by positivity))

/-- One step doubles the number of correct bits: it squares the error `1 - x * m0`. -/
theorem newtonStep_error {w m0 x e : Nat} (he : e * 2 ≤ w) (h : (2 : Int) ^ e ∣ 1 - x * m0) :
    (2 : Int) ^ (e * 2) ∣ 1 - newtonStep w m0 x * m0 := by
  have hmod : (newtonStep w m0 x : Int) ≡ x * (2 - m0 * x) [ZMOD 2 ^ (e * 2)] := by
    rw [newtonStep_eq]
    exact (Int.mod_modEq _ _).of_dvd (pow_dvd_pow 2 he)
  rw [((hmod.mul_right m0).sub_left 1).dvd_iff, show (1 : Int) - x * (2 - m0 * x) * m0 = (1 - x * m0) ^ 2 by ring,
    pow_mul]
  exact pow_dvd_pow_of_dvd h 2

theorem newtonSteps_error (w m0 n : Nat) : ∀ {x e : Nat}, e * 2 ^ n ≤ w → (2 : Int) ^ e ∣ 1 - x * m0 →
    (2 : Int) ^ (e * 2 ^ n) ∣ 1 - newtonSteps w m0 n x * m0 := by
  induction n with
  | zero => intro x e _ h; simpa [newtonSteps] using h
  | succ n ih =>
    intro x e he h
    rw [Nat.pow_succ', ← Nat.mul_assoc] at he ⊢
    exact ih he (newtonStep_error (le_trans (Nat.le_mul_of_pos_right _ (by positivity)) he) h)

theorem newtonSteps_lt (w m0 n : Nat) : ∀ {x : Nat}, x < 2 ^ w → newtonSteps w m0 n x < 2 ^ w := by
  induction n with
  | zero => exact id
  | succ n ih =>
    intro x _
    have hlt : (newtonStep w m0 x : Int) < 2 ^ w := newtonStep_eq w m0 x ▸ Int.emod_lt_of_pos _ (by positivity)
    exact ih (by exact_mod_cast hlt)

/-- The negation of the inverse that the iteration ends with is the context (R170). -/
theorem isMontgomeryContext_negation {w m y : Nat} (hw : 0 < w) (hodd : m % 2 = 1) (hy : y < 2 ^ w)
    (h : (2 : Int) ^ w ∣ 1 - y * digit w m 0) : IsMontgomeryContext w m (2 ^ w - y : Nat) := by
  have hne : y ≠ 0 := by
    rintro rfl
    have hdvd : 2 ^ w ∣ 1 := by exact_mod_cast (by simpa using h : (2 : Int) ^ w ∣ 1)
    exact absurd (Nat.dvd_one.1 hdvd) (Nat.one_lt_two_pow hw.ne').ne'
  unfold IsMontgomeryContext
  rw [emod_eq_pred_iff (by positivity), Int.toNat_natCast, Nat.cast_sub hy.le, Nat.cast_pow, Nat.cast_ofNat,
    show ((2 : Int) ^ w - y) * digit w m 0 + 1 = 2 ^ w * digit w m 0 + (1 - y * digit w m 0) by ring]
  exact ⟨by omega, by omega, sub_nonneg.2 (by exact_mod_cast hy.le), by omega, dvd_add (dvd_mul_right ..) h⟩

/-- Settles O45: each step doubles the correct bits, from 4 to `W`, and the context is unique. -/
theorem newtonStepsGiveTheContext : Obligations.NewtonStepsGiveTheContext := by
  unfold Obligations.NewtonStepsGiveTheContext
  intro d m x hodd hx h
  have hw : 4 * 2 ^ (d.bits / 4).log2 = d.bits := by cases d <;> decide
  have hpos : 0 < d.bits := by cases d <;> decide
  have hstart : (2 : Int) ^ 4 ∣ 1 - x * digit d.bits m 0 := by
    rw [← Nat.cast_mul]
    omega
  have herror := newtonSteps_error d.bits (digit d.bits m 0) (d.bits / 4).log2 hw.le hstart
  rw [hw] at herror
  exact_mod_cast (isMontgomeryContext_negation hpos hodd (newtonSteps_lt _ _ _ hx) herror).unique
    (isMontgomeryContext_montContext hpos hodd)

end Sys2Proof.Machine
end

section
/-! PROOFS. `MRED`, `MTO` and `MFROM` (spec/43_montgomery.md R172 to R176): what each rule answers, how the command
ends, and that they undo the factor `B^k`. -/

namespace Sys2Proof.Machine

/-! `MTO` (R173). -/

theorem mto_of_nonpos {m : Int} (w : Nat) (a : Int) (h : m ≤ 0) : mto w a m = .error .invalidModulus := if_pos h

theorem mto_of_pos {m : Int} (w : Nat) (a : Int) (h : 0 < m) :
    mto w a m = .ok (a * 2 ^ (w * diglen w m.toNat) % m) := if_neg h.not_ge

/-- Settles O18: the remainder is below the modulus, so it fits. -/
theorem mtoWritesTheMontgomeryForm : Obligations.MtoWritesTheMontgomeryForm := by
  unfold Obligations.MtoWritesTheMontgomeryForm
  intro s rd ra rb hs ha hb
  have hall : [ra, rb].all s.canonical = true := by simp [ha, hb]
  refine ⟨decode_encode (.mto rd ra rb), fun hnonpos => ?_, fun hpos => ?_⟩
  · exact ends_raised_finishInt hall rd (mto_of_nonpos _ _ hnonpos)
  · exact ends_wroteInt_finishInt hs.1 hall rd (mto_of_pos _ _ hpos) (State.diglen_emod_val_le hs hb hpos _)

/-! The end of a command whose rule is REDC. -/

theorem redcResult_of_some {w a m u0 t : Nat} (h : redc w a m u0 = some t) : redcResult w a m u0 = .ok t := by
  rw [redcResult, h]

theorem redcResult_of_none {w a m u0 : Nat} (h : redc w a m u0 = none) : redcResult w a m u0 = .error .range := by
  rw [redcResult, h]

section
variable {s : State} {srcs : List RegNum} {rb : RegNum} {res : Except Err Int} {a u0 : Nat}
  (hres : res = redcResult s.params.w a (s.val rb).toNat u0) (h : srcs.all s.canonical = true) (rd : RegNum)
include hres h

/-- A result of REDC is below the modulus, so it fits. -/
theorem ends_wroteInt_redc (hs : s.Wf) (hb : s.canonical rb = true) {t : Nat}
    (ht : redc s.params.w a (s.val rb).toNat u0 = some t) :
    Ends (.next (s.finishInt srcs rd res)) (WroteInt s rd t) := by
  have hlt := redcCorrect_lt ht
  exact ends_wroteInt_finishInt hs.1 h rd (hres.trans (redcResult_of_some ht))
    (State.diglen_le_cap_of_natAbs_le hs hb (by omega))

theorem ends_raised_redc (ht : redc s.params.w a (s.val rb).toNat u0 = none) :
    Ends (.next (s.finishInt srcs rd res)) (Raised s .range) :=
  ends_raised_finishInt h rd (hres.trans (redcResult_of_none ht))

end

/-! `MRED` (R172). -/

theorem mred_of_nonpos {m : Int} (w : Nat) (a : Int) (context : IntReg) (h : m ≤ 0) :
    mred w a m context = .error .invalidModulus := if_pos h

theorem mred_of_bad_operand {w : Nat} {a m : Int} {context : IntReg} (hm : 0 < m)
    (h : context.oneDigit = none ∨ a < 0 ∨ 2 * diglen w m.toNat < diglen w a.toNat) :
    mred w a m context = .error .operand := by
  rw [mred, if_neg hm.not_ge]
  split
  · rfl
  · next u0 hu =>
    have hbad := h.resolve_left (by simp [hu])
    split_ifs
    case neg => omega
    all_goals rfl

theorem mred_of_valid {w : Nat} {a m : Int} {context : IntReg} {u0 : Nat} (hm : 0 < m)
    (hu : context.oneDigit = some u0) (ha : 0 ≤ a) (hlen : diglen w a.toNat ≤ 2 * diglen w m.toNat) :
    mred w a m context = redcResult w a.toNat m.toNat u0 := by
  rw [mred, if_neg hm.not_ge, hu]
  exact (if_neg ha.not_gt).trans (if_neg hlen.not_gt)

theorem IntReg.oneDigit_of_used_le {r : IntReg} (hs : r.sign = false) (hu : r.used.toNat ≤ 1) :
    r.oneDigit = some (if r.used.toNat = 0 then 0 else (r.dig.getD 0 0).toNat) :=
  if_neg (by simp [hs, hu])

/-- Settles O17: the checks in order, then REDC with the digit in the context register. -/
theorem mredAppliesRedc : Obligations.MredAppliesRedc := by
  unfold Obligations.MredAppliesRedc
  rintro s rd ra rb rc hs hca hcb hcc a m k u0 rfl rfl rfl rfl
  have hall : [ra, rb, rc].all s.canonical = true := by simp [hca, hcb, hcc]
  refine ⟨decode_encode (.mred rd ra rb rc), fun hm => ?_, fun hm hbad => ?_, fun hm hsign hused ha hlen => ?_⟩
  · exact ends_raised_finishInt hall rd (mred_of_nonpos _ _ _ hm)
  · rw [← or_assoc] at hbad
    exact ends_raised_finishInt hall rd (mred_of_bad_operand hm (hbad.imp_left IntReg.oneDigit_malformed))
  · have hrule := mred_of_valid hm (IntReg.oneDigit_of_used_le hsign hused) ha hlen
    exact ⟨fun t => ends_wroteInt_redc hrule hall rd hs hcb, ends_raised_redc hrule hall rd⟩

/-! `MFROM` (R174). -/

theorem toNat_lt_mul_pow {a m : Int} {n : Nat} (ha : 0 ≤ a) (hm : 0 ≤ m) (h : a < m * 2 ^ n) :
    a.toNat < m.toNat * 2 ^ n := by
  zify
  rwa [Int.toNat_of_nonneg ha, Int.toNat_of_nonneg hm]

theorem mfrom_of_invalid {m : Int} (w : Nat) (a : Int) (h : m ≤ 0 ∨ m % 2 = 0) :
    mfrom w a m = .error .invalidModulus := by
  by_cases hm : m ≤ 0
  · exact if_pos hm
  · exact (if_neg hm).trans (if_pos (h.resolve_left hm))

theorem mfrom_of_bad_operand {w : Nat} {a m : Int} (hm : 0 < m) (hodd : m % 2 = 1)
    (h : a < 0 ∨ 2 * diglen w m.toNat < diglen w a.toNat) : mfrom w a m = .error .operand := by
  rw [mfrom, if_neg hm.not_ge, if_neg (by omega)]
  split_ifs
  case neg => omega
  all_goals rfl

theorem mfrom_of_valid {w : Nat} {a m : Int} (hm : 0 < m) (hodd : m % 2 = 1) (ha : 0 ≤ a)
    (hlen : diglen w a.toNat ≤ 2 * diglen w m.toNat) :
    mfrom w a m = redcResult w a.toNat m.toNat (montContext w m.toNat) := by
  rw [mfrom, if_neg hm.not_ge, if_neg (by omega), if_neg ha.not_gt, if_neg hlen.not_gt]

/-- Settles O19: the checks in order, then REDC with the context, which has a result for `a < m * B^k`. -/
theorem mfromAppliesRedc : Obligations.MfromAppliesRedc := by
  unfold Obligations.MfromAppliesRedc
  rintro s rd ra rb hs hca hcb a m k rfl rfl rfl
  have hall : [ra, rb].all s.canonical = true := by simp [hca, hcb]
  refine ⟨decode_encode (.mfrom rd ra rb), fun hbad => ?_, fun hm hodd hbad => ?_, fun hm hodd ha hlen => ?_⟩
  · exact ends_raised_finishInt hall rd (mfrom_of_invalid _ _ hbad)
  · exact ends_raised_finishInt hall rd (mfrom_of_bad_operand hm hodd hbad)
  · have hrule := mfrom_of_valid hm hodd ha hlen
    have hctx := isMontgomeryContext_montContext (m := (s.val rb).toNat) s.params.w_pos (by omega)
    rw [Int.toNat_of_nonneg hm.le] at hctx
    refine ⟨_, hctx, fun t => ends_wroteInt_redc hrule hall rd hs hcb, ends_raised_redc hrule hall rd, fun hlt => ?_⟩
    exact exists_redc_of_lt _ (by omega) (toNat_lt_mul_pow ha hm.le hlt)

/-! The inverse of the factor `B^k` (R176). -/

/-- An operand below `m * B^k` passes the length check (R172, R174). -/
theorem diglen_le_of_lt_mul {w a m : Nat} (hw : 0 < w) (h : a < m * 2 ^ (w * diglen w m)) :
    diglen w a ≤ 2 * diglen w m := by
  rw [diglen_le_iff hw, Nat.two_mul, Nat.mul_add, Nat.pow_add]
  exact h.trans_le (Nat.mul_le_mul_right _ (lt_pow_diglen hw m).le)

/-- With the context of `m`, REDC of `0 <= a < m * B^k` is the residue of `a * B^(-k)`. -/
theorem exists_redc_of_context {w : Nat} {a m u0 : Int} (hctx : IsMontgomeryContext w m u0) (ha : 0 ≤ a)
    (h : a < m * 2 ^ (w * diglen w m.toNat)) :
    ∃ r : Nat, redc w a.toNat m.toNat u0.toNat = some r ∧ (r : Int) < m ∧
      r * 2 ^ (w * diglen w m.toNat) ≡ a [ZMOD m] := by
  obtain ⟨hm, -, hu0, -, -⟩ := id hctx
  have hlt := toNat_lt_mul_pow ha hm.le h
  lift m to Nat using hm.le
  lift u0 to Nat using hu0
  lift a to Nat using ha
  obtain ⟨r, hr, hrm, hmod⟩ := redc_of_context (by omega) (pow_dvd_of_isMontgomeryContext hctx) hlt
  exact ⟨r, hr, by exact_mod_cast hrm, by exact_mod_cast Int.natCast_modEq_iff.2 hmod⟩

/-- Settles O35: the context is the digit that REDC is applied with. -/
theorem mredDividesByTheRadix : Obligations.MredDividesByTheRadix := by
  unfold Obligations.MredDividesByTheRadix
  intro s rd ra rb rc hs hca hcb hcc hctx ha hlt
  obtain ⟨hm, -, hnn, hdigit, -⟩ := id hctx
  have hlen := diglen_le_of_lt_mul s.params.w_pos (toNat_lt_mul_pow ha hm.le hlt)
  have hone : (s.reg rc).oneDigit = some (s.val rc).toNat := by
    rw [State.oneDigit_eq hs hcc, if_neg (not_or.2 ⟨hnn.not_gt, hdigit.not_ge⟩)]
  obtain ⟨r, hr, hrm, hmod⟩ := exists_redc_of_context hctx ha hlt
  exact ⟨r, Int.natCast_nonneg r, hrm, hmod,
    ends_wroteInt_redc (mred_of_valid hm hone ha hlen) (by simp [hca, hcb, hcc]) rd hs hcb hr⟩

/-- The factor `B^k` that `MTO` puts in cancels modulo an odd `m` (R176). -/
theorem eq_emod_of_mul_two_pow {m r a : Int} {n : Nat} (hodd : m % 2 = 1) (hr : 0 ≤ r) (hrm : r < m)
    (h : r * 2 ^ n ≡ a * 2 ^ n % m [ZMOD m]) : r = a % m := by
  have hcancel : r ≡ a [ZMOD m] := by
    have hdvd : m ∣ (a - r) * 2 ^ n := by
      rw [Int.sub_mul]
      exact (h.trans (Int.mod_modEq ..)).dvd
    exact Int.modEq_of_dvd ((isCoprime_two_pow hodd n).symm.dvd_of_dvd_mul_right hdvd)
  rw [← hcancel, Int.emod_eq_of_lt hr hrm]

/-- Settles O36: `MTO` leaves `m` and puts in the factor `B^k`, which `MFROM` takes out. -/
theorem montgomeryRoundTrip : Obligations.MontgomeryRoundTrip := by
  unfold Obligations.MontgomeryRoundTrip
  intro s rd re ra rb hs hca hcb hne hm hodd
  obtain ⟨-, -, hto⟩ := mtoWritesTheMontgomeryForm s rd ra rb hs hca hcb
  obtain ⟨t, ht, hval, hcanon, -, hframe, -, -, -, herr, hparams, -⟩ := hto hm
  have hreg := hframe rb hne.symm
  have hmod : t.val rb = s.val rb := State.val_congr hparams hreg
  have hcb' : t.canonical rb = true := by rwa [State.canonical, hreg, hparams]
  obtain ⟨-, -, -, hfrom⟩ := mfromAppliesRedc t re rd rb (exec_wf hs ht) hcanon hcb' _ _ _ rfl rfl rfl
  rw [hmod, hval, hparams] at hfrom
  obtain ⟨hnn, hlt⟩ := emod_mem_range (s.val ra * 2 ^ (s.params.w * diglen s.params.w (s.val rb).toNat)) hm
  have hlt' := hlt.trans_le (le_mul_of_one_le_right hm.le
    (one_le_pow₀ one_le_two (n := s.params.w * diglen s.params.w (s.val rb).toNat)))
  obtain ⟨u0, hctx, hsome, -, -⟩ :=
    hfrom hm hodd hnn (diglen_le_of_lt_mul s.params.w_pos (toNat_lt_mul_pow hnn hm.le hlt'))
  obtain ⟨r, hr, hrm, hcongr⟩ := exists_redc_of_context hctx hnn hlt'
  rw [← eq_emod_of_mul_two_pow hodd (Int.natCast_nonneg r) hrm hcongr]
  exact ⟨t, ht, herr, hsome r hr⟩

end Sys2Proof.Machine
end

section
/-! PROOFS. The fused Montgomery reduction (spec/43_montgomery.md R175) is REDC: after each column it holds the sum of
the columns so far, the emitted digits below and the accumulator above, and its factors are those of REDC's passes. -/

namespace Sys2Proof.Machine

/-- `a` plus the first `n` factors times `m`, of every term only the part that stands in the columns 0 to `c - 1`. -/
def columnSum (w m u0 a n c : Nat) : Nat :=
  a % 2 ^ (w * c) + ∑ j ∈ Finset.range n, redcDigit w m u0 a j * (m % 2 ^ (w * (c - j))) * 2 ^ (w * j)

theorem mod_pow_mul_modEq (w m j c : Nat) : m % 2 ^ (w * (c - j)) * 2 ^ (w * j) ≡ m * 2 ^ (w * j) [MOD 2 ^ (w * c)] := by
  have hsplit : 2 ^ (w * c) ∣ 2 ^ (w * (c - j)) * 2 ^ (w * j) := by
    rw [← Nat.pow_add, ← Nat.mul_add]
    exact Nat.pow_dvd_pow 2 (Nat.mul_le_mul_left w (by omega))
  exact ((Nat.mod_modEq m _).mul_right' _).of_dvd hsplit

/-- The columns below `c` of the accumulator of REDC hold the column sum. -/
theorem columnSum_modEq (w m u0 a n c : Nat) : columnSum w m u0 a n c ≡ redcPasses w m u0 a n [MOD 2 ^ (w * c)] := by
  induction n with
  | zero => simpa [columnSum, redcPasses] using Nat.mod_modEq a _
  | succ n ih =>
    rw [columnSum, Finset.sum_range_succ, ← Nat.add_assoc, ← columnSum, redcPasses_succ, Nat.mul_assoc, Nat.mul_assoc]
    exact ih.add ((mod_pow_mul_modEq w m n c).mul_left _)

/-- The column sum over columns enough for `a` and for `m` is the whole accumulator. -/
theorem columnSum_eq {w m a n c : Nat} (u0 : Nat) (ha : a < 2 ^ (w * c)) (hm : m < 2 ^ (w * (c - n))) :
    columnSum w m u0 a n c = redcPasses w m u0 a n := by
  rw [redcPasses_eq, columnSum, redcMultiplier, Nat.mod_eq_of_lt ha, Finset.sum_mul]
  congr 1
  refine Finset.sum_congr rfl fun j hj => ?_
  have hj : j < n := Finset.mem_range.1 hj
  rw [Nat.mod_eq_of_lt (hm.trans_le (Nat.pow_le_pow_right (by omega) (Nat.mul_le_mul_left w (by omega))))]
  ring

/-- The products that the factors before column `c` put into it. -/
def columnProducts (w m u0 a n c : Nat) : Nat := ∑ j ∈ Finset.range n, redcDigit w m u0 a j * digit w m (c - j)

/-- One more column. -/
theorem columnSum_succ_right {w m u0 a n c : Nat} (h : n ≤ c) :
    columnSum w m u0 a n (c + 1) =
      columnSum w m u0 a n c + (digit w a c + columnProducts w m u0 a n c) * 2 ^ (w * c) := by
  have hterm : ∀ j ∈ Finset.range n, redcDigit w m u0 a j * (m % 2 ^ (w * (c + 1 - j))) * 2 ^ (w * j) =
      redcDigit w m u0 a j * (m % 2 ^ (w * (c - j))) * 2 ^ (w * j) +
        redcDigit w m u0 a j * digit w m (c - j) * 2 ^ (w * c) := by
    intro j hj
    have hj : j < n := Finset.mem_range.1 hj
    obtain ⟨d, rfl⟩ : ∃ d, c = d + j := ⟨c - j, by omega⟩
    rw [show d + j + 1 - j = d + 1 by omega, Nat.add_sub_cancel, mod_pow_succ_digit, Nat.mul_add w, Nat.pow_add]
    ring
  rw [columnSum, columnSum, columnProducts, Finset.sum_congr rfl hterm, Finset.sum_add_distrib, mod_pow_succ_digit,
    ← Finset.sum_mul]
  ring

/-- The factor of column `c` itself, whose product with digit 0 of `m` is the column's last. -/
theorem columnSum_succ_left (w m u0 a c : Nat) :
    columnSum w m u0 a (c + 1) (c + 1) =
      columnSum w m u0 a c (c + 1) + redcDigit w m u0 a c * digit w m 0 * 2 ^ (w * c) := by
  rw [columnSum, Finset.sum_range_succ, ← Nat.add_assoc, ← columnSum, Nat.add_sub_cancel_left, Nat.mul_one, digit_zero]

/-- The digit that column `c` takes its factor from is the digit that pass `c` of REDC looks at. -/
theorem digit_columnSum (w m u0 a c : Nat) :
    columnSum w m u0 a c (c + 1) / 2 ^ (w * c) % 2 ^ w = digit w (redcPasses w m u0 a c) c := by
  have hmod := columnSum_modEq w m u0 a c (c + 1)
  rw [pow_mul_succ] at hmod
  rw [digit, ← Nat.mod_mul_right_div_self, ← Nat.mod_mul_right_div_self, hmod]

/-- The factors held while column `c` is added up are those of the columns before it, at most `k`. -/
theorem fusedProducts_eq {w m k n : Nat} (hw : 0 < w) (hm : diglen w m ≤ k) (hn : n ≤ k) (u0 a c : Nat) :
    fusedProducts w m k c ((List.range (min c k)).map (redcDigit w m u0 a)) n =
      columnProducts w m u0 a (min c n) c := by
  induction n with
  | zero => simp [fusedProducts, columnProducts]
  | succ n ih =>
    rw [fusedProducts, ih (by omega)]
    by_cases hc : n < c
    · have hq : ((List.range (min c k)).map (redcDigit w m u0 a)).getD n 0 = redcDigit w m u0 a n := by
        simp [List.getD, hc, show n < k by omega]
      have hdigit : ¬ c - n < k → digit w m (c - n) = 0 := fun h => digit_eq_zero hw (by omega)
      rw [min_eq_right hc.le, min_eq_right (Nat.succ_le_of_lt hc), columnProducts, columnProducts, Finset.sum_range_succ, hq]
      by_cases hlen : c - n < k
      · rw [if_pos ⟨hc, hn, hlen⟩]
      · rw [if_neg (by tauto), hdigit hlen, Nat.mul_zero]
    · rw [if_neg (by tauto), min_eq_left (by omega), min_eq_left (by omega), Nat.add_zero]

/-- The digit emitted by a column `c >= k` goes on top of the digits emitted before it. -/
theorem columnSum_emit {w m u0 a k c : Nat} (h : k ≤ c) :
    columnSum w m u0 a k (c + 1) / 2 ^ (w * k) % 2 ^ (w * (c + 1 - k)) =
      columnSum w m u0 a k c / 2 ^ (w * k) % 2 ^ (w * (c - k)) +
        columnSum w m u0 a k (c + 1) / 2 ^ (w * c) % 2 ^ w * 2 ^ (w * (c - k)) := by
  have hpow : 2 ^ (w * c) = 2 ^ (w * (c - k)) * 2 ^ (w * k) := by
    rw [← Nat.pow_add, ← Nat.mul_add, Nat.sub_add_cancel h]
  have hlow : columnSum w m u0 a k (c + 1) / 2 ^ (w * k) % 2 ^ (w * (c - k)) =
      columnSum w m u0 a k c / 2 ^ (w * k) % 2 ^ (w * (c - k)) := by
    rw [columnSum_succ_right h, hpow, ← Nat.mul_assoc, Nat.add_mul_div_right _ _ (by positivity),
      Nat.add_mul_mod_self_right]
  rw [show c + 1 - k = c - k + 1 by omega, mod_pow_succ_digit, hlow, digit, Nat.div_div_eq_div_mul,
    Nat.mul_comm (2 ^ (w * k)), ← hpow]

/-- The state of the fused reduction after `c` columns. -/
theorem fusedColumns_eq {w m k : Nat} (hw : 0 < w) (hm : diglen w m ≤ k) (u0 a c : Nat) :
    fusedColumns w a m u0 k c =
      { q := (List.range (min c k)).map (redcDigit w m u0 a)
        acc := columnSum w m u0 a (min c k) c / 2 ^ (w * c)
        out := columnSum w m u0 a (min c k) c / 2 ^ (w * k) % 2 ^ (w * (c - k)) } := by
  induction c with
  | zero => simp [fusedColumns, columnSum, Nat.mod_one]
  | succ c ih =>
    have hacc : columnSum w m u0 a (min c k) c / 2 ^ (w * c) + digit w a c + columnProducts w m u0 a (min c k) c =
        columnSum w m u0 a (min c k) (c + 1) / 2 ^ (w * c) := by
      rw [columnSum_succ_right (min_le_left c k), Nat.add_mul_div_right _ _ (by positivity), Nat.add_assoc]
    simp only [fusedColumns, fusedColumn, ih, fusedProducts_eq hw hm le_rfl, hacc]
    obtain hc | hc := Nat.lt_or_ge c k
    · rw [if_pos hc, min_eq_left hc.le, min_eq_left (Nat.succ_le_of_lt hc), digit_columnSum, ← redcDigit, columnSum_succ_left,
        pow_mul_succ, ← Nat.div_div_eq_div_mul, Nat.add_mul_div_right _ _ (by positivity)]
      simp [List.range_succ, Nat.sub_eq_zero_of_le hc.le, Nat.sub_eq_zero_of_le hc, Nat.mod_one]
    · rw [if_neg hc.not_gt, min_eq_right hc, min_eq_right (hc.trans (Nat.le_succ c)), columnSum_emit hc, pow_mul_succ,
        Nat.div_div_eq_div_mul]

/-- Settles O44: after `2k` columns the emitted digits and the accumulator are REDC's quotient by `B^k`, so the one
correction gives the same result. -/
theorem fusedMontgomeryIsRedc : Obligations.FusedMontgomeryIsRedc := by
  unfold Obligations.FusedMontgomeryIsRedc
  intro w a m u0 hw hm ha _
  have hmin : min (2 * diglen w m) (diglen w m) = diglen w m := by omega
  have hsub : 2 * diglen w m - diglen w m = diglen w m := by omega
  have hsum := columnSum_eq u0 ha (n := diglen w m) (hsub.symm ▸ lt_pow_diglen hw m)
  have hpow : 2 ^ (w * (2 * diglen w m)) = 2 ^ (w * diglen w m) * 2 ^ (w * diglen w m) := by
    rw [← Nat.pow_add, ← Nat.mul_add, Nat.two_mul]
  rw [fusedRedc, redc, fusedColumns_eq hw le_rfl, hmin, hsub, hsum, hpow, ← Nat.div_div_eq_div_mul]
  exact congrArg _ (Nat.mod_add_div' ..)

end Sys2Proof.Machine
end

section
/-! PROOFS. The radix shape (spec/44_radix.md R190): the digit conditions say that the digits above digit 0 are together
all ones, and so that `m` is within one digit of `2^bits`. `RCHK` and `RSETUP` (R191, R193) answer by it. -/

namespace Sys2Proof.Machine

/-! Numbers whose bits are all ones, cut in two. -/

/-- A number is all ones exactly when its low part and its high part are. -/
theorem add_one_eq_mul_iff {A B x : Nat} (hA : 0 < A) (hB : 0 < B) :
    x + 1 = A * B ↔ x % A + 1 = A ∧ x / A + 1 = B := by
  have hsplit := Nat.div_mod_unique (a := x) (c := A - 1) (d := B - 1) hA
  have hmul : A * (B - 1) + A = A * B := by rw [← Nat.mul_succ, Nat.succ_eq_add_one, Nat.sub_add_cancel hB]
  omega

/-- The low `n` digits of a number are all ones exactly when each of them is. -/
theorem mod_pow_add_one_eq_iff (w x n : Nat) :
    x % 2 ^ (w * n) + 1 = 2 ^ (w * n) ↔ ∀ j, j < n → digit w x j = 2 ^ w - 1 := by
  induction n with
  | zero => simp [Nat.mod_one]
  | succ n ih =>
    have hlow : x % 2 ^ (w * (n + 1)) % 2 ^ (w * n) = x % 2 ^ (w * n) :=
      Nat.mod_mod_of_dvd _ (Nat.pow_dvd_pow 2 (Nat.mul_le_mul_left w n.le_succ))
    have htop : x % 2 ^ (w * (n + 1)) / 2 ^ (w * n) = digit w x n := by
      rw [pow_mul_succ, Nat.mod_mul_right_div_self, digit]
    have hpow := Nat.two_pow_pos w
    rw [pow_mul_succ, add_one_eq_mul_iff (by positivity) hpow, ← pow_mul_succ, hlow, htop, ih,
      Nat.forall_lt_succ_right]
    exact and_congr_right fun _ => by omega

/-! Lengths and digits of the part of a number above its low digits. -/

theorem bitlen_div_two_pow (x n : Nat) : bitlen (x / 2 ^ n) = bitlen x - n := by
  refine eq_of_forall_ge_iff fun b => ?_
  rw [bitlen_le_iff, Nat.div_lt_iff_lt_mul (by positivity), ← Nat.pow_add, ← bitlen_le_iff, Nat.sub_le_iff_le_add]

theorem div_pow_succ (w x n : Nat) : x / 2 ^ (w * (n + 1)) = x / 2 ^ w / 2 ^ (w * n) := by
  rw [Nat.div_div_eq_div_mul, ← Nat.pow_add, Nat.mul_succ, Nat.add_comm]

theorem digit_succ (w x j : Nat) : digit w x (j + 1) = digit w (x / 2 ^ w) j := by
  rw [digit, digit, div_pow_succ]

/-- The top digit is what stands above the digits below it. -/
theorem digit_top_eq {w x n : Nat} (hw : 0 < w) (h : diglen w x = n + 1) : digit w x n = x / 2 ^ (w * n) := by
  have hlt := lt_pow_diglen hw x
  rw [h, pow_mul_succ, Nat.mul_comm] at hlt
  exact Nat.mod_eq_of_lt ((Nat.div_lt_iff_lt_mul (by positivity)).2 hlt)

/-- A number of at least two digits is longer than one digit in bits. -/
theorem lt_bitlen_of_two_le_diglen {w m : Nat} (hw : 0 < w) (hk : 2 ≤ diglen w m) : w < bitlen m := by
  by_contra h
  have hone := (diglen_le_iff hw m 1).2 (by rw [Nat.mul_one, ← bitlen_le_iff]; omega)
  omega

/-! The shape. -/

/-- The digits above digit 0 are all ones, the top one up to its own top bit, exactly when the number that they make is
all ones. -/
theorem high_digits_all_ones_iff {w m : Nat} (hw : 0 < w) (hk : 2 ≤ diglen w m) :
    (∀ j, 1 ≤ j → j + 2 ≤ diglen w m → digit w m j = 2 ^ w - 1) ∧
      digit w m (diglen w m - 1) = 2 ^ bitlen (digit w m (diglen w m - 1)) - 1 ↔
    m / 2 ^ w + 1 = 2 ^ (bitlen m - w) := by
  obtain ⟨n, hn⟩ := Nat.exists_eq_add_of_le' hk
  have hlen : w * n ≤ bitlen m - w := by
    have hlow := pow_diglen_pred_le hw (show 0 < diglen w m by omega)
    rw [hn, Nat.add_sub_assoc (by decide), ← Nat.not_lt, ← bitlen_le_iff, Nat.mul_succ] at hlow
    omega
  have hsplit : bitlen m - w = w * n + (bitlen m - w * (n + 1)) := by rw [Nat.mul_succ]; omega
  have hpos := Nat.two_pow_pos (bitlen m - w * (n + 1))
  rw [hn, Nat.add_sub_assoc (by decide), digit_top_eq hw hn, bitlen_div_two_pow, hsplit, Nat.pow_add,
    add_one_eq_mul_iff (by positivity) hpos, mod_pow_add_one_eq_iff, ← div_pow_succ]
  refine and_congr ⟨fun h j hj => ?_, fun h j hj1 hj2 => ?_⟩ (by omega)
  · rw [← digit_succ]
    exact h _ (by omega) (by omega)
  · obtain ⟨i, rfl⟩ := Nat.exists_eq_add_of_le' hj1
    rw [digit_succ]
    exact h i (by omega)

/-- A number of at least two digits has the radix shape exactly when digit 0 is not 0 and what stands above it is all
ones (R190). -/
theorem hasRadixShape_iff_of_two_le {w m : Nat} (hw : 0 < w) (hk : 2 ≤ diglen w m) :
    HasRadixShape w m ↔ m % 2 ^ w ≠ 0 ∧ m / 2 ^ w + 1 = 2 ^ (bitlen m - w) := by
  have hm : 0 < m := Nat.pos_of_ne_zero fun h => by simp [h, hw] at hk
  have hone : diglen w m ≠ 1 := by omega
  rw [HasRadixShape, Int.toNat_natCast, high_digits_all_ones_iff hw hk, digit_zero]
  simp [hm, hone, hk]

/-- A number of at least two digits is within one digit of `2^bits` exactly when digit 0 is not 0 and what stands above
it is all ones. -/
theorem two_pow_bitlen_lt_iff {w m : Nat} (hwm : w ≤ bitlen m) :
    2 ^ bitlen m < m + 2 ^ w ↔ m % 2 ^ w ≠ 0 ∧ m / 2 ^ w + 1 = 2 ^ (bitlen m - w) := by
  have hpow : 2 ^ bitlen m = 2 ^ w * 2 ^ (bitlen m - w) := by rw [← Nat.pow_add, Nat.add_sub_cancel' hwm]
  have hlt := lt_two_pow_bitlen m
  have hw := Nat.two_pow_pos w
  have hmod := Nat.mod_lt m hw
  have hsplit := Nat.div_add_mod m (2 ^ w)
  rw [hpow] at hlt ⊢
  generalize 2 ^ w = B at *
  generalize 2 ^ (bitlen m - w) = P at *
  have hle : m / B < P := Nat.div_lt_of_lt_mul hlt
  constructor
  · intro h
    have hge : P < m / B + 2 := Nat.lt_of_mul_lt_mul_left (a := B) (by rw [Nat.mul_add]; omega)
    obtain rfl : P = m / B + 1 := by omega
    rw [Nat.mul_succ] at h
    omega
  · rintro ⟨hne, rfl⟩
    rw [Nat.mul_succ]
    omega

/-- The constant `2^bits - m` is at least 1 (R190). -/
theorem one_le_radixContext {m : Int} (hm : 0 ≤ m) : 1 ≤ 2 ^ bitlen m.toNat - m := by
  have hlt := lt_two_pow_bitlen m.toNat
  zify at hlt
  omega

/-- The radix shape, of one digit too, is that of `2^bits - c` for a `c` of one digit (R190). -/
theorem hasRadixShape_iff {w : Nat} {m : Int} (hw : 0 < w) (hm : 0 < m) :
    HasRadixShape w m ↔ 2 ^ bitlen m.toNat - m < 2 ^ w := by
  lift m to Nat using hm.le
  have hcast : (2 : Int) ^ bitlen m - m < 2 ^ w ↔ 2 ^ bitlen m < m + 2 ^ w := by zify; omega
  rw [Int.toNat_natCast, hcast]
  obtain hk | hk := Nat.lt_or_ge (diglen w m) 2
  · have hone : diglen w m = 1 := by
      have := diglen_pos hw (x := m) (by omega)
      omega
    have hbits : bitlen m ≤ w := by rw [bitlen_le_iff, ← Nat.mul_one w, ← diglen_le_iff hw, hone]
    have hle := Nat.pow_le_pow_right two_pos hbits
    exact iff_of_true ⟨hm, .inl hone⟩ (by omega)
  · rw [hasRadixShape_iff_of_two_le hw hk, two_pow_bitlen_lt_iff (lt_bitlen_of_two_le_diglen hw hk).le]

/-- Settles O38: `c` is `2^bits - m`. -/
theorem radixShapeIsPseudoMersenne : Obligations.RadixShapeIsPseudoMersenne := by
  unfold Obligations.RadixShapeIsPseudoMersenne
  intro w m hw hm
  have hiff := hasRadixShape_iff hw hm
  constructor
  · intro hshape
    have hc := hiff.1 hshape
    exact .inr ⟨2 ^ bitlen m.toNat - m, one_le_radixContext hm.le, by omega, by ring⟩
  · rintro (hone | ⟨c, -, hc, heq⟩)
    · exact ⟨hm, .inl hone⟩
    · exact hiff.2 (by omega)

/-! The shape under a change of one bit or of digit 0 (R192). -/

/-- Flipping a bit below the top bit keeps the length. -/
theorem bitlen_xor_two_pow {m i : Nat} (h : i + 1 < bitlen m) : bitlen (m ^^^ 2 ^ i) = bitlen m := by
  have hm : m ≠ 0 := by
    rintro rfl
    simp [bitlen] at h
  have htop : (m ^^^ 2 ^ i).testBit (bitlen m - 1) = true := by
    rw [Nat.testBit_xor, testBit_bitlen_pred hm, Nat.testBit_two_pow_of_ne (by omega), Bool.xor_false]
  have hlow := mt (bitlen_le_iff _ _).1 (Nat.not_lt.2 (Nat.ge_two_pow_of_testBit htop))
  have hhigh := (bitlen_le_iff _ _).2
    (Nat.xor_lt_two_pow (lt_two_pow_bitlen m) (Nat.pow_lt_pow_right one_lt_two (show i < bitlen m by omega)))
  omega

theorem diglen_congr (w : Nat) {x y : Nat} (h : bitlen x = bitlen y) : diglen w x = diglen w y := by
  rw [diglen, diglen, h]

/-- Settles O39: the digits above digit 0 are fixed by the length, and digit 0 is free but for 0. -/
theorem radixShapePerturbed : Obligations.RadixShapePerturbed := by
  unfold Obligations.RadixShapePerturbed
  intro w m hw hk hshape
  obtain ⟨-, hones⟩ := (hasRadixShape_iff_of_two_le hw hk).1 hshape
  refine ⟨fun i hi htop hflip => ?_, fun d hd => ?_⟩
  · have hlen := bitlen_xor_two_pow htop
    rw [hasRadixShape_iff_of_two_le hw (diglen_congr w hlen ▸ hk), hlen, ← hones] at hflip
    have hhigh : (m ^^^ 2 ^ i) / 2 ^ w = m / 2 ^ w := Nat.succ_inj.1 hflip.2
    have hbit := congrArg (Nat.testBit · (i - w)) hhigh
    simp [Nat.testBit_div_two_pow, Nat.sub_add_cancel hi] at hbit
  · obtain ⟨hdiv, hmod⟩ : (m - m % 2 ^ w + d) / 2 ^ w = m / 2 ^ w ∧ (m - m % 2 ^ w + d) % 2 ^ w = d := by
      rw [Nat.div_mod_unique (Nat.two_pow_pos w), ← Nat.mul_div_self_eq_mod_sub_self]
      exact ⟨Nat.add_comm .., hd⟩
    have hlen : bitlen (m - m % 2 ^ w + d) = bitlen m := by
      have hsub := congrArg bitlen hdiv
      rw [bitlen_div_two_pow, bitlen_div_two_pow] at hsub
      have hlt := lt_bitlen_of_two_le_diglen hw hk
      omega
    rw [hasRadixShape_iff_of_two_le hw (diglen_congr w hlen ▸ hk), hdiv, hmod, hlen, and_iff_left hones]

/-! `RCHK` (R191) and `RSETUP` (R193). -/

/-- The check computes the shape (R190). -/
theorem radixShape_iff (w : Nat) (m : Int) : radixShape w m = true ↔ HasRadixShape w m := by
  have hindex : (∀ j, j < diglen w m.toNat - 2 → digit w m.toNat (j + 1) = 2 ^ w - 1) ↔
      ∀ j, 1 ≤ j → j + 2 ≤ diglen w m.toNat → digit w m.toNat j = 2 ^ w - 1 := by
    refine ⟨fun h j hj1 hj2 => ?_, fun h j hj => h (j + 1) (by omega) (by omega)⟩
    obtain ⟨i, rfl⟩ := Nat.exists_eq_add_of_le' hj1
    exact h i (by omega)
  simp [radixShape, radixShapeNat, HasRadixShape, hindex, and_assoc]

theorem rchk_of_shape {w : Nat} {m : Int} (h : HasRadixShape w m) : rchk w m = 1 := if_pos ((radixShape_iff w m).2 h)

theorem rchk_of_no_shape {w : Nat} {m : Int} (h : ¬HasRadixShape w m) : rchk w m = 0 :=
  if_neg (mt (radixShape_iff w m).1 h)

theorem rsetup_of_shape {w : Nat} {m : Int} (h : HasRadixShape w m) : rsetup w m = .ok (2 ^ bitlen m.toNat - m) :=
  (if_neg h.1.not_ge).trans (if_pos ((radixShape_iff w m).2 h))

theorem rsetup_of_no_shape {w : Nat} {m : Int} (h : ¬HasRadixShape w m) : rsetup w m = .error .invalidModulus := by
  rw [rsetup, if_neg (mt (radixShape_iff w m).1 h), ite_self]

/-- Settles O20: 0 and 1 are one digit, so the result fits. -/
theorem rchkWritesTheShapeBit : Obligations.RchkWritesTheShapeBit := by
  unfold Obligations.RchkWritesTheShapeBit
  intro s rd rb hs hb
  have hall : [rb].all s.canonical = true := by simp [hb]
  have hpow := Nat.one_lt_two_pow s.params.w_pos.ne'
  refine ⟨decode_encode (.rchk rd rb), fun hshape => ?_, fun hno => ?_⟩
  · exact ends_wroteInt_finishInt hs.1 hall rd (congrArg Except.ok (rchk_of_shape hshape))
      (State.diglen_le_cap_of_lt hs hpow)
  · exact ends_wroteInt_finishInt hs.1 hall rd (congrArg Except.ok (rchk_of_no_shape hno))
      (State.diglen_le_cap_of_lt hs (Nat.zero_lt_of_lt hpow))

/-- Settles O21: the constant of a modulus of radix shape is one digit, so it fits. -/
theorem rsetupWritesTheContext : Obligations.RsetupWritesTheContext := by
  unfold Obligations.RsetupWritesTheContext
  intro s rd rb hs hb
  have hall : [rb].all s.canonical = true := by simp [hb]
  have hraised (hno : ¬HasRadixShape s.params.w (s.val rb)) :=
    ends_raised_finishInt hall rd (rsetup_of_no_shape hno)
  refine ⟨decode_encode (.rsetup rd rb), fun hm => hraised fun hshape => hshape.1.not_ge hm, hraised,
    fun hshape => ?_⟩
  have hpos := one_le_radixContext hshape.1.le
  have hlt := (hasRadixShape_iff s.params.w_pos hshape.1).1 hshape
  have hrule := rsetup_of_shape hshape
  refine ⟨hpos, hlt, ?_⟩
  generalize (2 : Int) ^ bitlen (s.val rb).toNat - s.val rb = c at *
  lift c to Nat using by omega
  exact ends_wroteInt_finishInt hs.1 hall rd hrule (State.diglen_le_cap_of_lt hs (by exact_mod_cast hlt))

end Sys2Proof.Machine
end

section
/-! PROOFS. The folding loop of `RRED` (spec/44_radix.md R195, R196): its passes up to the first that subtracts nothing,
and the residue it keeps with the context of the modulus. -/

namespace Sys2Proof.Machine

/-! The loop. -/

theorem foldLoop_succ (bits m c fuel v : Nat) :
    foldLoop bits m c (fuel + 1) v =
      if m ≤ foldOnce bits c v then foldLoop bits m c fuel (foldOnce bits c v - m) else foldOnce bits c v := rfl

/-- What a pass that subtracts leaves for the next one (R195). -/
def foldPass (bits m c v : Nat) : Nat := foldOnce bits c v - m

/-- With more fuel than the value, the loop ends in a pass `n` that subtracts nothing, and every pass before it
subtracts. -/
theorem exists_foldLoop_eq {bits m c : Nat} (hm : 0 < m) (hc : c ≤ 2 ^ bits) (fuel v : Nat) (hv : v < fuel) :
    ∃ n, (∀ i, i < n → m ≤ foldOnce bits c ((foldPass bits m c)^[i] v)) ∧
      foldOnce bits c ((foldPass bits m c)^[n] v) < m ∧
      foldLoop bits m c fuel v = foldOnce bits c ((foldPass bits m c)^[n] v) := by
  induction fuel generalizing v with
  | zero => omega
  | succ fuel ih =>
    have hle := foldOnce_le hc v
    rw [foldLoop_succ]
    split
    · next hge =>
      obtain ⟨n, hpasses, hlast, heq⟩ := ih (foldPass bits m c v) (by rw [foldPass]; omega)
      refine ⟨n + 1, fun i hi => ?_, hlast, heq⟩
      cases i with
      | zero => exact hge
      | succ i => exact hpasses i (by omega)
    · next hlt => exact ⟨0, by omega, Nat.lt_of_not_le hlt, rfl⟩

/-- A factor `c` congruent to `2^bits` keeps the residue in a pass (R196). -/
theorem foldOnce_modEq {bits m c : Nat} (hc : c ≡ 2 ^ bits [MOD m]) (v : Nat) : foldOnce bits c v ≡ v [MOD m] :=
  calc foldOnce bits c v ≡ v % 2 ^ bits + v / 2 ^ bits * 2 ^ bits [MOD m] := (hc.mul_left _).add_left _
    _ = v := Nat.mod_add_div' ..

theorem foldLoop_modEq {bits m c : Nat} (hc : c ≡ 2 ^ bits [MOD m]) (fuel v : Nat) :
    foldLoop bits m c fuel v ≡ v [MOD m] := by
  induction fuel generalizing v with
  | zero => rfl
  | succ fuel ih =>
    have hfold := foldOnce_modEq hc v
    rw [foldLoop_succ]
    split
    · next hge => exact (ih _).trans ((Nat.mod_eq_sub_mod hge).symm.trans hfold)
    · exact hfold

/-- With a factor congruent to `2^bits`, the result is `a mod m` (R196). -/
theorem radixReduce_eq_mod {a m c : Nat} (hm : 0 < m) (hle : c ≤ 2 ^ bitlen m) (hc : c ≡ 2 ^ bitlen m [MOD m]) :
    radixReduce a m c = a % m :=
  (Nat.mod_eq_of_lt (foldLoop_lt hm hle _ _ (Nat.lt_succ_self a))).symm.trans (foldLoop_modEq hc _ a)

/-! The checks. -/

theorem rred_of_nonpos {m : Int} (a : Int) (context : IntReg) (h : m ≤ 0) :
    rred a m context = .error .invalidModulus := if_pos h

theorem rred_of_malformed {m : Int} {context : IntReg} (a : Int) (hm : 0 < m) (h : context.oneDigit = none) :
    rred a m context = .error .operand := by
  rw [rred, if_neg hm.not_ge, h]

theorem rred_of_bad_operand {a m : Int} {context : IntReg} {c : Nat} (hm : 0 < m) (hc : context.oneDigit = some c)
    (h : 2 ^ bitlen m.toNat ≤ c ∨ a < 0) : rred a m context = .error .operand := by
  rw [rred, if_neg hm.not_ge, hc]
  by_cases hbits : 2 ^ bitlen m.toNat ≤ c
  · exact if_pos hbits
  · exact (if_neg hbits).trans (if_pos (h.resolve_left hbits))

theorem rred_of_valid {a m : Int} {context : IntReg} {c : Nat} (hm : 0 < m) (hc : context.oneDigit = some c)
    (hlt : c < 2 ^ bitlen m.toNat) (ha : 0 ≤ a) : rred a m context = .ok (radixReduce a.toNat m.toNat c) := by
  rw [rred, if_neg hm.not_ge, hc]
  exact (if_neg hlt.not_ge).trans (if_neg ha.not_gt)

/-! The command. -/

/-- `RRED` whose operands pass the checks: the result is below the modulus, so it fits. -/
theorem ends_wroteInt_rred {s : State} {rd ra rb rc : RegNum} {c : Nat} (hs : s.Wf) (hca : s.canonical ra = true)
    (hcb : s.canonical rb = true) (hcc : s.canonical rc = true) (hm : 0 < s.val rb)
    (hc : (s.reg rc).oneDigit = some c) (hlt : c < 2 ^ bitlen (s.val rb).toNat) (ha : 0 ≤ s.val ra) :
    Ends (exec (.rred rd ra rb rc) s) (WroteInt s rd (radixReduce (s.val ra).toNat (s.val rb).toNat c)) := by
  have hrule := rred_of_valid hm hc hlt ha
  obtain ⟨hnn, hrange⟩ := rred_ok_range hrule
  exact ends_wroteInt_finishInt hs.1 (by simp [hca, hcb, hcc]) rd hrule
    (State.diglen_le_cap_of_natAbs_le hs hcb (by omega))

/-- Settles O37: the context is congruent to `2^bits`, so every pass keeps the residue. -/
theorem radixReducesWithItsContext : Obligations.RadixReducesWithItsContext := by
  unfold Obligations.RadixReducesWithItsContext IsRadixContext
  rintro s rd ra rb rc hs hca hcb hcc ⟨hm, hctx⟩ hdigit ha
  have hpos : 1 ≤ s.val rc := hctx ▸ one_le_radixContext hm.le
  have hsum : (s.val rc).toNat + (s.val rb).toNat = 2 ^ bitlen (s.val rb).toNat := by zify; omega
  have hone : (s.reg rc).oneDigit = some (s.val rc).toNat := by
    rw [State.oneDigit_eq hs hcc, if_neg (by omega)]
  have hends := ends_wroteInt_rred (rd := rd) hs hca hcb hcc hm hone (by omega) ha
  rwa [radixReduce_eq_mod (by omega) (by omega) (hsum ▸ (Nat.add_modEq_right ..).symm), Int.natCast_emod,
    Int.toNat_of_nonneg ha, Int.toNat_of_nonneg hm.le] at hends

/-- Settles O22: the checks in order, then the passes of the loop. -/
theorem rredRunsTheFoldingLoop : Obligations.RredRunsTheFoldingLoop := by
  unfold Obligations.RredRunsTheFoldingLoop
  rintro s rd ra rb rc hs hca hcb hcc a m c rfl rfl hc
  have hall : [ra, rb, rc].all s.canonical = true := by simp [hca, hcb, hcc]
  have hone (hsign : (s.reg rc).sign = false) (hused : (s.reg rc).used.toNat ≤ 1) : (s.reg rc).oneDigit = some c :=
    hc ▸ IntReg.oneDigit_of_used_le hsign hused
  refine ⟨decode_encode (.rred rd ra rb rc), fun hm => ?_, fun hm hbad => ?_, fun hm hsign hused hlt ha => ?_⟩
  · exact ends_raised_finishInt hall rd (rred_of_nonpos _ _ hm)
  · refine ends_raised_finishInt hall rd ?_
    by_cases hform : (s.reg rc).sign = true ∨ 1 < (s.reg rc).used.toNat
    · exact rred_of_malformed _ hm (IntReg.oneDigit_malformed hform)
    · obtain ⟨hsign, hused⟩ := not_or.1 hform
      rw [← or_assoc] at hbad
      exact rred_of_bad_operand hm (hone (Bool.not_eq_true _ ▸ hsign) (not_lt.1 hused)) (hbad.resolve_left hform)
  · obtain ⟨n, hpasses, hlast, heq⟩ := exists_foldLoop_eq (m := (s.val rb).toNat) (by omega) hlt.le _ _
      (Nat.lt_succ_self (s.val ra).toNat)
    refine ⟨n, fun i => (foldPass (bitlen (s.val rb).toNat) (s.val rb).toNat c)^[i] (s.val ra).toNat, rfl,
      fun i hi => ⟨hpasses i hi, Function.iterate_succ_apply' ..⟩, hlast, ?_⟩
    rw [← heq]
    exact ends_wroteInt_rred hs hca hcb hcc hm (hone hsign hused) hlt ha

end Sys2Proof.Machine
end

section
/-! PROOFS. The carry-less product of spec/00_scope.md R16 as a ring product over XOR, its length, and the product by
the digits of a factor. -/

namespace Sys2Proof.Machine

/-! The laws of the product. -/

/-- R16: the coefficients of the two products are the same sums, taken in opposite orders. -/
theorem clmul_comm (a b : Nat) : clmul a b = clmul b a := by
  apply Nat.eq_of_testBit_eq
  intro n
  rw [testBit_clmul, ← clmulBelow_of_bitlen_le b a (Nat.le_add_right _ (n + 1)),
    testBit_clmulBelow_of_lt b a (by omega), testBit_clmulBelow]
  congr 2
  apply List.countP_congr
  intro i hi
  have : i ≤ n := by simpa [Nat.lt_succ_iff] using hi
  simp [this, and_comm]

theorem clmul_xor_right (a b b' : Nat) : clmul a (b ^^^ b') = clmul a b ^^^ clmul a b' := by
  rw [clmul_comm, clmul_xor_left, clmul_comm b, clmul_comm b']

theorem clmul_shiftLeft_left (a b k : Nat) : clmul (a <<< k) b = clmul a b <<< k := by
  suffices h : ∀ n, clmulBelow (a <<< k) b n = clmulBelow a b n <<< k from h _
  intro n
  induction n with
  | zero => simp [clmulBelow]
  | succ n ih =>
    rw [clmulBelow, clmulBelow, ih, Nat.shiftLeft_xor_distrib]
    split
    · rw [← Nat.shiftLeft_add, ← Nat.shiftLeft_add, Nat.add_comm]
    · simp

theorem clmul_shiftLeft_right (a b k : Nat) : clmul a (b <<< k) = clmul a b <<< k := by
  rw [clmul_comm, clmul_shiftLeft_left, clmul_comm]

@[simp] theorem clmul_zero_right (a : Nat) : clmul a 0 = 0 := rfl

@[simp] theorem clmul_one_right (a : Nat) : clmul a 1 = a := by
  rw [clmul_comm]
  exact clmul_two_pow_left 0 a

/-- Associativity, bit by bit of the last factor. -/
theorem clmul_assoc (a b c : Nat) : clmul (clmul a b) c = clmul a (clmul b c) := by
  suffices h : ∀ n, clmulBelow (clmul a b) c n = clmul a (clmulBelow b c n) from h _
  intro n
  induction n with
  | zero => simp [clmulBelow]
  | succ n ih =>
    rw [clmulBelow, clmulBelow, ih, clmul_xor_right]
    split
    · rw [clmul_shiftLeft_right]
    · simp

/-! The length of the product, and its digits. -/

theorem clmul_lt {a b m n : Nat} (ha : a < 2 ^ m) (hb : b < 2 ^ n) : clmul a b < 2 ^ (m + n) := by
  cases m with
  | zero =>
    obtain rfl : a = 0 := by simpa using ha
    simp
  | succ m =>
    rw [← clmulBelow_of_bitlen_le a b ((bitlen_le_iff b n).2 hb)]
    exact (clmulBelow_lt ha b n).trans (Nat.pow_lt_pow_right (by omega) (by omega))

/-- The low `n + 1` digits are the low `n` digits with digit `n` added in its place. -/
theorem mod_pow_succ_digit_xor (w x n : Nat) :
    x % 2 ^ (w * (n + 1)) = x % 2 ^ (w * n) ^^^ digit w x n <<< (w * n) := by
  apply Nat.eq_of_testBit_eq
  intro i
  rw [Nat.mul_succ]
  by_cases hi : i < w * n
  · have hge : ¬ w * n ≤ i := by omega
    have hlt : i < w * n + w := by omega
    simp [Nat.testBit_mod_two_pow, hi, hge, hlt]
  · have hge : w * n ≤ i := by omega
    have hdigit : i - w * n < w ↔ i < w * n + w := by omega
    simp [digit, Nat.testBit_mod_two_pow, Nat.testBit_div_two_pow, hi, hge, hdigit]

/-- Digit `n` of a factor adds its own product, shifted to its place. -/
theorem clmul_mod_pow_succ (w x n b : Nat) :
    clmul (x % 2 ^ (w * (n + 1))) b = clmul (x % 2 ^ (w * n)) b ^^^ clmul (digit w x n) b <<< (w * n) := by
  rw [mod_pow_succ_digit_xor, clmul_xor_left, clmul_shiftLeft_left]

end Sys2Proof.Machine
end

section
/-! PROOFS. The realization of the field product by the comb (spec/45_binary_field.md R212, R213). -/

namespace Sys2Proof

theorem DigitWidth.bits_pos (d : DigitWidth) : 0 < d.bits := by cases d <;> decide

theorem DigitWidth.four_dvd_bits (d : DigitWidth) : 4 ∣ d.bits := by cases d <;> decide

namespace Machine

/-- R212: row `v` holds the partial products of `b` by the four bits of `v`. -/
theorem combRow_eq_clmul (b : Nat) {v : Nat} (hv : v < 16) : combRow b v = clmul v b := by
  rw [clmul_comm, ← clmulBelow_of_bitlen_le b v ((bitlen_le_iff v 4).2 hv)]
  simp [combRow, clmulBelow]

/-- The row looked up for nibble `j` of a digit (R213). -/
theorem combRow_nibble (b d j : Nat) : combRow b (d >>> (4 * j) % 16) = clmul (digit 4 d j) b := by
  rw [combRow_eq_clmul b (Nat.mod_lt _ (by decide)), Nat.shiftRight_eq_div_pow]
  rfl

theorem combPass_xor (w a b j n acc x : Nat) : combPass w a b j n (acc ^^^ x) = combPass w a b j n acc ^^^ x := by
  induction n with
  | zero => rfl
  | succ n ih => rw [combPass, combPass, ih, Nat.xor_right_comm]

/-- The part that digit `n` of `a` takes in one pass, beside an `x` that the passes before it left there. -/
theorem combPass_succ (w a b j n acc x : Nat) :
    combPass w a b j (n + 1) (acc ^^^ x <<< (n * w)) =
      combPass w a b j n acc ^^^ (x ^^^ clmul (digit 4 (digit w a n) j) b) <<< (n * w) := by
  rw [combPass, combPass_xor, combRow_nibble, Nat.shiftLeft_xor_distrib, Nat.xor_assoc]

/-- The part that digit `n` of `a` takes in the loop over its nibbles `j`, ..., 0: its low `j + 1` nibbles times `b`,
beside an `x` that the passes before left there. -/
theorem combLoop_succ (w a b n j acc x : Nat) :
    combLoop w (n + 1) a b j (acc ^^^ x <<< (n * w)) =
      combLoop w n a b j acc ^^^ (x <<< (4 * j) ^^^ clmul (digit w a n % 2 ^ (4 * (j + 1))) b) <<< (n * w) := by
  induction j generalizing acc x with
  | zero =>
    have hnibble : digit 4 (digit w a n) 0 = digit w a n % 2 ^ (4 * (0 + 1)) := digit_zero 4 _
    rw [combLoop, combLoop, combPass_succ, hnibble]
    rfl
  | succ j ih =>
    have hswap (y : Nat) : y <<< (n * w) <<< 4 = y <<< 4 <<< (n * w) := by
      rw [← Nat.shiftLeft_add, ← Nat.shiftLeft_add, Nat.add_comm]
    have hshift (y : Nat) : y <<< 4 <<< (4 * j) = y <<< (4 * (j + 1)) := by
      rw [← Nat.shiftLeft_add, Nat.mul_succ, Nat.add_comm]
    rw [combLoop, combLoop, combPass_succ, Nat.shiftLeft_xor_distrib, hswap, ih, hshift, clmul_mod_pow_succ 4 _ (j + 1)]
    congr 2
    rw [Nat.shiftLeft_xor_distrib]
    ac_rfl

theorem combLoop_zero_digits (w a b j : Nat) : combLoop w 0 a b j 0 = 0 := by
  induction j with
  | zero => rfl
  | succ j ih => rw [combLoop, combPass, Nat.zero_shiftLeft, ih]

/-- With whole nibbles to a digit, each digit of `a` adds its product with `b`, shifted to its place. -/
theorem combMul_succ {w : Nat} (hw : 0 < w) (h4 : 4 ∣ w) (n a b : Nat) :
    combMul w (n + 1) a b = combMul w n a b ^^^ clmul (digit w a n) b <<< (n * w) := by
  have hnibbles : 4 * (w / 4 - 1 + 1) = w := by omega
  have hloop := combLoop_succ w a b n (w / 4 - 1) 0 0
  rwa [hnibbles, Nat.mod_eq_of_lt (digit_lt w a n), Nat.zero_shiftLeft, Nat.zero_shiftLeft, Nat.xor_zero,
    Nat.zero_xor] at hloop

/-- R213: the comb loop multiplies the low `n` digits of `a`. -/
theorem combMul_eq {w : Nat} (hw : 0 < w) (h4 : 4 ∣ w) (n a b : Nat) :
    combMul w n a b = clmul (a % 2 ^ (w * n)) b := by
  induction n with
  | zero => simp [combMul, combLoop_zero_digits, Nat.mod_one]
  | succ n ih => rw [combMul_succ hw h4, ih, clmul_mod_pow_succ, Nat.mul_comm n w]

/-- Settles O43: the rows are partial products, and the loop multiplies digit by digit, nibble by nibble. -/
theorem combComputesTheProduct : Obligations.CombComputesTheProduct := by
  unfold Obligations.CombComputesTheProduct
  refine ⟨fun b v => combRow_eq_clmul b, fun d n a b ha => ?_⟩
  rw [combMul_eq d.bits_pos d.four_dvd_bits, Nat.mul_comm, Nat.mod_eq_of_lt ha]

end Machine
end Sys2Proof
end

section
/-! PROOFS. The remainder by `FB_POLY` as a ring homomorphism (spec/00_scope.md R16), and the laws of the reduced
product (spec/45_binary_field.md R217). -/

namespace Sys2Proof.Machine

/-! Polynomials that differ by a multiple of `f`. -/

theorem pmod_congr {x y f : Nat} (hf : f ≠ 0) (h : ∃ q, x ^^^ y = clmul q f) : pmod x f = pmod y f := by
  obtain ⟨q, hq⟩ := h
  obtain ⟨q', hq'⟩ := xor_pmod x f
  refine eq_pmod hf (bitlen_pmod_lt x hf) ⟨q ^^^ q', ?_⟩
  rw [clmul_xor_left, ← hq, ← hq', Nat.xor_comm x y, Nat.xor_assoc, Nat.xor_xor_cancel_left]

theorem pmod_eq_self {x f : Nat} (h : bitlen x < bitlen f) : pmod x f = x := by
  have hf : f ≠ 0 := by rintro rfl; simp [bitlen] at h
  exact (eq_pmod hf h ⟨0, by simp⟩).symm

theorem pmod_xor {f : Nat} (hf : f ≠ 0) (x y : Nat) : pmod (x ^^^ y) f = pmod x f ^^^ pmod y f := by
  obtain ⟨q, hq⟩ := xor_pmod x f
  obtain ⟨q', hq'⟩ := xor_pmod y f
  refine (eq_pmod hf (bitlen_xor_lt (bitlen_pmod_lt x hf) (bitlen_pmod_lt y hf)) ⟨q ^^^ q', ?_⟩).symm
  rw [clmul_xor_left, ← hq, ← hq']
  ac_rfl

/-- A factor may be reduced before the product: a multiple of `f` times `y` is a multiple of `f`. -/
theorem pmod_clmul_pmod_left {f : Nat} (hf : f ≠ 0) (x y : Nat) :
    pmod (clmul (pmod x f) y) f = pmod (clmul x y) f := by
  obtain ⟨q, hq⟩ := xor_pmod x f
  refine (pmod_congr hf ⟨clmul q y, ?_⟩).symm
  rw [← clmul_xor_left, hq, clmul_assoc, clmul_assoc, clmul_comm f]

theorem pmod_clmul_pmod_right {f : Nat} (hf : f ≠ 0) (x y : Nat) :
    pmod (clmul x (pmod y f)) f = pmod (clmul x y) f := by
  rw [clmul_comm, pmod_clmul_pmod_left hf, clmul_comm]

/-! Legal parameters. -/

theorem fbPoly_ne_zero {p : Params} (hp : p.Ok) : p.fbPoly ≠ 0 := by
  obtain ⟨-, -, -, ⟨hlo, -⟩, -⟩ := hp
  exact ((Nat.two_pow_pos _).trans_le hlo).ne'

/-- `FB_POLY` has degree `FB_BITS` (R8), so an element is shorter exactly when its degree is below that. -/
theorem bitlen_lt_bitlen_fbPoly_iff {p : Params} (hp : p.Ok) (x : Nat) :
    bitlen x < bitlen p.fbPoly ↔ x < 2 ^ p.fbBits := by
  obtain ⟨-, -, -, ⟨hlo, hhi⟩, -⟩ := hp
  have hle := (bitlen_le_iff p.fbPoly (p.fbBits + 1)).2 hhi
  have hgt := (bitlen_le_iff p.fbPoly p.fbBits).not.2 hlo.not_gt
  rw [← bitlen_le_iff]
  omega

theorem fmulr_lt {p : Params} (hp : p.Ok) (a b : Nat) : fmulr p a b < 2 ^ p.fbBits :=
  (bitlen_lt_bitlen_fbPoly_iff hp _).1 (bitlen_pmod_lt _ (fbPoly_ne_zero hp))

/-! The field laws. -/

theorem fmulr_comm (p : Params) (a b : Nat) : fmulr p a b = fmulr p b a := by
  rw [fmulr, fmulr, clmul_comm]

theorem fmulr_assoc {p : Params} (hp : p.Ok) (a b c : Nat) : fmulr p (fmulr p a b) c = fmulr p a (fmulr p b c) := by
  have hf := fbPoly_ne_zero hp
  simp only [fmulr]
  rw [pmod_clmul_pmod_left hf, pmod_clmul_pmod_right hf, clmul_assoc]

theorem fmulr_xor {p : Params} (hp : p.Ok) (a b c : Nat) : fmulr p a (b ^^^ c) = fmulr p a b ^^^ fmulr p a c := by
  rw [fmulr, clmul_xor_right, pmod_xor (fbPoly_ne_zero hp)]
  rfl

theorem fmulr_one {p : Params} (hp : p.Ok) {a : Nat} (ha : a < 2 ^ p.fbBits) : fmulr p a 1 = a := by
  rw [fmulr, clmul_one_right, pmod_eq_self ((bitlen_lt_bitlen_fbPoly_iff hp a).2 ha)]

/-- Settles O41: the laws of the product carry over to its remainder. -/
theorem fieldMultiplicationLaws : Obligations.FieldMultiplicationLaws := by
  unfold Obligations.FieldMultiplicationLaws
  exact fun p a b c hp ha _ _ => ⟨fmulr_comm p a b, fmulr_assoc hp a b c, fmulr_xor hp a b c, fmulr_one hp ha, rfl,
    fmulr_lt hp a b⟩

end Sys2Proof.Machine
end

section
/-! PROOFS. The three field commands (spec/45_binary_field.md R211, R214, R216): the loop of `FMUL1`, the length of each
result, and how the command ends. -/

namespace Sys2Proof.Machine

/-! `FMUL1` as a product. -/

/-- R211: the loop from bit `i` down shifts what the accumulator held, and adds the partial products of the bits up to
`i`. -/
theorem mulDigitLoop_eq (fa dg i acc : Nat) :
    mulDigitLoop fa dg i acc = acc <<< i ^^^ clmulBelow fa dg (i + 1) := by
  induction i generalizing acc with
  | zero => by_cases h : dg.testBit 0 <;> simp [mulDigitLoop, clmulBelow, h]
  | succ i ih =>
    have hbits : clmulBelow fa dg (i + 1 + 1) =
        clmulBelow fa dg (i + 1) ^^^ (if dg.testBit (i + 1) then fa <<< (i + 1) else 0) := rfl
    rw [mulDigitLoop, ih, hbits, ← Nat.shiftLeft_add, Nat.add_comm 1 i]
    split
    · rw [Nat.shiftLeft_xor_distrib, Nat.xor_assoc, Nat.xor_comm (fa <<< _)]
    · rw [Nat.xor_zero]

theorem fmul1_eq_clmul {w dg : Nat} (hw : 0 < w) (fa : Nat) (h : dg < 2 ^ w) : fmul1 w fa dg = clmul fa dg := by
  rw [fmul1, mulDigitLoop_eq, Nat.sub_add_cancel hw, clmulBelow_of_bitlen_le fa dg ((bitlen_le_iff dg w).2 h)]
  simp

/-- R215, for the low `n` digits of `b`. -/
theorem foldl_fmul1_eq {w : Nat} (hw : 0 < w) (n a b : Nat) :
    (List.range n).foldl (fun acc j => acc ^^^ (fmul1 w a (digit w b j) <<< (j * w))) 0 =
      clmul (b % 2 ^ (w * n)) a := by
  induction n with
  | zero => simp [Nat.mod_one]
  | succ n ih =>
    rw [List.range_succ, List.foldl_concat, ih, fmul1_eq_clmul hw a (digit_lt w b n), clmul_comm a,
      clmul_mod_pow_succ, Nat.mul_comm n w]

/-- Settles O42: each digit of `b` adds its product with `a`. -/
theorem fullProductDigitByDigit : Obligations.FullProductDigitByDigit := by
  unfold Obligations.FullProductDigitByDigit
  intro d n a b hb
  rw [foldl_fmul1_eq d.bits_pos, Nat.mul_comm d.bits, Nat.mod_eq_of_lt hb, fmulf, clmul_comm]

/-! The commands. -/

/-- A field element fits `FB_DIGS` digits (spec/00_scope.md R7). -/
theorem fbBits_le (p : Params) : p.fbBits ≤ p.w * p.fbDigs := by
  have hw := p.w_pos
  have hdigs : p.fbBits + p.w - 1 ≤ p.w * p.fbDigs + (p.w - 1) := (Nat.div_le_iff_le_mul_add_pred hw).1 le_rfl
  omega

theorem fbDigs_pos {p : Params} (hp : p.Ok) : 0 < p.fbDigs := by
  obtain ⟨-, hbits, -⟩ := hp
  have := fbBits_le p
  exact Nat.pos_of_mul_pos_left (by omega : 0 < p.w * p.fbDigs)

theorem State.elem_lt {s : State} (hs : s.Wf) (n : RegNum) : s.elem n < 2 ^ (s.params.w * s.params.fbDigs) :=
  FieldReg.fval_lt (State.wf_freg hs n) _

/-- The scalar of `FMUL1` is digit 0 of its register (R210). -/
theorem State.fdigit0_eq (s : State) (n : RegNum) : s.fdigit0 n = ((s.freg n).fdig.getD 0 0).toNat := by
  rw [State.fdigit0, FieldReg.fval]
  cases (s.freg n).fdig <;> simp [ofDigits]

theorem State.fdigit0_lt {s : State} (hs : s.Wf) (n : RegNum) : s.fdigit0 n < 2 ^ s.params.w := by
  simpa [State.fdigit0] using FieldReg.fval_lt (State.wf_freg hs n) 1

/-- A field command whose result is no longer than the double-width product ends with the field write (R117). -/
theorem ends_wroteField {s : State} (rd : RegNum) {x m : Nat} (hx : x < 2 ^ m)
    (hm : m ≤ s.params.w * (2 * s.params.fbDigs)) :
    Ends (.next (s.commitField rd x)) (WroteField s rd x) :=
  ⟨_, rfl, wroteField_commitField s rd (hx.trans_le (Nat.pow_le_pow_right (by decide) hm))⟩

/-- Settles O23: the loop is the product, and it takes one digit more than an element. -/
theorem fmul1WritesTheDigitProduct : Obligations.Fmul1WritesTheDigitProduct := by
  unfold Obligations.Fmul1WritesTheDigitProduct
  intro s rd ra rb hs
  have hdigs := fbDigs_pos hs.1
  have hdigit := State.fdigit0_lt hs rb
  have hmul := fmul1_eq_clmul s.params.w_pos (s.elem ra) hdigit
  have hlt : clmul (s.elem ra) (s.fdigit0 rb) < 2 ^ ((s.params.fbDigs + 1) * s.params.w) := by
    rw [Nat.mul_comm, Nat.mul_succ]
    exact clmul_lt (State.elem_lt hs ra) hdigit
  have hfit : (s.params.fbDigs + 1) * s.params.w ≤ s.params.w * (2 * s.params.fbDigs) := by
    rw [Nat.mul_comm]
    exact Nat.mul_le_mul_left _ (by omega)
  rw [← State.fdigit0_eq]
  refine ⟨decode_encode (.fmul1 rd ra rb), hlt, ?_⟩
  rw [← hmul] at hlt ⊢
  exact ends_wroteField rd hlt hfit

/-- Settles O24: the product of two elements fits `2n` digits. -/
theorem fmulfWritesTheProduct : Obligations.FmulfWritesTheProduct := by
  unfold Obligations.FmulfWritesTheProduct
  intro s rd ra rb hs
  exact ⟨decode_encode (.fmulf rd ra rb),
    ends_wroteField rd (clmul_lt (State.elem_lt hs ra) (State.elem_lt hs rb)) (by rw [← Nat.mul_add, Nat.two_mul])⟩

/-- Settles O25: the remainder is an element, and it differs from the product by a multiple of `FB_POLY`. -/
theorem fmulrWritesTheReducedProduct : Obligations.FmulrWritesTheReducedProduct := by
  unfold Obligations.FmulrWritesTheReducedProduct
  intro s rd ra rb hs
  have hlt := fmulr_lt hs.1 (s.elem ra) (s.elem rb)
  have hfit := (fbBits_le s.params).trans (Nat.mul_le_mul_left _ (by omega : s.params.fbDigs ≤ 2 * s.params.fbDigs))
  exact ⟨decode_encode (.fmulr rd ra rb), _, hlt, xor_pmod _ _, ends_wroteField rd hlt hfit⟩

end Sys2Proof.Machine
end

section
/-! PROOFS. The error matrix (spec/60_exceptions.md R230, R232): the codes a command can end with are its row, of which
`CAPACITY` is left out wherever every result of the rule fits `CAP` digits. -/

namespace Sys2Proof.Machine

/-! The results that fit (spec/40_command_execution.md R117). -/

/-- A remainder by one digit is below the value of the divisor register, which is that digit. -/
theorem State.diglen_moddig_le {s : State} (hs : s.Wf) {rb : RegNum} (hb : s.canonical rb = true) {a v : Int}
    (h : moddig a (s.reg rb) = .ok v) : diglen s.params.w v.natAbs ≤ s.params.cap := by
  unfold moddig at h
  split at h
  · cases h
  · next d hd =>
    split_ifs at h with hzero
    cases h
    have hval := State.val_of_oneDigit hs hb hd
    exact hval ▸ State.diglen_emod_val_le hs hb (by omega) a

theorem msetup_ok_digit {w : Nat} {m v : Int} (h : msetup w m = .ok v) : 0 ≤ v ∧ v < 2 ^ w := by
  unfold msetup at h
  split_ifs at h
  cases h
  exact ⟨Int.natCast_nonneg _, by exact_mod_cast negInvBits_lt (digit w m.toNat 0) w⟩

theorem rchk_digit {w : Nat} (hw : 0 < w) (m : Int) : 0 ≤ rchk w m ∧ rchk w m < 2 ^ w := by
  have hpow : (1 : Int) < 2 ^ w := by exact_mod_cast Nat.one_lt_two_pow hw.ne'
  unfold rchk
  split <;> omega

theorem rsetup_ok_digit {w : Nat} (hw : 0 < w) {m v : Int} (h : rsetup w m = .ok v) : 0 ≤ v ∧ v < 2 ^ w := by
  unfold rsetup at h
  split_ifs at h with hm hshape
  cases h
  exact ⟨zero_le_one.trans (one_le_radixContext (by omega)),
    (hasRadixShape_iff hw (by omega)).1 ((radixShape_iff w m).1 hshape)⟩

/-! The matrix. -/

/-- The codes that the row of a command allows: `OK` and the errors of R232, without the `ILLEGAL` of a word that is no
command. -/
@[simp] def errorRow : Instr → List Err
  | .mod2b _ _ => [.ok, .operand]
  | .moddig _ _ _ => [.ok, .operand, .divisionByZero]
  | .modbasic _ _ _ => [.ok, .operand, .divisionByZero, .invalidModulus]
  | .bsetup _ _ => [.ok, .operand, .invalidModulus, .capacity]
  | .bred _ _ _ _ => [.ok, .operand, .invalidModulus]
  | .msetup _ _ => [.ok, .operand, .invalidModulus]
  | .mto _ _ _ => [.ok, .operand, .invalidModulus]
  | .mfrom _ _ _ => [.ok, .operand, .invalidModulus, .range]
  | .mred _ _ _ _ => [.ok, .operand, .invalidModulus, .range]
  | .rchk _ _ => [.ok, .operand]
  | .rsetup _ _ => [.ok, .operand, .invalidModulus]
  | .rred _ _ _ _ => [.ok, .operand, .invalidModulus]
  | .fmul1 _ _ _ => [.ok]
  | .fmulf _ _ _ => [.ok]
  | .fmulr _ _ _ => [.ok]

/-- The code of a commit: `CAPACITY` only for a result that does not fit (R117). -/
theorem commitInt_err (s : State) (rd : RegNum) (v : Int) :
    (s.commitInt rd v).status.err = if s.params.cap < diglen s.params.w v.natAbs then .capacity else .ok := by
  unfold State.commitInt
  split <;> rfl

/-- A row with `OK`, `OPERAND` and the errors `errs` of the rule's own checks holds every code of the command, when it
holds `CAPACITY` or every result of the rule fits (R113, R115, R117). -/
theorem finishInt_err_mem {s : State} {srcs : List RegNum} {rd : RegNum} {res : Except Err Int} {errs row : List Err}
    (herr : ∀ e, res = .error e → e ∈ errs) (hrow : .ok :: .operand :: errs ⊆ row)
    (hfit : .capacity ∈ row ∨ ((∀ r ∈ srcs, s.canonical r = true) →
      ∀ v, res = .ok v → diglen s.params.w v.natAbs ≤ s.params.cap)) :
    (s.finishInt srcs rd res).status.err ∈ row := by
  obtain ⟨-, h⟩ | ⟨hall, ⟨e, he, h⟩ | ⟨v, hv, h⟩⟩ := finishInt_cases s srcs rd res <;> rw [h]
  · exact hrow (by simp [Status.completed])
  · exact hrow (by simp [herr e he])
  · rw [commitInt_err]
    split
    · next hbig => exact hfit.resolve_right fun hf => (hf (List.all_eq_true.1 hall) v hv).not_gt hbig
    · exact hrow (by simp)

/-- The same for a rule whose results lie in `[0, m)`, `m` the value of a source: each fits, as that source does. -/
theorem finishInt_err_mem_of_range {s : State} {srcs : List RegNum} {rd : RegNum} {res : Except Err Int}
    {errs row : List Err} (hs : s.Wf) (rb : RegNum) (hb : rb ∈ srcs) (herr : ∀ e, res = .error e → e ∈ errs)
    (hrange : ∀ v, res = .ok v → 0 ≤ v ∧ v < s.val rb) (hrow : .ok :: .operand :: errs ⊆ row) :
    (s.finishInt srcs rd res).status.err ∈ row :=
  finishInt_err_mem herr hrow (.inr fun hc v hv => by
    obtain ⟨hnn, hlt⟩ := hrange v hv
    exact State.diglen_le_cap_of_natAbs_le hs (hc rb hb) (by omega))

/-- The same for a rule whose results are one digit. -/
theorem finishInt_err_mem_of_digit {s : State} {srcs : List RegNum} {rd : RegNum} {res : Except Err Int}
    {errs row : List Err} (hs : s.Wf) (herr : ∀ e, res = .error e → e ∈ errs)
    (hdigit : ∀ v, res = .ok v → 0 ≤ v ∧ v < 2 ^ s.params.w) (hrow : .ok :: .operand :: errs ⊆ row) :
    (s.finishInt srcs rd res).status.err ∈ row :=
  finishInt_err_mem herr hrow (.inr fun _ v hv => by
    obtain ⟨hnn, hlt⟩ := hdigit v hv
    lift v to Nat using hnn
    exact State.diglen_le_cap_of_lt hs (by exact_mod_cast hlt))

/-- A command ends with a code of its row (R230, R232). -/
theorem exec_err_mem {i : Instr} {s t : State} (hs : s.Wf) (h : exec i s = .next t) : t.status.err ∈ errorRow i := by
  have hw := s.params.w_pos
  cases i <;> cases h
  case mod2b _ ra =>
    refine finishInt_err_mem (errs := []) nofun (by simp) (.inr fun hc v hv => ?_)
    cases hv
    exact State.diglen_le_cap_of_natAbs_le hs (hc ra (by simp)) (natAbs_mod2b_le hw _ _)
  case moddig _ _ rb =>
    exact finishInt_err_mem (fun _ => moddig_error_mem) (by simp)
      (.inr fun hc _ => State.diglen_moddig_le hs (hc rb (by simp)))
  case bsetup => exact finishInt_err_mem (fun _ => bsetup_error_mem) (by simp) (.inl (by simp))
  case modbasic _ _ rb =>
    exact finishInt_err_mem_of_range hs rb (by simp) (fun _ => modbasic_error_mem) (fun _ => modbasic_ok_range)
      (by simp)
  case bred _ _ rb _ =>
    exact finishInt_err_mem_of_range hs rb (by simp) (fun _ => bred_error_mem) (fun _ => bred_ok_range) (by simp)
  case mto _ _ rb =>
    exact finishInt_err_mem_of_range hs rb (by simp) (fun _ => mto_error_mem) (fun _ => mto_ok_range) (by simp)
  case mfrom _ _ rb =>
    exact finishInt_err_mem_of_range hs rb (by simp) (fun _ => mfrom_error_mem) (fun _ => mfrom_ok_range) (by simp)
  case mred _ _ rb _ =>
    exact finishInt_err_mem_of_range hs rb (by simp) (fun _ => mred_error_mem) (fun _ => mred_ok_range) (by simp)
  case rred _ _ rb _ =>
    exact finishInt_err_mem_of_range hs rb (by simp) (fun _ => rred_error_mem) (fun _ => rred_ok_range) (by simp)
  case msetup =>
    exact finishInt_err_mem_of_digit hs (fun _ => msetup_error_mem) (fun _ => msetup_ok_digit) (by simp)
  case rchk =>
    refine finishInt_err_mem_of_digit (errs := []) hs nofun (fun v hv => ?_) (by simp)
    cases hv
    exact rchk_digit hw _
  case rsetup =>
    exact finishInt_err_mem_of_digit hs (fun _ => rsetup_error_mem) (fun _ => rsetup_ok_digit hw) (by simp)
  case fmul1 | fmulf | fmulr => exact List.mem_singleton.2 rfl

/-- The rows read column by column: the commands that each error belongs to (R230). -/
theorem errorRow_columns (i : Instr) :
    .illegal ∉ errorRow i ∧ (.operand ∈ errorRow i → i.isField = false) ∧
    (.capacity ∈ errorRow i → i.mnemonic = "BSETUP") ∧
    (.divisionByZero ∈ errorRow i → i.mnemonic ∈ ["MODDIG", "MODBASIC"]) ∧
    (.range ∈ errorRow i → i.mnemonic ∈ ["MRED", "MFROM"]) ∧
    (.invalidModulus ∈ errorRow i →
      i.mnemonic ∈ ["MODBASIC", "BSETUP", "BRED", "MSETUP", "MTO", "MFROM", "MRED", "RSETUP", "RRED"]) := by
  cases i <;> simp [Instr.isField, Instr.mnemonic]

/-- Settles O30: the code lies in the row of the command, and each error stands only in the rows that the statement
names. -/
theorem commandsRaiseOnlyTheirErrors : Obligations.CommandsRaiseOnlyTheirErrors := by
  unfold Obligations.CommandsRaiseOnlyTheirErrors
  intro s t i hs h
  have hmem := exec_err_mem hs h
  obtain ⟨hill, hop, hcap, hdiv, hran, hinv⟩ := errorRow_columns i
  exact ⟨fun e => hill (e ▸ hmem), fun e => hop (e ▸ hmem), fun e => hcap (e ▸ hmem), fun e => hdiv (e ▸ hmem),
    fun e => hran (e ▸ hmem), fun e => hinv (e ▸ hmem)⟩

end Sys2Proof.Machine
end

section
/-! PROOFS. The slot of `CTRL` (spec/10_state.md R43) and the interrupt output (spec/60_exceptions.md R240). -/

namespace Sys2Proof.Machine

/-- The output after a completion is `IE`: the completion sets `DONE`, and no command writes `IE` (R116, R117). -/
theorem exec_irq {i : Instr} {s t : State} (h : exec i s = .next t) : t.irq = s.ie := by
  obtain ⟨e, rfl⟩ | ⟨-, v, rfl⟩ | ⟨-, x, rfl⟩ := exec_writes h <;> simp [State.irq]

/-- A `CTRL` read is the slot value `IE` or a half of it, busy or idle. -/
theorem memRead_ctrl (s : State) :
    s.memRead 0x20 8 = s.reply (.data8 (if s.ie then 1 else 0)) ∧
    s.memRead 0x20 4 = s.reply (.data4 (if s.ie then 1 else 0)) ∧ s.memRead 0x24 4 = s.reply (.data4 0) := by
  have hread {off n : Nat} (ha : accepted off n = true) (hx : slotAt s.params (slotOffset off) = .ctrl) :
      s.memRead off n = s.reply (readPart off n (ctrlWord s.ie)) :=
    memRead_of_not_inWindow (x := .ctrl) ha hx rfl
  refine ⟨(hread rfl rfl).trans ?_, (hread rfl rfl).trans ?_, (hread rfl rfl).trans ?_⟩ <;> cases s.ie <;> rfl

/-- A write at the lower half of the `CTRL` slot stores bit 0 of the value written, busy or idle (R43, R67). -/
theorem memWrite_ctrl_low (s : State) {n : Nat} (hn : n = 4 ∨ n = 8) (v : Word) :
    s.memWrite 0x20 n v = { s with ie := v.getLsbD 0 }.reply .written := by
  have ha : accepted 0x20 n = true := by simpa [accepted, or_comm] using hn
  rw [memWrite_of_not_refused (x := .ctrl) v ha rfl fun _ => rfl]
  simp only [State.storeSlot, getLsbD_mergePart ha (show 0x20 % 8 = 0 by decide), show 0 < 32 by decide]

/-- A write at the upper half of the `CTRL` slot stores the slot's own bit 0 (R67). -/
theorem memWrite_ctrl_high (s : State) (v : Word) : s.memWrite 0x24 4 v = s.reply .written := by
  rw [memWrite_of_not_refused (x := .ctrl) v rfl rfl fun _ => rfl]
  simp [State.storeSlot, State.slotValue, mergePart, getElem_halves, BitVec.getLsbD_eq_getElem]

/-- Settles O55: each access is the one to `CMD`, `STATUS` or `CTRL`, and the output is read off the state after it. -/
theorem interruptFollowsDoneAndEnable : Obligations.InterruptFollowsDoneAndEnable := by
  unfold Obligations.InterruptFollowsDoneAndEnable
  intro s
  obtain ⟨hread8, hread4, hreadHigh⟩ := memRead_ctrl s
  refine ⟨by simp [State.irq], fun i t => exec_irq, fun hidle v => ?_, fun v hv => ?_, fun v => ?_,
    by simp [State.irq], by simp, hread8, hread4, hreadHigh, fun n v hn => memWrite_ctrl_low s hn v,
    memWrite_ctrl_high s⟩
  · rw [(cmdWriteStartsTheCommand.1 s 4 v (.inl rfl)).1 hidle]
    rfl
  · rw [memWrite_status_low s (.inr rfl)]
    simp [State.irq, hv]
  · rw [memWrite_ctrl_low s (.inr rfl)]
    rfl

end Sys2Proof.Machine
end

section
/-! PROOFS. The reset event (spec/70_reset_and_hazards.md section 1). -/

namespace Sys2Proof.Machine

/-- The integer registers a reset event leaves are those of an engine right after reset (R260). -/
theorem reg_resetEvent (s : State) (n : RegNum) :
    s.resetEvent.reg n = (State.afterReset s.params s.draws).reg n := rfl

/-- A reset event, whatever the registers held before it, leaves every integer register a 0 with no digit used
(R48, R260). -/
theorem resetEvent_reg_zero (s : State) (n : RegNum) :
    (s.resetEvent.reg n).used = 0 ∧ (s.resetEvent.reg n).sign = false ∧ s.resetEvent.val n = 0 := by
  obtain ⟨hregs, -⟩ := resetValues s.params s.draws
  obtain ⟨hused, hsign, hval, -⟩ := hregs n
  rw [State.val, reg_resetEvent]
  exact ⟨hused, hsign, hval⟩

/-- `ID` reads the parameters, which a reset event keeps (R40, R261). -/
theorem slotValue_id_resetEvent (s : State) : s.resetEvent.slotValue .id = s.slotValue .id := by
  simp [State.slotValue]

/-- The output is low after a reset event: `DONE` and `IE` are both 0 (R240, R261). -/
theorem irq_resetEvent (s : State) : s.resetEvent.irq = false := by
  simp [State.irq]

/-- Settles O8: the step is the reset event on the state with its turn taken, busy or not. -/
theorem resetEventClearsTheEngine : Obligations.ResetEventClearsTheEngine := by
  unfold Obligations.ResetEventClearsTheEngine
  intro s hn
  obtain ⟨-, -, hstep, -⟩ := stepRunsTheDecodedCommand
  exact ⟨_, hstep s hn, resetEvent_reg_zero s.popTurn, rfl, rfl, rfl, rfl, rfl, slotValue_id_resetEvent s.popTurn,
    irq_resetEvent s.popTurn, rfl, rfl⟩

end Sys2Proof.Machine
end
